-- ==== Sys2Proof/Word.lean ====
section
/-! DEFINITION. The widths of the hardware's values (spec/00_scope.md R7: unsigned bit vectors). -/
namespace Sys2Proof

/-- One byte: a segment byte or a digit-select byte (R46, R47). -/
abbrev Byte := BitVec 8

/-- Sixteen bits: a frame (R48). The `value` operand is no `Word`: its width is the parameter VALUE_WIDTH
(R5), so it is a natural number below `2 ^ VALUE_WIDTH` (assumption log 31). -/
abbrev Word := BitVec 16

/-- A digit position 0..3, left to right (R9); the width of `pos` and of `cmd_dp_idx` (R10, R11). -/
abbrev Position := BitVec 2

/-- A decimal digit; digits outside 0..9 do not exist (R53, R63). -/
abbrev Digit := Fin 10

end Sys2Proof
end

