-- ==== Sys2Proof/Config.lean ====
section
/-! DEFINITION. What is fixed when the hardware is built (spec/00_scope.md R5) and the free values.
The parameters are plain data that the machine carries and no step writes (assumption log 1). -/
namespace Sys2Proof

/-- The build-time parameters of R5 that the model does not fix. N_DIGITS is 4, PIN_CYCLES 1 and
SYNC_STAGES 0 (assumption log 2). -/
structure Params where
  /-- SEG_TABLE (R16, R30, R61): the segment byte of each digit, decimal point off. -/
  segTable : Vector Byte 10
  /-- Which bit of the segment byte drives each of the segments a, b, c, d, e, f, g (R46). -/
  segLine : Vector (Fin 8) 7
  /-- DP_BIT (R5): the bit of the segment byte that drives the decimal point. -/
  dpBit : Fin 8
  /-- VALUE_WIDTH (R5): the width in bits of the `value` operand. -/
  valueWidth : Nat
  /-- F_CLK_HZ (R5): clock cycles per second, so also cycles per TICK (R112). -/
  fClkHz : Nat
  /-- DWELL_CYCLES (R5, R79). -/
  dwellCycles : Nat
  /-- DEBOUNCE_CYCLES (R5, R92). -/
  debounceCycles : Nat
  /-- ENV_FULL_SCALE in volts (R5, R103). -/
  fullScale : Rat
  /-- ENV_RESET_ATOMIC (R5, R101): no TICK falls between the two writes of CLKRESET. -/
  resetAtomic : Bool
  /-- Which of CLKRESET's two writes comes first; R101 does not say (assumption log 14). -/
  resetMinutesFirst : Bool
  /-- Which of MODESEL's two clock reads comes first; R109 does not say (assumption log 14). -/
  readMinutesFirst : Bool
deriving DecidableEq, Repr

/-- Free value (R105, ENV_ROUND, D23): whether `round` takes an exact half upwards. The spec leaves
ties open (assumption log 16). -/
opaque Config.roundTieUp : Rat → Bool

/-- Free value: what the `value` operand is formed to be, before it is cut to its width, from a rounded
voltage that VALUE_WIDTH bits cannot hold; the first argument is that width. The spec states no
result there (assumption log 16). -/
opaque Config.unrepresentableValue : Nat → Int → Nat

end Sys2Proof
end

