-- ==== Sys2Proof/Syntax.lean ====
section
/-! DEFINITION. The operations of the hardware, one constructor per row of spec/opcode_table.json
(R52), and the words in which they are requested (R45 to R48, R58). -/
namespace Sys2Proof

/-- The operations. Every field but `value`, whose width is a parameter, is exactly as wide as its
encoding; WellFormed.lean checks `value`, the raw words and the parameters. -/
inductive Instr where
  /-- RENDER (R45, R75): a CMD word. -/
  | render (dpEn : Bool) (dpIdx : Position) (value : Nat)
  /-- SHOWCLOCK (R59): a CMD word with `dp_en = 0`; `dpIdx` is ignored (R54). -/
  | showclock (dpIdx : Position) (value : Nat)
  /-- SHOWVOLTS (R59): a CMD word with `dp_en = 1` and `dp_idx = 1`. -/
  | showvolts (value : Nat)
  /-- ENCODE.0 to ENCODE.9 (R60): `pointOff` is the field `s` of the table, bit 7 of the byte. -/
  | encode0 (pointOff : Bool)
  | encode1 (pointOff : Bool)
  | encode2 (pointOff : Bool)
  | encode3 (pointOff : Bool)
  | encode4 (pointOff : Bool)
  | encode5 (pointOff : Bool)
  | encode6 (pointOff : Bool)
  | encode7 (pointOff : Bool)
  | encode8 (pointOff : Bool)
  | encode9 (pointOff : Bool)
  /-- DIGITSEL.0 to DIGITSEL.3 (R77). -/
  | digitsel0
  | digitsel1
  | digitsel2
  | digitsel3
  /-- WRITEFRAME (R67): a FRAME word. -/
  | writeframe (seg sel : Byte)
  /-- SHIFTBYTE (R66). -/
  | shiftbyte (byte : Byte)
  /-- SHIFTBIT (R65). -/
  | shiftbit (bit : Bool)
  /-- DIGIT (R76): operands `val_q` and `pos`. -/
  | digit
  /-- DWELL (R79). -/
  | dwell
  /-- DBSAMPLE (R91): operand `btn_n`. -/
  | dbsample
  /-- DBWAIT (R92). -/
  | dbwait
  /-- TICK (R100). -/
  | tick
  /-- CLKRESET (R101). -/
  | clkreset
  /-- VUPDATE (R103): operand the analog sample. -/
  | vupdate
  /-- MODESEL (R105): operands the mode button, the voltage and the clock. -/
  | modesel
  /-- LOOP (R106). -/
  | loop
deriving DecidableEq, Repr

/-- The formats of the table (R52). The two pseudo-operations of R59 are CMD words asked for under
their own names, so they have a tag each (assumption log 4). -/
inductive Format where
  | cmd
  | showclock
  | showvolts
  | segb
  | selb
  | frame
  | byte
  | bit
  | seq
  | env
deriving DecidableEq, Repr

/-- A requested operation: its format and its bits, numbered as the table numbers them (bit 0 least
significant). How many there are depends on the format and, for CMD, on VALUE_WIDTH (R45), so the
word is a natural number whose binary digits are those bits. SEQ and ENV rows have no bits in the
table; their words hold the row's place among the rows of that format (assumption log 3). -/
structure OpWord where
  fmt : Format
  word : Nat
deriving DecidableEq, Repr

end Sys2Proof
end

