-- ==== Sys2Proof/WellFormed.lean ====
section
/-! DEFINITION. What a legal parameter set is (spec/00_scope.md R5, spec/40_segment_encoder.md R61), which
operations fit the machine's VALUE_WIDTH, and which raw words are words of their format
(spec/30_encoding.md R45 to R48, R52). -/
namespace Sys2Proof

/-- R61 (b): the ten patterns are pairwise distinct. -/
def Params.patternsDistinct (p : Params) : Bool :=
  decide p.segTable.toList.Nodup

/-- R61 (c): every entry has the decimal-point bit set, that is the point off. -/
def Params.pointsOff (p : Params) : Bool :=
  p.segTable.toList.all fun b => b.getLsbD p.dpBit.val

/-- R46: the eight lights of a digit are driven by eight different bits. -/
def Params.linesDistinct (p : Params) : Bool :=
  decide (p.dpBit :: p.segLine.toList).Nodup

/-- R61 (d), D10: the byte `b` lights exactly the segments of `shape`, written g..a from bit 6 down to
bit 0; a bit of 0 turns its segment on. -/
def Params.lights (p : Params) (b : Byte) (shape : BitVec 7) : Bool :=
  (List.finRange 7).all fun k => b.getLsbD p.segLine[k].val == !shape.getLsbD k.val

/-- R61 (e): the standard shapes of the ten digits, as lit segments g..a (R62, "active-high pattern").
R62 says that 6, 7 and 9 have other conventions too: the top bar of 6, the upper-left bar of 7 and
the bottom bar of 9 may each be the other way (assumption log 32). -/
def standardShapes : Vector (List (BitVec 7)) 10 :=
  #v[[0x3F], [0x06], [0x5B], [0x4F], [0x66], [0x6D], [0x7D, 0x7C], [0x07, 0x27], [0x7F], [0x6F, 0x67]]

/-- R61 (d), (e): every entry lights a standard shape of its digit, active-low. -/
def Params.shapesStandard (p : Params) : Bool :=
  (List.finRange 10).all fun d => standardShapes[d].any fun shape => p.lights p.segTable[d] shape

/-- R5: DWELL_CYCLES, DEBOUNCE_CYCLES and the clock rate are at least 1. -/
def Params.timesPositive (p : Params) : Bool :=
  decide (1 ≤ p.dwellCycles) && decide (1 ≤ p.debounceCycles) && decide (1 ≤ p.fClkHz)

/-- R5: VALUE_WIDTH bits hold 0..9999 and values above. -/
def Params.widthHoldsValues (p : Params) : Bool :=
  decide (10000 < 2 ^ p.valueWidth)

/-- A legal parameter set (R5, R61). R61 (a) holds of every table: it is a function of the digit. -/
def Params.wellFormed (p : Params) : Bool :=
  p.patternsDistinct && p.pointsOff && p.linesDistinct && p.shapesStandard && p.timesPositive &&
    p.widthHoldsValues

/-- An operation whose `value` fits `vw` bits (R45, R55). -/
def Instr.wellFormed (vw : Nat) (i : Instr) : Bool :=
  match i with
  | .render _ _ value => decide (value < 2 ^ vw)
  | .showclock _ value => decide (value < 2 ^ vw)
  | .showvolts value => decide (value < 2 ^ vw)
  | .encode0 _ => true
  | .encode1 _ => true
  | .encode2 _ => true
  | .encode3 _ => true
  | .encode4 _ => true
  | .encode5 _ => true
  | .encode6 _ => true
  | .encode7 _ => true
  | .encode8 _ => true
  | .encode9 _ => true
  | .digitsel0 => true
  | .digitsel1 => true
  | .digitsel2 => true
  | .digitsel3 => true
  | .writeframe _ _ => true
  | .shiftbyte _ => true
  | .shiftbit _ => true
  | .digit => true
  | .dwell => true
  | .dbsample => true
  | .dbwait => true
  | .tick => true
  | .clkreset => true
  | .vupdate => true
  | .modesel => true
  | .loop => true

/-- The seven low bits of the segment bytes of spec/opcode_table.json, digit 0 first: the column
`match` of the rows ENCODE.0 to ENCODE.9. -/
def segbPatterns : List (BitVec 7) :=
  [0x40, 0x79, 0x24, 0x30, 0x19, 0x12, 0x02, 0x78, 0x00, 0x10]

/-- The number of bits each format has (R45 to R48, R52), with VALUE_WIDTH = `vw`. SEQ and ENV have
none; their words hold a row number. -/
def Format.width (vw : Nat) : Format → Nat
  | .cmd => vw + 3
  | .showclock => vw + 3
  | .showvolts => vw + 3
  | .segb => 8
  | .selb => 8
  | .frame => 16
  | .byte => 8
  | .bit => 1
  | .seq => 2
  | .env => 3

/-- No bit is set above the format's width. -/
def OpWord.inWidth (vw : Nat) (w : OpWord) : Bool :=
  decide (w.word < 2 ^ w.fmt.width vw)

/-- The bits of a CMD word above `value`: `dp_en` in bit 2 and `dp_idx` in bits 1:0 (R45). -/
def cmdTop (vw w : Nat) : Nat := w / 2 ^ vw

/-- The fixed bits of the format are as the table's `match` and `mask` have them: SHOWCLOCK `dp_en`
clear, SHOWVOLTS `dp_en` set and `dp_idx` 1, SEGB one of the ten patterns, SELB one-hot in its low
four bits, ENV one of five rows. -/
def OpWord.fixedBits (vw : Nat) (w : OpWord) : Bool :=
  match w.fmt with
  | .showclock => decide (cmdTop vw w.word / 4 % 2 = 0)
  | .showvolts => decide (cmdTop vw w.word % 8 = 5)
  | .segb => segbPatterns.contains (BitVec.ofNat 7 w.word)
  | .selb => [1, 2, 4, 8].contains w.word
  | .env => decide (w.word < 5)
  | .cmd => true
  | .frame => true
  | .byte => true
  | .bit => true
  | .seq => true

/-- A raw word that is a word of its format, in a machine with VALUE_WIDTH = `vw`. -/
def OpWord.wellFormed (vw : Nat) (w : OpWord) : Bool :=
  w.inWidth vw && w.fixedBits vw

end Sys2Proof
end

