-- ==== Sys2Proof/Decode.lean ====
section
/-! DEFINITION. From requested words to operations and back (spec/30_encoding.md R45 to R48, R52,
spec/opcode_table.json). -/
namespace Sys2Proof

/-- Why a raw word is no word of its format. -/
inductive DecodeError where
  /-- A bit above the format's width is set. -/
  | reservedBits (fmt : Format)
  /-- A SHOWCLOCK word has `dp_en = 0` (R59). -/
  | notShowClock
  /-- A SHOWVOLTS word has `dp_en = 1` and `dp_idx = 1` (R59). -/
  | notShowVolts
  /-- The byte is none of the twenty of ENCODE (R60). -/
  | notASegmentByte
  /-- The byte is none of the four of DIGITSEL (R56, R77). -/
  | notOneHot
  /-- There is no such row of format ENV. -/
  | noSuchEnvironmentRow
deriving DecidableEq, Repr

/-- The SEGB byte whose low seven bits are `low`: which digit's row it is, with `s` the bit above
them. -/
def decodeSegment (low : BitVec 7) (s : Bool) : Except DecodeError Instr :=
  if low = 0x40 then .ok (.encode0 s)
  else if low = 0x79 then .ok (.encode1 s)
  else if low = 0x24 then .ok (.encode2 s)
  else if low = 0x30 then .ok (.encode3 s)
  else if low = 0x19 then .ok (.encode4 s)
  else if low = 0x12 then .ok (.encode5 s)
  else if low = 0x02 then .ok (.encode6 s)
  else if low = 0x78 then .ok (.encode7 s)
  else if low = 0x00 then .ok (.encode8 s)
  else if low = 0x10 then .ok (.encode9 s)
  else .error .notASegmentByte

/-- The SELB byte of a position (R77, rows DIGITSEL.0 to DIGITSEL.3). -/
def decodeSelect (b : Nat) : Except DecodeError Instr :=
  if b = 0x01 then .ok .digitsel0
  else if b = 0x02 then .ok .digitsel1
  else if b = 0x04 then .ok .digitsel2
  else if b = 0x08 then .ok .digitsel3
  else .error .notOneHot

/-- The rows of format SEQ, in the table's order. -/
def decodeSeq (k : Nat) : Instr :=
  if k = 0 then .digit else if k = 1 then .dwell else if k = 2 then .dbsample else .dbwait

/-- The rows of format ENV, in the table's order. -/
def decodeEnv (k : Nat) : Except DecodeError Instr :=
  if k = 0 then .ok .tick
  else if k = 1 then .ok .clkreset
  else if k = 2 then .ok .vupdate
  else if k = 3 then .ok .modesel
  else if k = 4 then .ok .loop
  else .error .noSuchEnvironmentRow

/-- The field `dp_en` of a CMD word (R45). -/
def cmdDpEn (vw w : Nat) : Bool := decide (cmdTop vw w / 4 % 2 = 1)

/-- The field `dp_idx` of a CMD word (R45). -/
def cmdDpIdx (vw w : Nat) : Position := BitVec.ofNat 2 (cmdTop vw w)

/-- The field `value` of a CMD word (R45). -/
def cmdValue (vw w : Nat) : Nat := w % 2 ^ vw

/-- The word of a format, its reserved bits already checked. -/
def decodeBits (vw : Nat) (fmt : Format) (w : Nat) : Except DecodeError Instr :=
  match fmt with
  | .cmd => .ok (.render (cmdDpEn vw w) (cmdDpIdx vw w) (cmdValue vw w))
  | .showclock =>
      if cmdDpEn vw w then .error .notShowClock
      else .ok (.showclock (cmdDpIdx vw w) (cmdValue vw w))
  | .showvolts =>
      if cmdDpEn vw w ∧ cmdDpIdx vw w = 1 then .ok (.showvolts (cmdValue vw w))
      else .error .notShowVolts
  | .segb => decodeSegment (BitVec.ofNat 7 w) (decide (w / 128 % 2 = 1))
  | .selb => decodeSelect w
  | .frame => .ok (.writeframe (BitVec.ofNat 8 (w / 256)) (BitVec.ofNat 8 w))
  | .byte => .ok (.shiftbyte (BitVec.ofNat 8 w))
  | .bit => .ok (.shiftbit (decide (w % 2 = 1)))
  | .seq => .ok (decodeSeq w)
  | .env => decodeEnv w

/-- The operation a requested word stands for in a machine with VALUE_WIDTH = `vw`, or the reason it
stands for none. -/
def decode (vw : Nat) (w : OpWord) : Except DecodeError Instr :=
  if w.word < 2 ^ w.fmt.width vw then decodeBits vw w.fmt w.word
  else .error (.reservedBits w.fmt)

/-- A CMD word: `value` in the low `vw` bits, `dp_idx` in the two bits above, `dp_en` above them
(R45). -/
def cmdWord (vw : Nat) (dpEn : Bool) (dpIdx : Position) (value : Nat) : Nat :=
  value + 2 ^ vw * (dpIdx.toNat + 4 * dpEn.toNat)

/-- A SEGB word: `s` in bit 7 above the row's seven fixed bits (R46). -/
def segbWord (s : Bool) (low : BitVec 7) : Nat :=
  low.toNat + 128 * s.toNat

/-- The words of an operation in a machine with VALUE_WIDTH = `vw`, from the same table. -/
def encode (vw : Nat) : Instr → OpWord
  | .render dpEn dpIdx value => ⟨.cmd, cmdWord vw dpEn dpIdx value⟩
  | .showclock dpIdx value => ⟨.showclock, cmdWord vw false dpIdx value⟩
  | .showvolts value => ⟨.showvolts, cmdWord vw true 1 value⟩
  | .encode0 s => ⟨.segb, segbWord s 0x40⟩
  | .encode1 s => ⟨.segb, segbWord s 0x79⟩
  | .encode2 s => ⟨.segb, segbWord s 0x24⟩
  | .encode3 s => ⟨.segb, segbWord s 0x30⟩
  | .encode4 s => ⟨.segb, segbWord s 0x19⟩
  | .encode5 s => ⟨.segb, segbWord s 0x12⟩
  | .encode6 s => ⟨.segb, segbWord s 0x02⟩
  | .encode7 s => ⟨.segb, segbWord s 0x78⟩
  | .encode8 s => ⟨.segb, segbWord s 0x00⟩
  | .encode9 s => ⟨.segb, segbWord s 0x10⟩
  | .digitsel0 => ⟨.selb, 0x01⟩
  | .digitsel1 => ⟨.selb, 0x02⟩
  | .digitsel2 => ⟨.selb, 0x04⟩
  | .digitsel3 => ⟨.selb, 0x08⟩
  | .writeframe seg sel => ⟨.frame, 256 * seg.toNat + sel.toNat⟩
  | .shiftbyte byte => ⟨.byte, byte.toNat⟩
  | .shiftbit bit => ⟨.bit, bit.toNat⟩
  | .digit => ⟨.seq, 0⟩
  | .dwell => ⟨.seq, 1⟩
  | .dbsample => ⟨.seq, 2⟩
  | .dbwait => ⟨.seq, 3⟩
  | .tick => ⟨.env, 0⟩
  | .clkreset => ⟨.env, 1⟩
  | .vupdate => ⟨.env, 2⟩
  | .modesel => ⟨.env, 3⟩
  | .loop => ⟨.env, 4⟩

/-- The row ENCODE.d of a digit. -/
def encodeRow (d : Digit) (pointOff : Bool) : Instr :=
  match d with
  | 0 => .encode0 pointOff
  | 1 => .encode1 pointOff
  | 2 => .encode2 pointOff
  | 3 => .encode3 pointOff
  | 4 => .encode4 pointOff
  | 5 => .encode5 pointOff
  | 6 => .encode6 pointOff
  | 7 => .encode7 pointOff
  | 8 => .encode8 pointOff
  | 9 => .encode9 pointOff

/-- The row DIGITSEL.p of a position. -/
def digitselRow (p : Position) : Instr :=
  if p = 0 then .digitsel0 else if p = 1 then .digitsel1 else if p = 2 then .digitsel2 else .digitsel3

/-- The format of a table word of which only the number of bits is known. Rows of the table overlap,
so the row with more fixed bits is taken (assumption log 4): among bytes SELB, then SEGB, then
BYTE; among CMD words, whose `vw + 3` bits come in whole bytes, SHOWCLOCK (`dp_en` clear), SHOWVOLTS
(`dp_en` set and `dp_idx` 1), then RENDER. A row of no bits is selected by no word (R52). -/
def tableFormat (vw nbits w : Nat) : Option Format :=
  if nbits = 0 then none
  else if nbits = 1 then some .bit
  else if nbits ≤ 8 then
    if w = 1 ∨ w = 2 ∨ w = 4 ∨ w = 8 then some .selb
    else if segbPatterns.contains (BitVec.ofNat 7 w) then some .segb
    else some .byte
  else if nbits ≤ 16 then some .frame
  else if nbits < vw + 3 + 8 then
    if cmdTop vw w / 4 % 2 = 0 then some .showclock
    else if cmdTop vw w % 8 = 5 then some .showvolts
    else some .cmd
  else none

/-- The request a table word makes. -/
def tableWord (vw nbits w : Nat) : Option OpWord := (tableFormat vw nbits w).map fun f => ⟨f, w⟩

/-- The VALUE_WIDTH the table is written for (R45: "19 with the default"). -/
def tableValueWidth : Nat := 16

/-- The operation the decoder reads from a table word. -/
def decodeTableWord (nbits w : Nat) : Option Instr :=
  match tableWord tableValueWidth nbits w with
  | none => none
  | some ow =>
      match decode tableValueWidth ow with
      | .ok i => some i
      | .error _ => none

end Sys2Proof
end

