-- ==== Sys2Proof/Machine/Defaults.lean ====
section
/-! DEFINITION. The default parameter values of spec/00_scope.md R5 and spec/40_segment_encoder.md R62. -/
namespace Sys2Proof.Machine

/-- The default SEG_TABLE (R5, R62; from general knowledge, G1, assumption log 23). -/
def defaultSegTable : Vector Byte 10 :=
  #v[0xC0, 0xF9, 0xA4, 0xB0, 0x99, 0x92, 0x82, 0xF8, 0x80, 0x90]

/-- The default parameters (R5). The two orders at the end are not in the spec (assumption log 14). -/
def defaultParams : Params where
  segTable := defaultSegTable
  segLine := #v[0, 1, 2, 3, 4, 5, 6]
  dpBit := 7
  valueWidth := 16
  fClkHz := 1000000
  dwellCycles := 2000
  debounceCycles := 200000
  fullScale := 33 / 10
  resetAtomic := true
  resetMinutesFirst := true
  readMinutesFirst := true

end Sys2Proof.Machine
end

