-- ==== Sys2Proof/Machine/State.lean ====
section
/-! DEFINITION. The machine's state as plain data, and the state right after reset
(spec/10_state.md R11 to R26). -/
namespace Sys2Proof.Machine

/-- What the sequencer does at the next edge (R11). -/
inductive Phase where
  | idle
  | latchLo
  | bitData
  | bitClkHi
  | bitClkLo
  | latchHi
  | dwell
deriving DecidableEq, Repr

/-- The registers of the display multiplexer: position (R11), data (R12), pins (R13), `done` (R14). -/
structure Display where
  phase : Phase
  pos : Position
  bitcnt : BitVec 4
  valQ : Nat
  dpEnQ : Bool
  dpIdxQ : Position
  frame : Word
  dwellCnt : Nat
  latch : Bool
  sclk : Bool
  sdata : Bool
  done : Bool
deriving DecidableEq, Repr

/-- The display controller behind the pins (R19, R33): the shift chain and the output latch. `out`
is the space DISP (R31). -/
structure Receiver where
  sr : Word
  out : Word
deriving DecidableEq, Repr

/-- `db_phase` (R18). -/
inductive DbPhase where
  | ready
  | block
deriving DecidableEq, Repr

/-- The registers of the ResetDebouncer (R18). -/
structure Debouncer where
  phase : DbPhase
  cnt : Nat
  clkReset : Bool
  dbPass : Bool
deriving DecidableEq, Repr

/-- ClockCounter (R20): `seconds` in [0, 60), `minutes` in [0, 100). -/
structure Clock where
  seconds : Fin 60
  minutes : Fin 100
deriving DecidableEq, Repr

/-- VoltageTracker (R21) and the voltage last computed (R103), in volts (assumption log 15). -/
structure Tracker where
  minObserved : Rat
  maxObserved : Rat
  currentVoltage : Rat
deriving DecidableEq, Repr

/-- The operands of a RENDER as presented on the command port (R10, R45). -/
structure Cmd where
  dpEn : Bool
  dpIdx : Position
  value : Nat
deriving DecidableEq, Repr

/-- Where a TICK falls against a pair of main-loop actions on the clock (R101, R109, R123). -/
inductive TickPoint where
  | never
  | before
  | between
  | after
deriving DecidableEq, Repr

/-- The free inputs (R10, R17, R27, R129). -/
structure Inputs where
  rst : Bool
  cmdValid : Bool
  cmd : Cmd
  sampleEn : Bool
  /-- `btn_n`, level 0 = pressed (R17, R98). -/
  btnN : Bool
  /-- The mode-select button, level 0 = pressed (R98, R105). -/
  modeN : Bool
  /-- The normalized analog sample (R103, R129). -/
  sample : Rat
  /-- Where a TICK falls against the two writes of CLKRESET (R101). -/
  tickReset : TickPoint
  /-- Where a TICK falls against the two clock reads of MODESEL (R109). -/
  tickRead : TickPoint
  /-- ENV_LOOP_OVERHEAD of the iteration that leaves step 1 now (R5, R106). -/
  overhead : Nat
deriving DecidableEq, Repr

/-- Inputs at rest: no request, buttons at their idle level 1 (R98). -/
def Inputs.quiet : Inputs where
  rst := false
  cmdValid := false
  cmd := ⟨false, 0, 0⟩
  sampleEn := false
  btnN := true
  modeN := true
  sample := 0
  tickReset := .never
  tickRead := .never
  overhead := 0

/-- Where the main loop stands in the handshake of R107 (`44_environment.md`). -/
inductive HostPhase where
  /-- Another host drives the ports, through `inp`. -/
  | off
  /-- About to raise `sample_en` (step 1). -/
  | step1
  /-- Waiting for `db_pass` (step 1). -/
  | waitPass
  /-- Loop overhead still to spend before steps 2 and 3 (ENV_LOOP_OVERHEAD, R106). -/
  | work (left : Nat)
  /-- Holding `cmd_valid` with these operands (step 3). -/
  | present (cmd : Cmd)
  /-- Waiting for `done` (step 4). -/
  | waitDone
deriving DecidableEq, Repr

/-- The three output lines (R13). -/
inductive Pin where
  | latch
  | sclk
  | sdata
deriving DecidableEq, Repr

/-- What is observed on the wire (R8, R58, D25): pin-write events, waits, and reset edges. -/
inductive WireEvent where
  | pin (line : Pin) (level : Bool)
  | wait (cycles : Nat)
  | reset
deriving DecidableEq, Repr

/-- The whole machine: the block, the optional debouncer, the display controller, the surroundings. -/
structure State where
  /-- The build-time parameters (R5, R27); no step writes them (assumption log 1). -/
  params : Params
  disp : Display
  recv : Receiver
  deb : Debouncer
  clock : Clock
  volt : Tracker
  host : HostPhase
  /-- Clock cycles to the next TICK of the periodic source (R112, R128; assumption log 13). -/
  tickIn : Nat
  /-- The input levels at the next edge (assumption log 10). -/
  inp : Inputs
  /-- The input levels at the edges after it, in time order (R58; assumption log 10). -/
  script : List Inputs
  /-- The requested operations, in order (R58; assumption log 3). -/
  pending : List OpWord
  /-- The value the last combinational operation returned (R60, R76, R77; assumption log 7). -/
  result : Byte
  /-- The events on the wire so far, the latest first (R58, D25; assumption log 8). -/
  wire : List WireEvent
deriving DecidableEq, Repr

/-- How the machine can fault: in no way. "The block raises no exception, fault or error, ever"
(`60_exceptions.md` R120; assumption log 30). -/
inductive Fault where
deriving DecidableEq, Repr

/-- How a step can be refused. -/
inductive Refusal where
  /-- An operation of the table that has no meaning yet; raised by an arm of Dispatch.lean only. Safe. -/
  | notModelled (mnemonic : String)
  /-- The requested word is no word of its format; raised by Step.lean only. Safe: no port of the
  hardware carries such a word (R57; assumption log 28). -/
  | undecodable (why : DecodeError)
deriving DecidableEq, Repr

/-- The display multiplexer after a reset edge (R24, R140). -/
def Display.reset : Display where
  phase := .idle
  pos := 0
  bitcnt := 0
  valQ := 0
  dpEnQ := false
  dpIdxQ := 0
  frame := 0
  dwellCnt := 0
  latch := true
  sclk := false
  sdata := false
  done := false

/-- The debouncer after a reset edge (R25, R140). -/
def Debouncer.reset : Debouncer where
  phase := .ready
  cnt := 0
  clkReset := false
  dbPass := false

/-- The machine right after reset (R24 to R26, R141, R143). `recv` is "any value" in the spec
(R26; assumption log 9); `currentVoltage`, `host`, `tickIn`, `inp` and `result` are the model's
choice (assumption logs 15, 11, 13, 10, 7). -/
def State.reset : State where
  params := defaultParams
  disp := Display.reset
  recv := ⟨0, 0⟩
  deb := Debouncer.reset
  clock := ⟨0, 0⟩
  volt := ⟨defaultParams.fullScale, 0, 0⟩
  host := .step1
  tickIn := defaultParams.fClkHz
  inp := Inputs.quiet
  script := []
  pending := []
  result := 0
  wire := []

end Sys2Proof.Machine
end

