-- ==== Sys2Proof/Machine/Flags.lean ====
section
/-! DEFINITION. The status outputs, which are functions of the state (spec/10_state.md R14, R18), and
the conditions under which the two units take a request. -/
namespace Sys2Proof.Machine

/-- `busy` (R14). -/
def State.busy (s : State) : Bool := decide (s.disp.phase ≠ .idle)

/-- `cmd_ready` (R14). -/
def State.cmdReady (s : State) : Bool := decide (s.disp.phase = .idle)

/-- `db_busy` (R18, R95). -/
def State.dbBusy (s : State) : Bool := decide (s.deb.phase = .block)

/-- `pressed = (level = 0)`, both buttons (R22, R98). -/
def pressed (level : Bool) : Bool := !level

/-- The display unit takes a request: `phase = IDLE` and `rst = 0` (R10, R82). -/
def State.displayFree (s : State) : Bool := s.cmdReady && !s.inp.rst

/-- The debouncer takes a sample: `db_phase = DB_READY` and `rst = 0` (R91). -/
def State.samplerFree (s : State) : Bool := decide (s.deb.phase = .ready) && !s.inp.rst

/-- The main loop may go on: it never presents a command while `db_busy`, nor samples while `busy`
(R107). -/
def State.hostMayProceed (s : State) : Bool := s.displayFree && s.samplerFree

end Sys2Proof.Machine
end

