-- ==== Sys2Proof/Machine/Operands.lean ====
section
/-! DEFINITION. Operand assembly: digits, decimal point, select byte, frame (spec/30_encoding.md R49 to
R51), the table read (R60), and the two values the main loop forms (R59, R105). -/
namespace Sys2Proof.Machine

/-- MemRead(SEG, d, 1) (R8, R30): one byte of the segment table. -/
def memReadSeg (p : Params) (d : Digit) : Byte := p.segTable[d.val]

/-- ENCODE(d, showDecimal) (R60). -/
def encodeDigit (p : Params) (d : Digit) (showDecimal : Bool) : Byte :=
  if showDecimal then memReadSeg p d &&& ~~~(1#8 <<< p.dpBit.val) else memReadSeg p d

/-- DIGIT(v, p) (R49, R76). -/
def digitAt (v : Nat) (p : Position) : Digit :=
  ⟨v / 10 ^ (3 - p.toNat) % 10, Nat.mod_lt _ (by decide)⟩

/-- DIGITSEL(p) (R77). -/
def digitSel (p : Position) : Byte := 1#8 <<< p.toNat

/-- showDecimal[p] (R50, R54, R78). -/
def showDecimal (dpEn : Bool) (dpIdx p : Position) : Bool := dpEn && dpIdx == p

/-- The frame of position `p` (R51). -/
def frameWord (ps : Params) (c : Cmd) (p : Position) : Word :=
  encodeDigit ps (digitAt c.value p) (showDecimal c.dpEn c.dpIdx p) ++ digitSel p

/-- A command on the port: of `value` only the VALUE_WIDTH lines of the port exist (R10). -/
def Cmd.onPort (c : Cmd) (vw : Nat) : Cmd := { c with value := c.value % 2 ^ vw }

/-- The operands of the render in progress (R12). -/
def Display.latched (d : Display) : Cmd := ⟨d.dpEnQ, d.dpIdxQ, d.valQ⟩

/-- `round` (R105): the nearest integer; a tie is a free value (ENV_ROUND, assumption log 16). -/
def roundNearest (x : Rat) : Int :=
  if x - x.floor < 1 / 2 then x.floor
  else if 1 / 2 < x - x.floor then x.floor + 1
  else if Config.roundTieUp x then x.floor + 1
  else x.floor

/-- An integer as the unsigned `value` operand of `vw` bits (R5, D4). If they cannot hold it the spec
states no result (assumption log 16). -/
def valueOperand (vw : Nat) (n : Int) : Nat :=
  if 0 ≤ n ∧ n < 2 ^ vw then n.toNat else Config.unrepresentableValue vw n % 2 ^ vw

/-- The operands of SHOWVOLTS (R59, R105): `round(currentVoltage * 100)`, decimal point at 1. -/
def voltsCmd (vw : Nat) (currentVoltage : Rat) : Cmd :=
  ⟨true, 1, valueOperand vw (roundNearest (currentVoltage * 100))⟩

/-- The operands of SHOWCLOCK (R59, R105): `minutes * 100 + seconds`, no decimal point. The spec does not
say which `cmd_dp_idx` goes with `cmd_dp_en = 0`, only that it is ignored (R54): DESIGN CHOICE 0,
assumption log 33. -/
def clockCmd (minutes : Fin 100) (seconds : Fin 60) : Cmd :=
  ⟨false, 0, minutes.val * 100 + seconds.val⟩

end Sys2Proof.Machine
end

