-- ==== Sys2Proof/Machine/Ops.lean ====
section
/-! DEFINITION. The shared operations on the state: pin-write events and what the display controller
makes of them (spec/00_scope.md R8, spec/20_memory.md R32 to R35), waits, the reset edge
(spec/70_reset_and_hazards.md R140, R142), and moving on to the next inputs. There is no exception
to take and none to return from (spec/60_exceptions.md R120, R124, R125). -/
namespace Sys2Proof.Machine

/-- `pin(line) <- level` on the pin registers alone (R8, R13). -/
def Display.setPin (d : Display) (line : Pin) (level : Bool) : Display :=
  match line with
  | .latch => { d with latch := level }
  | .sclk => { d with sclk := level }
  | .sdata => { d with sdata := level }

/-- The display controller sees the pins go from `old` to `new` (R33): it shifts at a rising `sclk`
and commits at a rising `latch`, which is MemWrite(DISP, 0, 2, sr) (R8, R32). -/
def Receiver.observe (r : Receiver) (old new : Display) : Receiver :=
  let sr := if !old.sclk && new.sclk then (r.sr.setWidth 15).concat new.sdata else r.sr
  { sr := sr, out := if !old.latch && new.latch then sr else r.out }

/-- A pin-write event (R8, R40): the pin, the display controller, the record of the wire. -/
def State.pinWrite (s : State) (line : Pin) (level : Bool) : State :=
  { s with
    disp := s.disp.setPin line level
    recv := s.recv.observe s.disp (s.disp.setPin line level)
    wire := .pin line level :: s.wire }

/-- Adds a wait to the record of the wire; two waits in a row are one. -/
def addWait (n : Nat) (w : List WireEvent) : List WireEvent :=
  match w with
  | .wait k :: rest => .wait (k + n) :: rest
  | rest => .wait n :: rest

/-- `wait(n)` (R8): no pin-write event for `n` clock cycles. -/
def State.holdWire (s : State) (n : Nat) : State := { s with wire := addWait n s.wire }

/-- The reset edge of both blocks (R140). The pins jump to their reset levels and the display
controller sees them do so (R36, R142). -/
def State.resetBlocks (s : State) : State :=
  { s with
    disp := Display.reset
    recv := s.recv.observe s.disp Display.reset
    deb := Debouncer.reset
    wire := .reset :: s.wire }

/-- The inputs of the next edge; with no more of them given, the levels stay (assumption log 10). -/
def State.advanceInputs (s : State) : State :=
  match s.script with
  | [] => s
  | i :: rest => { s with inp := i, script := rest }

end Sys2Proof.Machine
end

