-- ==== Sys2Proof/Machine/Sampler.lean ====
section
/-! DEFINITION. The reset debouncer (spec/43_button_debouncer.md R91, R92, R94). -/
namespace Sys2Proof.Machine

/-- `clk_reset <- 0` and `db_pass <- 0`, the start of every edge (R94). -/
def Debouncer.clearPulses (d : Debouncer) : Debouncer := { d with clkReset := false, dbPass := false }

/-- DBSAMPLE (R91). -/
def Debouncer.sample (d : Debouncer) (ps : Params) (btnN : Bool) : Debouncer :=
  if pressed btnN then { d with clkReset := true, cnt := ps.debounceCycles, phase := .block }
  else { d with dbPass := true }

/-- DBWAIT (R92). -/
def Debouncer.wait (d : Debouncer) : Debouncer :=
  if 1 < d.cnt then { d with cnt := d.cnt - 1 } else { d with phase := .ready, dbPass := true }

/-- One edge of the debouncer with `rst = 0` (R94). -/
def Debouncer.edge (d : Debouncer) (ps : Params) (sampleEn btnN : Bool) : Debouncer :=
  match d.phase with
  | .ready => if sampleEn then d.clearPulses.sample ps btnN else d.clearPulses
  | .block => d.clearPulses.wait

end Sys2Proof.Machine
end

