-- ==== Sys2Proof/Machine/Sequencer.lean ====
section
/-! DEFINITION. The display sequencer: command acceptance (spec/42_display_multiplexer.md R82) and one
clock edge (R83). -/
namespace Sys2Proof.Machine

/-- Command acceptance (R82). `done` falls, as at every edge that does not end a render (R85). -/
def State.accept (s : State) (c : Cmd) : State :=
  { s with disp := { s.disp with
      valQ := c.value
      dpEnQ := c.dpEn
      dpIdxQ := c.dpIdx
      pos := 0
      frame := frameWord s.params c 0
      phase := .latchLo
      done := false } }

/-- The last edge of a dwell (R83): the render ends after position 3, else the next position's
frame is loaded. -/
def State.leaveDwell (s : State) : State :=
  if s.disp.pos = 3 then { s with disp := { s.disp with phase := .idle, done := true } }
  else { s with disp := { s.disp with
      pos := s.disp.pos + 1
      frame := frameWord s.params s.disp.latched (s.disp.pos + 1)
      phase := .latchLo
      done := false } }

/-- Moves the sequencer on. -/
def State.goto (s : State) (ph : Phase) : State := { s with disp := { s.disp with phase := ph } }

/-- `done` is 0 after every edge but the one that ends a render (R14, R85). -/
def State.clearDone (s : State) : State := { s with disp := { s.disp with done := false } }

/-- LATCH_LO (R83). -/
def State.edgeLatchLo (s : State) : State :=
  let t := s.pinWrite .latch false
  { t with disp := { t.disp with bitcnt := 0, phase := .bitData } }

/-- BIT_DATA (R83). -/
def State.edgeBitData (s : State) : State :=
  (s.pinWrite .sdata (s.disp.frame.getLsbD 15)).goto .bitClkHi

/-- BIT_CLK_HI (R83). -/
def State.edgeBitClkHi (s : State) : State := (s.pinWrite .sclk true).goto .bitClkLo

/-- BIT_CLK_LO (R83). -/
def State.edgeBitClkLo (s : State) : State :=
  let t := s.pinWrite .sclk false
  if s.disp.bitcnt = 15 then
    { t with disp := { t.disp with frame := t.disp.frame <<< 1, phase := .latchHi } }
  else
    { t with disp := { t.disp with
        frame := t.disp.frame <<< 1
        bitcnt := t.disp.bitcnt + 1
        phase := .bitData } }

/-- LATCH_HI (R83). -/
def State.edgeLatchHi (s : State) : State :=
  let t := s.pinWrite .latch true
  { t with disp := { t.disp with dwellCnt := s.params.dwellCycles, phase := .dwell } }

/-- DWELL (R83). -/
def State.edgeDwell (s : State) : State :=
  let t := s.holdWire 1
  if 1 < s.disp.dwellCnt then { t with disp := { t.disp with dwellCnt := s.disp.dwellCnt - 1 } }
  else t.leaveDwell

/-- One edge of the display sequencer with `rst = 0` (R82, R83): `cmd` is what the command port
presents, `none` when `cmd_valid = 0`. -/
def State.seqEdge (s : State) (cmd : Option Cmd) : State :=
  let t := s.clearDone
  match s.disp.phase with
  | .idle =>
      match cmd with
      | some c => t.accept c
      | none => t
  | .latchLo => t.edgeLatchLo
  | .bitData => t.edgeBitData
  | .bitClkHi => t.edgeBitClkHi
  | .bitClkLo => t.edgeBitClkLo
  | .latchHi => t.edgeLatchHi
  | .dwell => t.edgeDwell

end Sys2Proof.Machine
end

