-- ==== Sys2Proof/Machine/Surroundings.lean ====
section
/-! DEFINITION. The surroundings: clock counter, voltage tracker, what the main loop forms, and its
handshake with the blocks (spec/44_environment.md R100 to R112). -/
namespace Sys2Proof.Machine

/-- TICK (R100): one indivisible event. -/
def Clock.tick (c : Clock) : Clock :=
  if c.seconds = 59 then { seconds := 0, minutes := c.minutes + 1 }
  else { c with seconds := c.seconds + 1 }

/-- The first of CLKRESET's two writes (R101, C7). -/
def Clock.clearFirst (c : Clock) (minutesFirst : Bool) : Clock :=
  if minutesFirst then { c with minutes := 0 } else { c with seconds := 0 }

/-- The second of CLKRESET's two writes. -/
def Clock.clearSecond (c : Clock) (minutesFirst : Bool) : Clock :=
  if minutesFirst then { c with seconds := 0 } else { c with minutes := 0 }

/-- CLKRESET (R101): both fields to 0, with a TICK where `tickAt` puts one. With ENV_RESET_ATOMIC a TICK
cannot fall between the writes; a `between` is then a `before` (assumption log 14). -/
def Clock.clear (c : Clock) (ps : Params) (tickAt : TickPoint) : Clock :=
  match tickAt with
  | .never => ⟨0, 0⟩
  | .before => ⟨0, 0⟩
  | .between =>
      if ps.resetAtomic then ⟨0, 0⟩
      else ((c.clearFirst ps.resetMinutesFirst).tick).clearSecond ps.resetMinutesFirst
  | .after => (⟨0, 0⟩ : Clock).tick

/-- The clock after MODESEL's two reads (R109): a TICK fell at one of three places, or none did. -/
def Clock.afterRead (c : Clock) (tickAt : TickPoint) : Clock :=
  match tickAt with
  | .never => c
  | .before => c.tick
  | .between => c.tick
  | .after => c.tick

/-- What MODESEL's two reads return, minutes and seconds (R105, R109, U5). -/
def Clock.read (c : Clock) (ps : Params) (tickAt : TickPoint) : Fin 100 × Fin 60 :=
  match tickAt with
  | .never => (c.minutes, c.seconds)
  | .before => (c.tick.minutes, c.tick.seconds)
  | .between =>
      if ps.readMinutesFirst then (c.minutes, c.tick.seconds) else (c.tick.minutes, c.seconds)
  | .after => (c.minutes, c.seconds)

/-- VUPDATE(rawSample) (R103). -/
def Tracker.update (v : Tracker) (ps : Params) (rawSample : Rat) : Tracker :=
  let volts := rawSample * ps.fullScale
  { minObserved := min v.minObserved volts
    maxObserved := max v.maxObserved volts
    currentVoltage := volts }

/-- The command MODESEL issues (R105): SHOWVOLTS while the mode button reads pressed, else
SHOWCLOCK. -/
def modeCmd (ps : Params) (modeN : Bool) (volts : Rat) (c : Clock) (tickAt : TickPoint) : Cmd :=
  if pressed modeN then voltsCmd ps.valueWidth volts
  else clockCmd (c.read ps tickAt).1 (c.read ps tickAt).2

/-- What is driven into the two blocks at an edge: `sample_en`, and the command port when
`cmd_valid = 1`. -/
structure Drive where
  sampleEn : Bool
  cmd : Option Cmd
deriving DecidableEq, Repr

/-- What the ports carry when a request drives `r` and the host `d`: a requested command takes the command
port (DESIGN CHOICE, assumption log 5). -/
def Drive.over (r d : Drive) : Drive where
  sampleEn := r.sampleEn || d.sampleEn
  cmd :=
    match r.cmd with
    | some c => some c
    | none => d.cmd

/-- The host performs steps 2 and 3 at this edge: `db_pass` has come and the overhead is spent
(R107). -/
def State.hostForms (s : State) : Bool :=
  match s.host with
  | .waitPass => s.deb.dbPass && s.inp.overhead == 0
  | .work k => decide (k ≤ 1)
  | .off => false
  | .step1 => false
  | .present _ => false
  | .waitDone => false

/-- The periodic source fires at this edge (R112). -/
def State.tickFires (s : State) : Bool := decide (s.tickIn ≤ 1)

/-- Where this edge's TICK falls: nowhere if the source does not fire, and before the main loop's
action unless the inputs say otherwise. -/
def tickPoint (fires : Bool) (wanted : TickPoint) : TickPoint :=
  if fires then (if wanted = .never then .before else wanted) else .never

/-- The clock once this clock edge's CLKRESET, if any, is over, with its TICK where the inputs put one:
CLKRESET fires at the edge that sees `clk_reset` (R101, R107; assumption log 22). -/
def State.clockAfterReset (s : State) : Clock :=
  if s.deb.clkReset then s.clock.clear s.params (tickPoint s.tickFires s.inp.tickReset) else s.clock

/-- The TICK this edge has left for the main loop's reads, CLKRESET not having taken it. -/
def State.readTick (s : State) : TickPoint :=
  tickPoint (s.tickFires && !s.deb.clkReset) s.inp.tickRead

/-- The voltage tracker after this edge (R103, R107 step 2). -/
def State.voltAfter (s : State) : Tracker :=
  if s.hostForms then s.volt.update s.params s.inp.sample else s.volt

/-- The command steps 2 and 3 form at this edge (R105, R107). -/
def State.formedCmd (s : State) : Cmd :=
  modeCmd s.params s.inp.modeN s.voltAfter.currentVoltage s.clockAfterReset s.readTick

/-- What is driven into the two blocks at this edge: by the main loop (R107) or, when it is off, by
the inputs. -/
def State.drive (s : State) : Drive :=
  match s.host with
  | .off => ⟨s.inp.sampleEn, if s.inp.cmdValid then some (s.inp.cmd.onPort s.params.valueWidth) else none⟩
  | .step1 => ⟨true, none⟩
  | .waitPass => ⟨false, if s.hostForms then some s.formedCmd else none⟩
  | .work _ => ⟨false, if s.hostForms then some s.formedCmd else none⟩
  | .present c => ⟨false, some c⟩
  | .waitDone => ⟨s.disp.done, none⟩

/-- Where the main loop stands once it has presented `c`: it holds the command until an edge at
which `cmd_ready = 1` (R107 step 3) and the port carries it, `mine`. -/
def State.presented (s : State) (mine : Bool) (c : Cmd) : HostPhase :=
  if mine && s.cmdReady then .waitDone else .present c

/-- Where the main loop stands after this edge (R107). -/
def State.hostAfter (s : State) (mine : Bool) : HostPhase :=
  match s.host with
  | .off => .off
  | .step1 => .waitPass
  | .waitPass =>
      if s.hostForms then s.presented mine s.formedCmd
      else if s.deb.dbPass then .work s.inp.overhead
      else .waitPass
  | .work k => if s.hostForms then s.presented mine s.formedCmd else .work (k - 1)
  | .present c => s.presented mine c
  | .waitDone => if s.disp.done then .waitPass else .waitDone

/-- The surroundings after one clock edge: clock, tracker, main loop, periodic source. `mine` says that no
request has taken the command port from the main loop. -/
def State.edgeSurroundings (s : State) (mine : Bool) : State :=
  { s with
    clock := s.clockAfterReset.afterRead s.readTick
    volt := s.voltAfter
    host := s.hostAfter mine
    tickIn := if s.tickFires then s.params.fClkHz else s.tickIn - 1 }

end Sys2Proof.Machine
end

