-- ==== Sys2Proof/Machine/Edge.lean ====
section
/-! DEFINITION. One clock edge of the whole system: every agent of spec/60_exceptions.md R130, with the
precedence of R123; and runs of edges, which is what the operations that take time are. -/
namespace Sys2Proof.Machine

/-- One clock edge (R83, R94, R107, R112, R123, R140) at which a request drives `r` beside what the host
drives. All agents see the registers as they were before the edge; `rst = 1` overrides both blocks
and leaves the surroundings alone. -/
def State.clockEdgeWith (s : State) (r : Drive) : State :=
  let t := s.edgeSurroundings r.cmd.isNone
  let d := r.over s.drive
  if s.inp.rst then t.resetBlocks
  else
    { t.seqEdge d.cmd with
      deb := s.deb.edge s.params d.sampleEn s.inp.btnN }

/-- One clock edge at which no request drives a port. -/
def State.clockEdge (s : State) : State := s.clockEdgeWith ⟨false, none⟩

/-- One clock edge, after which the inputs move on (assumption log 10). -/
def State.nextEdge (s : State) : State := s.clockEdge.advanceInputs

/-- `k` clock edges in a row. -/
def State.edges (s : State) : Nat → State
  | 0 => s
  | k + 1 => (s.edges k).nextEdge

/-- `k` clock edges in a row, or fewer: the first reset edge among them is the last (assumption log
10). -/
def State.run (s : State) : Nat → State
  | 0 => s
  | k + 1 => if s.inp.rst then s.nextEdge else s.nextEdge.run k

/-- Clock edges of a RENDER after the one that accepts it (R84, R156). -/
def renderCycles (ps : Params) : Nat := 4 * (50 + ps.dwellCycles)

/-- RENDER from the accepting edge to the edge that ends it (R82 to R84): the command is presented for
one edge. -/
def State.runRender (s : State) (c : Cmd) : State :=
  (s.clockEdgeWith ⟨false, some c⟩).advanceInputs.run (renderCycles s.params)

/-- `n` clock edges of the whole machine with the display unit set to `d`, and its sequencer then back in
IDLE: how an operation of the display unit that is no RENDER runs. In a phase `d.phase` other than IDLE
the display is busy, so no command is accepted meanwhile (R71, R79, R82). -/
def State.runDisplay (s : State) (d : Display) (n : Nat) : State :=
  let t := { s with disp := d }.run n
  { t with disp := { t.disp with phase := .idle } }

/-- A requested operation that its unit does not take now, and that leaves no trace (R82, R94): the
step is an ordinary clock edge (assumption log 6). -/
def turnedAway (s : State) : Host.Outcome State Fault Refusal := .next s.nextEdge

/-- A blocking operation of the main loop that cannot go on yet (R107): a clock edge passes and the
operation stays requested (assumption log 19). -/
def stalled (i : Instr) (s : State) : Host.Outcome State Fault Refusal :=
  .next { s with pending := encode s.params.valueWidth i :: s.pending }.nextEdge

/-- Runs `f` if the display unit is free, else the operation is turned away. -/
def ifDisplayFree (s : State) (f : State → State) : Host.Outcome State Fault Refusal :=
  if s.displayFree then .next (f s) else turnedAway s

end Sys2Proof.Machine
end

