-- ==== Sys2Proof/Machine/ButtonDebouncer.lean ====
section
/-! DEFINITION. ResetDebouncer operations (spec/43_button_debouncer.md R91, R92, R94). -/
namespace Sys2Proof.Machine

/-- DBSAMPLE (R91): one clock edge with `sample_en = 1`, operand `btn_n` of the inputs. It is ignored while
the debouncer blocks (R94). -/
def execDbsample (s : State) : Host.Outcome State Fault Refusal :=
  .next (s.clockEdgeWith ⟨true, none⟩).advanceInputs

/-- DBWAIT (R92): one clock edge. It fires at every edge with `rst = 0` in DB_BLOCK and at no other
(assumption log 20). -/
def execDbwait (s : State) : Host.Outcome State Fault Refusal := .next s.nextEdge

end Sys2Proof.Machine
end

