-- ==== Sys2Proof/Machine/Driver.lean ====
section
/-! DEFINITION. ShiftRegisterDriver operations (spec/41_shift_register_driver.md R65 to R67, R70, R71).
Each is the run of the sequencer's phases that select it (spec/30_encoding.md R52), one pin-write
event per clock edge (R70, R156). While a render holds the driver they cannot overlap it and are
turned away: DESIGN CHOICE, assumption log 6. -/
namespace Sys2Proof.Machine

/-- `n` clock edges of the sequencer from phase `ph`, with the bits `bits` in `frame` for the driver to
send, and back to IDLE. -/
def State.drivePins (s : State) (ph : Phase) (bits : Word) (n : Nat) : State :=
  s.runDisplay { s.disp with phase := ph, frame := bits, bitcnt := 0 } n

/-- SHIFTBIT(b) (R65): BIT_DATA, BIT_CLK_HI, BIT_CLK_LO. -/
def execShiftbit (bit : Bool) (s : State) : Host.Outcome State Fault Refusal :=
  ifDisplayFree s fun t => t.drivePins .bitData (BitVec.ofBool bit ++ 0#15) 3

/-- SHIFTBYTE(byte) (R66): eight SHIFTBITs. -/
def execShiftbyte (byte : Byte) (s : State) : Host.Outcome State Fault Refusal :=
  ifDisplayFree s fun t => t.drivePins .bitData (byte ++ 0#8) 24

/-- WRITEFRAME(seg, sel) (R67): LATCH_LO to LATCH_HI. -/
def execWriteframe (seg sel : Byte) (s : State) : Host.Outcome State Fault Refusal :=
  ifDisplayFree s fun t => t.drivePins .latchLo (seg ++ sel) 50

end Sys2Proof.Machine
end

