-- ==== Sys2Proof/Machine/Encoder.lean ====
section
/-! DEFINITION. SegmentEncoder (spec/40_segment_encoder.md R60) and the select bytes and digits of the
multiplexer (spec/42_display_multiplexer.md R76, R77): combinational operations, which return a value
and write no state of the hardware. -/
namespace Sys2Proof.Machine

/-- A combinational operation returns `b` (assumption log 7). -/
def State.returns (s : State) (b : Byte) : State := { s with result := b }

/-- ENCODE.0 (R60): `pointOff` is the table's `s`, the negation of `showDecimal`. -/
def execEncode0 (pointOff : Bool) (s : State) : Host.Outcome State Fault Refusal :=
  .next (s.returns (encodeDigit s.params 0 (!pointOff)))

/-- ENCODE.1 (R60): `pointOff` is the table's `s`, the negation of `showDecimal`. -/
def execEncode1 (pointOff : Bool) (s : State) : Host.Outcome State Fault Refusal :=
  .next (s.returns (encodeDigit s.params 1 (!pointOff)))

/-- ENCODE.2 (R60): `pointOff` is the table's `s`, the negation of `showDecimal`. -/
def execEncode2 (pointOff : Bool) (s : State) : Host.Outcome State Fault Refusal :=
  .next (s.returns (encodeDigit s.params 2 (!pointOff)))

/-- ENCODE.3 (R60): `pointOff` is the table's `s`, the negation of `showDecimal`. -/
def execEncode3 (pointOff : Bool) (s : State) : Host.Outcome State Fault Refusal :=
  .next (s.returns (encodeDigit s.params 3 (!pointOff)))

/-- ENCODE.4 (R60): `pointOff` is the table's `s`, the negation of `showDecimal`. -/
def execEncode4 (pointOff : Bool) (s : State) : Host.Outcome State Fault Refusal :=
  .next (s.returns (encodeDigit s.params 4 (!pointOff)))

/-- ENCODE.5 (R60): `pointOff` is the table's `s`, the negation of `showDecimal`. -/
def execEncode5 (pointOff : Bool) (s : State) : Host.Outcome State Fault Refusal :=
  .next (s.returns (encodeDigit s.params 5 (!pointOff)))

/-- ENCODE.6 (R60): `pointOff` is the table's `s`, the negation of `showDecimal`. -/
def execEncode6 (pointOff : Bool) (s : State) : Host.Outcome State Fault Refusal :=
  .next (s.returns (encodeDigit s.params 6 (!pointOff)))

/-- ENCODE.7 (R60): `pointOff` is the table's `s`, the negation of `showDecimal`. -/
def execEncode7 (pointOff : Bool) (s : State) : Host.Outcome State Fault Refusal :=
  .next (s.returns (encodeDigit s.params 7 (!pointOff)))

/-- ENCODE.8 (R60): `pointOff` is the table's `s`, the negation of `showDecimal`. -/
def execEncode8 (pointOff : Bool) (s : State) : Host.Outcome State Fault Refusal :=
  .next (s.returns (encodeDigit s.params 8 (!pointOff)))

/-- ENCODE.9 (R60): `pointOff` is the table's `s`, the negation of `showDecimal`. -/
def execEncode9 (pointOff : Bool) (s : State) : Host.Outcome State Fault Refusal :=
  .next (s.returns (encodeDigit s.params 9 (!pointOff)))

/-- DIGITSEL.0 (R77). -/
def execDigitsel0 (s : State) : Host.Outcome State Fault Refusal :=
  .next (s.returns (digitSel 0))

/-- DIGITSEL.1 (R77). -/
def execDigitsel1 (s : State) : Host.Outcome State Fault Refusal :=
  .next (s.returns (digitSel 1))

/-- DIGITSEL.2 (R77). -/
def execDigitsel2 (s : State) : Host.Outcome State Fault Refusal :=
  .next (s.returns (digitSel 2))

/-- DIGITSEL.3 (R77). -/
def execDigitsel3 (s : State) : Host.Outcome State Fault Refusal :=
  .next (s.returns (digitSel 3))

/-- DIGIT (R76) of `val_q` at `pos` (R52). -/
def execDigit (s : State) : Host.Outcome State Fault Refusal :=
  .next (s.returns (BitVec.ofNat 8 (digitAt s.disp.valQ s.disp.pos).val))

end Sys2Proof.Machine
end

