-- ==== Sys2Proof/Machine/Environment.lean ====
section
/-! DEFINITION. The operations of the surroundings (spec/44_environment.md R100 to R106). -/
namespace Sys2Proof.Machine

/-- TICK (R100): an event of the surroundings that takes no clock edge of the blocks (assumption log 5). -/
def execTick (s : State) : Host.Outcome State Fault Refusal :=
  .next { s with clock := s.clock.tick }

/-- CLKRESET (R101), with a TICK arriving meanwhile where the inputs put one. -/
def execClkreset (s : State) : Host.Outcome State Fault Refusal :=
  .next { s with clock := s.clock.clear s.params s.inp.tickReset }

/-- VUPDATE(rawSample) (R103): operand the analog sample of the inputs. -/
def execVupdate (s : State) : Host.Outcome State Fault Refusal :=
  .next { s with volt := s.volt.update s.params s.inp.sample }

/-- MODESEL's command at this edge (R105): what the mode button, the voltage and the clock reads give, the
reads falling against this edge's TICK and CLKRESET as the main loop's do. -/
def State.modeCmdNow (s : State) : Cmd :=
  modeCmd s.params s.inp.modeN s.volt.currentVoltage s.clockAfterReset s.readTick

/-- MODESEL (R105): one RENDER, waited for. The loop holds its command until the display unit is ready,
and presents none while the debouncer blocks (R107). -/
def execModesel (s : State) : Host.Outcome State Fault Refusal :=
  if s.hostMayProceed then .next (s.runRender s.modeCmdNow) else stalled .modesel s

/-- Step 1 of LOOP (R106): the main loop samples the reset button and, if it is pressed, the debounce
interval is waited out (R90, R92). -/
def State.loopStep1 (s : State) : State :=
  { s with host := .step1 }.nextEdge.run
    (if pressed s.inp.btnN then s.params.debounceCycles else 0)

/-- Steps 2 and 3 of LOOP (R106), once `db_pass` has come: the loop overhead, the edge at which the main
loop updates the tracker and presents its command, and the render. -/
def State.loopSteps23 (s : State) : State := s.run (s.inp.overhead + 1 + renderCycles s.params)

/-- One iteration of LOOP (R106), made of clock edges of the main loop as a host (R107). A reset edge in
step 1 ends it (assumption log 18). -/
def State.loopIteration (s : State) : State :=
  let t := s.loopStep1
  if t.deb.dbPass then t.loopSteps23 else t

/-- LOOP (R106): one iteration, and then LOOP again, "forever" (assumption log 18). -/
def execLoop (s : State) : Host.Outcome State Fault Refusal :=
  if s.hostMayProceed then
    .next { s.loopIteration with pending := encode s.params.valueWidth .loop :: s.pending }
  else stalled .loop s

end Sys2Proof.Machine
end

