-- ==== Sys2Proof/Machine/Multiplexer.lean ====
section
/-! DEFINITION. DisplayMultiplexer operations RENDER and DWELL (spec/42_display_multiplexer.md R75, R79,
R82) and the pseudo-operations of spec/30_encoding.md R59. -/
namespace Sys2Proof.Machine

/-- RENDER(value, dp) (R75): accepted and waited for. A command presented while `busy` is not accepted and
leaves no trace (R82). -/
def execRender (dpEn : Bool) (dpIdx : Position) (value : Nat) (s : State) :
    Host.Outcome State Fault Refusal :=
  ifDisplayFree s fun t => t.runRender ⟨dpEn, dpIdx, value⟩

/-- SHOWCLOCK (R59) is RENDER(value, none); the value is the one in the word (assumption log 17). -/
def execShowclock (dpIdx : Position) (value : Nat) (s : State) : Host.Outcome State Fault Refusal :=
  ifDisplayFree s fun t => t.runRender ⟨false, dpIdx, value⟩

/-- SHOWVOLTS (R59) is RENDER(value, 1); the value is the one in the word (assumption log 17). -/
def execShowvolts (value : Nat) (s : State) : Host.Outcome State Fault Refusal :=
  ifDisplayFree s fun t => t.runRender ⟨true, 1, value⟩

/-- DWELL on a free display unit (R79): DWELL_CYCLES clock edges in the phase DWELL, with no pin-write
event and no command accepted. `dwell_cnt` starts one above the count, so that the last edge leaves 1 in
it, as R83 does, and does not go on to a next position. -/
def State.dwellAlone (s : State) : State :=
  s.runDisplay { s.disp with phase := .dwell, dwellCnt := s.params.dwellCycles + 1 }
    s.params.dwellCycles

/-- DWELL (R79). In phase DWELL it is the rest of the dwell, after which the sequencer has gone on (R83);
on a free display unit it is a dwell of its own; else it is turned away. What a requested DWELL is in
each phase, and that the sequencer is back in IDLE after one of its own: DESIGN CHOICE, assumption
log 21. -/
def execDwell (s : State) : Host.Outcome State Fault Refusal :=
  if s.disp.phase = .dwell then .next (s.run (max s.disp.dwellCnt 1))
  else ifDisplayFree s State.dwellAlone

end Sys2Proof.Machine
end

