-- ==== Sys2Proof/Machine/Dispatch.lean ====
section
/-! DEFINITION. One arm per operation of spec/opcode_table.json. -/
namespace Sys2Proof.Machine

def exec (i : Instr) (s : State) : Host.Outcome State Fault Refusal :=
  match i with
  | .render dpEn dpIdx value => Sys2Proof.Machine.execRender dpEn dpIdx value s
  | .showclock dpIdx value => Sys2Proof.Machine.execShowclock dpIdx value s
  | .showvolts value => Sys2Proof.Machine.execShowvolts value s
  | .encode0 pointOff => Sys2Proof.Machine.execEncode0 pointOff s
  | .encode1 pointOff => Sys2Proof.Machine.execEncode1 pointOff s
  | .encode2 pointOff => Sys2Proof.Machine.execEncode2 pointOff s
  | .encode3 pointOff => Sys2Proof.Machine.execEncode3 pointOff s
  | .encode4 pointOff => Sys2Proof.Machine.execEncode4 pointOff s
  | .encode5 pointOff => Sys2Proof.Machine.execEncode5 pointOff s
  | .encode6 pointOff => Sys2Proof.Machine.execEncode6 pointOff s
  | .encode7 pointOff => Sys2Proof.Machine.execEncode7 pointOff s
  | .encode8 pointOff => Sys2Proof.Machine.execEncode8 pointOff s
  | .encode9 pointOff => Sys2Proof.Machine.execEncode9 pointOff s
  | .digitsel0 => Sys2Proof.Machine.execDigitsel0 s
  | .digitsel1 => Sys2Proof.Machine.execDigitsel1 s
  | .digitsel2 => Sys2Proof.Machine.execDigitsel2 s
  | .digitsel3 => Sys2Proof.Machine.execDigitsel3 s
  | .writeframe seg sel => Sys2Proof.Machine.execWriteframe seg sel s
  | .shiftbyte byte => Sys2Proof.Machine.execShiftbyte byte s
  | .shiftbit bit => Sys2Proof.Machine.execShiftbit bit s
  | .digit => Sys2Proof.Machine.execDigit s
  | .dwell => Sys2Proof.Machine.execDwell s
  | .dbsample => Sys2Proof.Machine.execDbsample s
  | .dbwait => Sys2Proof.Machine.execDbwait s
  | .tick => Sys2Proof.Machine.execTick s
  | .clkreset => Sys2Proof.Machine.execClkreset s
  | .vupdate => Sys2Proof.Machine.execVupdate s
  | .modesel => Sys2Proof.Machine.execModesel s
  | .loop => Sys2Proof.Machine.execLoop s

end Sys2Proof.Machine
end

