-- ==== Sys2Proof/Machine/Step.lean ====
section
/-! DEFINITION. One step: the next requested operation (spec/30_encoding.md R58) or, with none pending,
one clock edge. -/
namespace Sys2Proof.Machine

/-- One step of the machine. -/
def step (s : State) : Host.Outcome State Fault Refusal :=
  match s.pending with
  | [] => .next s.nextEdge
  | w :: rest =>
      match decode s.params.valueWidth w with
      | .ok i => exec i { s with pending := rest }
      | .error why => .refused (.undecodable why)

/-- `s` with a table word as its next requested operation. A row of no bits is selected by no word
(R52): nothing is then pending, and the next step is a clock edge, at which `phase` and `db_phase`
select what runs (assumption log 12). -/
def State.withFetchWord (s : State) (nbits w : Nat) : State :=
  { s with
    pending :=
      match tableWord s.params.valueWidth nbits w with
      | some ow => ow :: s.pending
      | none => [] }

end Sys2Proof.Machine
end

