-- ==== Sys2Proof/Machine/EventLevel.lean ====
section
/-! DEFINITION. The event level (spec/41_shift_register_driver.md R65 to R67, spec/42_display_multiplexer.md
R75): the same operations without clock edges, as the document's pseudocode has them. No step runs
these; the statements hold the operations of the machine, which are runs of clock edges, against them. -/
namespace Sys2Proof.Machine

/-- SHIFTBIT(b) (R65). -/
def State.shiftBit (s : State) (b : Bool) : State :=
  ((s.pinWrite .sdata b).pinWrite .sclk true).pinWrite .sclk false

/-- SHIFTBYTE(byte) (R34, R66): bit 7 first. -/
def State.shiftByte (s : State) (byte : Byte) : State :=
  [7, 6, 5, 4, 3, 2, 1, 0].foldl (fun s i => s.shiftBit (byte.getLsbD i)) s

/-- WRITEFRAME(seg, sel) (R35, R67). -/
def State.writeFrame (s : State) (seg sel : Byte) : State :=
  (((s.pinWrite .latch false).shiftByte seg).shiftByte sel).pinWrite .latch true

/-- The sequencer from LATCH_LO to the edge that raises `latch`, as one WRITEFRAME of the loaded
frame (R52, R67, R70). -/
def State.sendFrame (s : State) : State :=
  let t := s.writeFrame (s.disp.frame.extractLsb' 8 8) (s.disp.frame.extractLsb' 0 8)
  { t with disp := { t.disp with
      frame := 0
      bitcnt := 15
      dwellCnt := s.params.dwellCycles
      phase := .dwell } }

/-- The rest of a dwell as one wait (R79, R83): the counter runs down to 1 and the DWELL phase lasts
as many edges as it held, at least one. -/
def State.holdDwell (s : State) : State :=
  let t := s.holdWire (max s.disp.dwellCnt 1)
  { t with disp := { t.disp with dwellCnt := min s.disp.dwellCnt 1 } }

/-- One pass of the loop of R75: WRITEFRAME, DWELL, on to the next position. -/
def State.renderPosition (s : State) : State := s.sendFrame.holdDwell.leaveDwell

/-- RENDER (R75, R80): accepted, then positions 0, 1, 2, 3. -/
def State.render (s : State) (c : Cmd) : State :=
  (s.accept c).renderPosition.renderPosition.renderPosition.renderPosition

/-- The debounce interval as one blocking wait (R90, R106). -/
def Debouncer.waitOut (d : Debouncer) : Debouncer :=
  { phase := .ready, cnt := min d.cnt 1, clkReset := false, dbPass := true }

end Sys2Proof.Machine
end

