-- ==== Sys2Proof/Safety.lean ====
section
/-! DEFINITION. What a good state is: the invariants of spec/10_state.md R28 and what they rest on, and
what the display controller holds of the frame in flight (spec/20_memory.md R33). -/
namespace Sys2Proof.Machine

/-- R28 (c): the phases in which `latch` is low. -/
def Phase.shifting : Phase → Bool
  | .idle => false
  | .latchLo => false
  | .bitData => true
  | .bitClkHi => true
  | .bitClkLo => true
  | .latchHi => true
  | .dwell => false

/-- R28 (a), (c): `latch` is 0 exactly while a frame is shifted. -/
def State.LatchLevel (s : State) : Prop := s.disp.latch = !s.disp.phase.shifting

/-- R28 (a), (b), (d): `sclk` is 1 exactly in BIT_CLK_LO. -/
def State.SclkLevel (s : State) : Prop := s.disp.sclk = decide (s.disp.phase = .bitClkLo)

/-- R28 (b) and the width of `dwell_cnt` (R12). -/
def State.DwellBound (s : State) : Prop :=
  s.disp.dwellCnt ≤ s.params.dwellCycles ∧ (s.disp.phase = .dwell → 1 ≤ s.disp.dwellCnt)

/-- The range of `db_cnt` (R18): 0..DEBOUNCE_CYCLES, and at least 1 while blocking (R92). -/
def State.DebounceBound (s : State) : Prop :=
  s.deb.cnt ≤ s.params.debounceCycles ∧ (s.deb.phase = .block → 1 ≤ s.deb.cnt)

/-- The `value` a main loop holds on the command port fits `vw` bits. -/
def HostPhase.fits (vw : Nat) : HostPhase → Prop
  | .present c => c.value < 2 ^ vw
  | .off => True
  | .step1 => True
  | .waitPass => True
  | .work _ => True
  | .waitDone => True

/-- The width of `val_q` (R12), and of what the main loop presents (R10). -/
def State.ValueBound (s : State) : Prop :=
  s.disp.valQ < 2 ^ s.params.valueWidth ∧ s.host.fits s.params.valueWidth

/-- `done` is a pulse of the idle phase (R85), `clk_reset` one of DB_BLOCK and `db_pass` one of
DB_READY (R91, R92), so that the last two never come together. -/
def State.PulsesApart (s : State) : Prop :=
  (s.disp.done = true → s.disp.phase = .idle) ∧
  (s.deb.clkReset = true → s.deb.phase = .block) ∧
  (s.deb.dbPass = true → s.deb.phase = .ready)

/-- What holds after every edge (R28). -/
structure State.Inv (s : State) : Prop where
  params : s.params.wellFormed = true
  latch : s.LatchLevel
  sclk : s.SclkLevel
  dwell : s.DwellBound
  debounce : s.DebounceBound
  value : s.ValueBound
  pulses : s.PulsesApart

/-- The frame of the position being sent: `{ENCODE(digit), DIGITSEL}` of the latched operands (R51). -/
def State.currentFrame (s : State) : Word := frameWord s.params s.disp.latched s.disp.pos

/-- After `k` bits the low `k` bits of the shift chain are the first `k` wire bits of `f`, in order
(R33, R35). -/
def Receiver.HasShifted (r : Receiver) (f : Word) (k : Nat) : Prop :=
  ∀ j, j < k → r.sr.getLsbD j = f.getLsbD (16 - k + j)

/-- The frame register holds what of the current frame is not sent yet (R12), the shift chain what is
(R33), and during the dwell exactly the current frame is shown (R32, R86). -/
def State.InFlight (s : State) : Prop :=
  match s.disp.phase with
  | .idle => True
  | .latchLo => s.disp.frame = s.currentFrame
  | .bitData =>
      s.disp.frame = s.currentFrame <<< s.disp.bitcnt.toNat ∧
      s.recv.HasShifted s.currentFrame s.disp.bitcnt.toNat
  | .bitClkHi =>
      s.disp.frame = s.currentFrame <<< s.disp.bitcnt.toNat ∧
      s.recv.HasShifted s.currentFrame s.disp.bitcnt.toNat ∧
      s.disp.sdata = s.disp.frame.getLsbD 15
  | .bitClkLo =>
      s.disp.frame = s.currentFrame <<< s.disp.bitcnt.toNat ∧
      s.recv.HasShifted s.currentFrame (s.disp.bitcnt.toNat + 1)
  | .latchHi => s.recv.sr = s.currentFrame
  | .dwell => s.recv.sr = s.currentFrame ∧ s.recv.out = s.currentFrame

/-- The pin-write events of one WRITEFRAME of the word `w`, in time order: `latch` low, the sixteen
wire bits `w[15 - k]` with a clock pulse each, `latch` high (R35, R67). -/
def frameEvents (w : Word) : List WireEvent :=
  .pin .latch false ::
    ((List.range 16).flatMap fun k =>
      [.pin .sdata (w.getLsbD (15 - k)), .pin .sclk true, .pin .sclk false]) ++
    [.pin .latch true]

/-- The events of one RENDER, in time order: positions 0 to 3, a WRITEFRAME and a dwell each (R75,
R80). -/
def renderEvents (ps : Params) (c : Cmd) : List WireEvent :=
  [0, 1, 2, 3].flatMap fun p : Position => frameEvents (frameWord ps c p) ++ [.wait ps.dwellCycles]

/-- `s` after a whole RENDER of `c`, as the end states of spec/95_test_vectors.md P1 and P2 have it:
the sequencer's registers, the pins, the receiver holding the frame of position 3, and the events of
R75 on the wire. -/
def State.rendered (s : State) (c : Cmd) : State :=
  { s with
    disp :=
      { phase := .idle, pos := 3, bitcnt := 15, valQ := c.value, dpEnQ := c.dpEn
        dpIdxQ := c.dpIdx, frame := 0, dwellCnt := 1, latch := true, sclk := false
        sdata := false, done := true }
    recv := ⟨frameWord s.params c 3, frameWord s.params c 3⟩
    wire := (renderEvents s.params c).reverse ++ s.wire }

/-- The words the display controller commits when the events `es`, in time order, reach it with `sr` in
its shift chain and `sdata` at level `d` (R33). The events that set a line high are taken as its
rising edges, as those of R65 and R67 are. -/
def commits (sr : Word) (d : Bool) : List WireEvent → List Word
  | [] => []
  | .pin .sdata b :: es => commits sr b es
  | .pin .sclk b :: es => commits (if b then (sr.setWidth 15).concat d else sr) d es
  | .pin .latch b :: es => if b then sr :: commits sr d es else commits sr d es
  | .wait _ :: es => commits sr d es
  | .reset :: es => commits sr d es

/-- The pins of an idle display (R28 (a)). -/
def State.PinsAtRest (s : State) : Prop := s.disp.latch = true ∧ s.disp.sclk = false

/-- Two states that agree in everything but the display unit: registers, receiver, wire (R123.4). -/
structure SameRest (s t : State) : Prop where
  params : s.params = t.params
  deb : s.deb = t.deb
  clock : s.clock = t.clock
  volt : s.volt = t.volt
  host : s.host = t.host
  tickIn : s.tickIn = t.tickIn
  inp : s.inp = t.inp
  script : s.script = t.script
  pending : s.pending = t.pending
  result : s.result = t.result

/-- `s` with its display busy for longer than `n` edges, in one dwell: what every agent but the display
does while the display is busy for `n` edges is what it does in the edges of this state (R82, R123.4). -/
def State.displayBusy (s : State) (n : Nat) : State :=
  { s with disp := { s.disp with phase := .dwell, dwellCnt := n + 1 } }

/-- The operations that take clock edges of the blocks, as against the combinational ones (R60, R76, R77)
and the events of the surroundings (R100, R101, R103; assumption log 5). -/
def takesEdges : Instr → Bool
  | .render _ _ _ => true
  | .showclock _ _ => true
  | .showvolts _ => true
  | .encode0 _ => false
  | .encode1 _ => false
  | .encode2 _ => false
  | .encode3 _ => false
  | .encode4 _ => false
  | .encode5 _ => false
  | .encode6 _ => false
  | .encode7 _ => false
  | .encode8 _ => false
  | .encode9 _ => false
  | .digitsel0 => false
  | .digitsel1 => false
  | .digitsel2 => false
  | .digitsel3 => false
  | .writeframe _ _ => true
  | .shiftbyte _ => true
  | .shiftbit _ => true
  | .digit => false
  | .dwell => true
  | .dbsample => true
  | .dbwait => true
  | .tick => false
  | .clkreset => false
  | .vupdate => false
  | .modesel => true
  | .loop => true

/-- The operations that run a whole render (R59, R75, R105, R106). -/
def rendersWhole : Instr → Bool
  | .render _ _ _ => true
  | .showclock _ _ => true
  | .showvolts _ => true
  | .encode0 _ => false
  | .encode1 _ => false
  | .encode2 _ => false
  | .encode3 _ => false
  | .encode4 _ => false
  | .encode5 _ => false
  | .encode6 _ => false
  | .encode7 _ => false
  | .encode8 _ => false
  | .encode9 _ => false
  | .digitsel0 => false
  | .digitsel1 => false
  | .digitsel2 => false
  | .digitsel3 => false
  | .writeframe _ _ => false
  | .shiftbyte _ => false
  | .shiftbit _ => false
  | .digit => false
  | .dwell => false
  | .dbsample => false
  | .dbwait => false
  | .tick => false
  | .clkreset => false
  | .vupdate => false
  | .modesel => true
  | .loop => true

/-- The edge, counted from the edge of step 1 as 0, at which an iteration of LOOP that starts in `s`
presents its command: after the sample, the debounce interval if the button is pressed, and the loop
overhead that the inputs give (R106, R107). -/
def loopPresents (s : State) : Nat :=
  let k := 1 + if pressed s.inp.btnN then s.params.debounceCycles else 0
  k + (s.edges k).inp.overhead

/-- How many clock edges the operation `i` takes in `s` if no reset comes: the cycles of R156, and the
accepting edge of a RENDER beside those; one for a request that is turned away or waits; none for
what takes no time. -/
def edgesTaken (i : Instr) (s : State) : Nat :=
  let ofDriver := fun n => if s.disp.phase = .idle then n else 1
  let ofRender := 1 + renderCycles s.params
  match i with
  | .render _ _ _ => ofDriver ofRender
  | .showclock _ _ => ofDriver ofRender
  | .showvolts _ => ofDriver ofRender
  | .encode0 _ => 0
  | .encode1 _ => 0
  | .encode2 _ => 0
  | .encode3 _ => 0
  | .encode4 _ => 0
  | .encode5 _ => 0
  | .encode6 _ => 0
  | .encode7 _ => 0
  | .encode8 _ => 0
  | .encode9 _ => 0
  | .digitsel0 => 0
  | .digitsel1 => 0
  | .digitsel2 => 0
  | .digitsel3 => 0
  | .writeframe _ _ => ofDriver 50
  | .shiftbyte _ => ofDriver 24
  | .shiftbit _ => ofDriver 3
  | .digit => 0
  | .dwell => if s.disp.phase = .dwell then s.disp.dwellCnt else ofDriver s.params.dwellCycles
  | .dbsample => 1
  | .dbwait => 1
  | .tick => 0
  | .clkreset => 0
  | .vupdate => 0
  | .modesel => if s.deb.phase = .ready then ofDriver ofRender else 1
  | .loop => if s.deb.phase = .ready then ofDriver (loopPresents s + ofRender) else 1

/-- No reset edge comes, now or in the inputs given. -/
def State.NoReset (s : State) : Prop := s.inp.rst = false ∧ ∀ i ∈ s.script, i.rst = false

/-- The main loop keeps its handshake (R107): it samples only when both blocks are idle, waits for
`db_pass` while the debouncer owes one, presents a command only when the debouncer is ready, and
waits for `done` while the display owes it. -/
def State.HostInStep (s : State) : Prop :=
  match s.host with
  | .off => True
  | .step1 => s.disp.phase = .idle ∧ s.deb.phase = .ready
  | .waitPass => s.disp.phase = .idle ∧ (s.deb.phase = .block ∨ s.deb.dbPass = true)
  | .work _ => s.disp.phase = .idle ∧ s.deb.phase = .ready
  | .present _ => s.deb.phase = .ready
  | .waitDone => s.deb.phase = .ready ∧ (s.disp.phase ≠ .idle ∨ s.disp.done = true)

end Sys2Proof.Machine
end

