-- ==== Sys2Proof/Certificates/Slice0/Obligations.lean ====
section
/-! DEFINITION. The statements for the provers. Each docstring names the rule of spec/ it formalises. -/

open Sys2Proof Sys2Proof.Machine

/-! ### Requests and words -/

/-- R58: a step is the operation its next requested word decodes to, run on the state with that request
taken off, and nothing around it. A word that decodes to nothing is refused (log 28). -/
def Obligations.StepRunsDecodedOperation : Prop :=
  ∀ (s : State) (w : OpWord) (rest : List OpWord), s.pending = w :: rest →
    (∀ i, decode s.params.valueWidth w = .ok i → step s = exec i { s with pending := rest }) ∧
    (∀ e, decode s.params.valueWidth w = .error e → step s = .refused (.undecodable e))

/-- R83, R123: with nothing requested a step is one clock edge, and then the inputs move on. -/
def Obligations.StepWithoutRequestIsClockEdge : Prop :=
  ∀ s : State, s.pending = [] → step s = .next s.clockEdge.advanceInputs

/-- R45 to R48: for every VALUE_WIDTH the encoder's word of an operation whose value fits decodes to
that operation, every field at every value. The codes of SEQ and ENV words are the model's choice
(log 3), and so are the format tags of SHOWCLOCK and SHOWVOLTS (log 4). -/
def Obligations.DecodeInvertsEncode : Prop :=
  ∀ (vw : Nat) (i : Instr), i.wellFormed vw = true → decode vw (encode vw i) = .ok i

/-- R45 to R48: within a format tag each operation has one word, and it is the encoder's; what a word
decodes to fits VALUE_WIDTH. By R52 the same bits under another tag may be another operation. The
codes of SEQ and ENV words are the model's choice (log 3), and so are the tags (log 4). -/
def Obligations.EncodeInvertsDecode : Prop :=
  ∀ (vw : Nat) (w : OpWord) (i : Instr), decode vw w = .ok i →
    encode vw i = w ∧ i.wellFormed vw = true

/-- The decoder accepts exactly the words that pass the checks of WellFormed.lean. For CMD, SELB, FRAME,
BYTE and BIT these are R45, R47, R48 and R52. Which SEQ and ENV words are accepted is the model's
choice (log 3: R52 gives those rows no bits), and so are the tags of SHOWCLOCK and SHOWVOLTS and the
fixed SEGB bytes (log 4). -/
def Obligations.DecodeAcceptsExactlyWellFormed : Prop :=
  ∀ (vw : Nat) (w : OpWord), (∃ i, decode vw w = .ok i) ↔ w.wellFormed vw = true

/-- Words written out from spec/30_encoding.md, spec/opcode_table.json and
spec/95_test_vectors.md M3 decode to what they stand for, with VALUE_WIDTH = 16, and one CMD word
with VALUE_WIDTH = 14. -/
def Obligations.TableWordsDecode : Prop :=
  decode 16 ⟨.cmd, 0b1_01_0000000101001010⟩ = .ok (.render true 1 330) ∧
  decode 16 ⟨.cmd, 0b0_10_0000010011010010⟩ = .ok (.render false 2 1234) ∧
  decode 14 ⟨.cmd, 0b1_01_00000101001010⟩ = .ok (.render true 1 330) ∧
  decode 16 ⟨.segb, 0b1_0110000⟩ = .ok (.encode3 true) ∧
  decode 16 ⟨.segb, 0b0_0000010⟩ = .ok (.encode6 false) ∧
  decode 16 ⟨.selb, 0b00000100⟩ = .ok .digitsel2 ∧
  decode 16 ⟨.frame, 0b11111001_00000001⟩ = .ok (.writeframe 0xF9 0x01) ∧
  decode 16 ⟨.byte, 0b11111001⟩ = .ok (.shiftbyte 0xF9) ∧
  decode 16 ⟨.bit, 0b1⟩ = .ok (.shiftbit true)

/-- R59: SHOWCLOCK and SHOWVOLTS have the words and the effect of one RENDER. -/
def Obligations.ShowOperationsAreOneRender : Prop :=
  (∀ (vw : Nat) (idx : Position) (v : Nat) (s : State),
    (encode vw (.showclock idx v)).word = (encode vw (.render false idx v)).word ∧
    exec (.showclock idx v) s = exec (.render false idx v) s) ∧
  (∀ (vw : Nat) (v : Nat) (s : State),
    (encode vw (.showvolts v)).word = (encode vw (.render true 1 v)).word ∧
    exec (.showvolts v) s = exec (.render true 1 v) s)

/-! ### Combinational operations -/

/-- R60: each of ENCODE.0 to ENCODE.9 completes in every state and writes no state of the hardware;
the byte it returns (the model's `result`, log 7) is the table entry, with bit DP_BIT cleared
exactly when the decimal point is on. -/
def Obligations.EncodeReturnsSegmentByte : Prop :=
  ∀ (d : Digit) (pointOff : Bool) (s : State), ∃ b : Byte,
    exec (encodeRow d pointOff) s = .next { s with result := b } ∧
    ∀ j : Nat, j < 8 → b.getLsbD j =
      (s.params.segTable[d.val].getLsbD j && (pointOff || decide (j ≠ s.params.dpBit.val)))

/-- R60, R62: with the default table, the SEGB byte of an ENCODE row is the byte that row returns. -/
def Obligations.DefaultEncodeReturnsItsOwnByte : Prop :=
  ∀ (s : State) (w : OpWord) (i : Instr),
    s.params = defaultParams → w.fmt = .segb → decode s.params.valueWidth w = .ok i →
    w.word < 256 ∧ exec i s = .next { s with result := BitVec.ofNat 8 w.word }

/-- R64: the decimal point is an overlay independent of the digit, and the twenty bytes are pairwise
distinct, for every table that meets R61. -/
def Obligations.SegmentBytesPairwiseDistinct : Prop :=
  (∀ ps : Params, ps.wellFormed = true →
    (∀ d : Digit,
      encodeDigit ps d true = encodeDigit ps d false &&& ~~~(1#8 <<< ps.dpBit.val) ∧
      encodeDigit ps d true ≠ encodeDigit ps d false) ∧
    (∀ (d d' : Digit) (b b' : Bool), (d, b) ≠ (d', b') → encodeDigit ps d b ≠ encodeDigit ps d' b')) ∧
  (∀ d : Digit, encodeDigit defaultParams d true = memReadSeg defaultParams d &&& 0x7F) ∧
  ((List.finRange 10).map fun d => encodeDigit defaultParams d true) =
    [0x40, 0x79, 0x24, 0x30, 0x19, 0x12, 0x02, 0x78, 0x00, 0x10]

/-- R46, R61: for every legal parameter set the byte of a digit lights, active-low, exactly the segments
of a standard shape of that digit and the decimal point exactly when asked to. Which shapes count as
standard for 6, 7 and 9 is log 32. -/
def Obligations.EncodeLightsStandardShape : Prop :=
  ∀ (ps : Params) (d : Digit) (point : Bool), ps.wellFormed = true →
    (encodeDigit ps d point).getLsbD ps.dpBit.val = !point ∧
    ∃ shape ∈ standardShapes[d.val], ∀ k : Fin 7,
      (encodeDigit ps d point).getLsbD ps.segLine[k.val].val = !shape.getLsbD k.val

/-- R77: DIGITSEL completes in every state, returns `1 << p` and writes no state of the hardware;
exactly one bit of it is set, and bits 7:4 are 0. -/
def Obligations.DigitselReturnsOneHotByte : Prop :=
  (∀ (p : Position) (s : State), ∃ b : Byte,
    exec (digitselRow p) s = .next { s with result := b } ∧
    (∀ j : Nat, b.getLsbD j = decide (j = p.toNat)) ∧ b.extractLsb' 4 4 = 0) ∧
  (∀ s : State,
    exec .digitsel0 s = .next { s with result := 0x01 } ∧
    exec .digitsel1 s = .next { s with result := 0x02 } ∧
    exec .digitsel2 s = .next { s with result := 0x04 } ∧
    exec .digitsel3 s = .next { s with result := 0x08 })

/-- R49, R52, R76: DIGIT completes in every state and returns the digit of `val_q` at `pos`. -/
def Obligations.DigitReturnsDecimalDigit : Prop :=
  ∀ s : State, ∃ b : Byte,
    exec .digit s = .next { s with result := b } ∧
    b.toNat = (if s.disp.pos = 0 then s.disp.valQ / 1000 % 10
      else if s.disp.pos = 1 then s.disp.valQ / 100 % 10
      else if s.disp.pos = 2 then s.disp.valQ / 10 % 10
      else s.disp.valQ % 10)

/-- R49, R55: the four digits are the thousands, hundreds, tens and units of `v mod 10000`, so
recomposing them gives `v mod 10000`, and `v` itself up to 9999. -/
def Obligations.DigitsRecomposeModulo10000 : Prop :=
  ∀ v : Nat,
    let d := fun p => (digitAt v p).val
    d 0 = v / 1000 % 10 ∧ d 1 = v / 100 % 10 ∧ d 2 = v / 10 % 10 ∧ d 3 = v / 1 % 10 ∧
    (∀ p, d p ≤ 9) ∧
    d 0 * 1000 + d 1 * 100 + d 2 * 10 + d 3 = v % 10000 ∧
    (v ≤ 9999 → d 0 * 1000 + d 1 * 100 + d 2 * 10 + d 3 = v)

/-- R47, R50, R51, R54: a frame is the segment byte above the select byte; the point is on at
`dp_idx` alone when `dp_en = 1` and nowhere when `dp_en = 0`, whatever `dp_idx`. -/
def Obligations.FrameAssembly : Prop :=
  ∀ (ps : Params) (c : Cmd) (p : Position), ps.wellFormed = true →
    (frameWord ps c p).extractLsb' 8 8 =
      encodeDigit ps (digitAt c.value p) (decide (c.dpEn = true ∧ c.dpIdx = p)) ∧
    (frameWord ps c p).extractLsb' 0 8 = 1#8 <<< p.toNat ∧
    ((frameWord ps c p).getLsbD (8 + ps.dpBit.val) = false ↔ c.dpEn = true ∧ c.dpIdx = p) ∧
    (c.dpEn = false → ∀ idx : Position, frameWord ps c p = frameWord ps { c with dpIdx := idx } p)

/-! ### Driver -/

/-- R65, R156: SHIFTBIT on an idle display completes in three edges; `sdata` takes the bit, `sclk` ends low,
the three events are on the wire in order, and the shift chain gains the bit (R33). Of the sequencer's
registers `frame` and `bitcnt` are as those edges leave them (R83). All else is as after three edges
of a machine whose display is busy. -/
def Obligations.ShiftbitCompletes : Prop :=
  ∀ (b : Bool) (s : State), s.disp.phase = .idle → s.NoReset → s.disp.sclk = false →
    ∃ t, exec (.shiftbit b) s = .next t ∧
      t.disp = { s.disp with sdata := b, sclk := false, frame := 0, bitcnt := 1, done := false } ∧
      t.recv = ⟨s.recv.sr.extractLsb' 0 15 ++ BitVec.ofBool b, s.recv.out⟩ ∧
      t.wire = [.pin .sclk false, .pin .sclk true, .pin .sdata b] ++ s.wire ∧
      SameRest t ((s.displayBusy 3).edges 3)

/-- R34, R66, R156: SHIFTBYTE on an idle display completes in 24 edges; bit 7 goes first, `sdata` ends at
bit 0, the shift chain takes the byte, and the 24 events are on the wire. All else is as after 24
edges of a machine whose display is busy. -/
def Obligations.ShiftbyteCompletes : Prop :=
  ∀ (b : Byte) (s : State), s.disp.phase = .idle → s.NoReset → s.disp.sclk = false →
    ∃ t, exec (.shiftbyte b) s = .next t ∧
      t.disp =
        { s.disp with
          sdata := b.getLsbD 0, sclk := false, frame := 0, bitcnt := 8, done := false } ∧
      t.recv = ⟨s.recv.sr.extractLsb' 0 8 ++ b, s.recv.out⟩ ∧
      t.wire = ((List.range 8).flatMap fun k =>
        [.pin .sdata (b.getLsbD (7 - k)), .pin .sclk true, .pin .sclk false]).reverse ++ s.wire ∧
      SameRest t ((s.displayBusy 24).edges 24)

/-- R32, R35, R67, R70: WRITEFRAME on an idle display completes in 50 edges for any two bytes; `{seg, sel}`
is committed whole, and the 50 events are on the wire. Of the sequencer's registers `frame`,
`bitcnt` and `dwell_cnt` are as those edges leave them (R70). All else is as after 50 edges of a
machine whose display is busy. -/
def Obligations.WriteframeCompletes : Prop :=
  ∀ (seg sel : Byte) (s : State), s.disp.phase = .idle → s.NoReset → s.PinsAtRest →
    (frameEvents (seg ++ sel)).length = 50 ∧
    ∃ t, exec (.writeframe seg sel) s = .next t ∧
      t.disp =
        { s.disp with
          latch := true, sclk := false, sdata := sel.getLsbD 0, frame := 0, bitcnt := 15
          dwellCnt := s.params.dwellCycles, done := false } ∧
      t.recv = ⟨seg ++ sel, seg ++ sel⟩ ∧
      t.wire = (frameEvents (seg ++ sel)).reverse ++ s.wire ∧
      SameRest t ((s.displayBusy 50).edges 50)

/-- R71, R82, R91, R92, R94 and logs 6, 20: while a render is in progress, or at a reset edge, an
operation of the display unit is turned away, and so are DBSAMPLE while blocking and DBWAIT while
ready: the step is the clock edge it would have been without the request. -/
def Obligations.BusyUnitsTurnRequestsAway : Prop :=
  ∀ s : State,
    ((s.disp.phase ≠ .idle ∨ s.inp.rst = true) →
      (∀ e idx v, exec (.render e idx v) s = .next s.clockEdge.advanceInputs) ∧
      (∀ idx v, exec (.showclock idx v) s = .next s.clockEdge.advanceInputs) ∧
      (∀ v, exec (.showvolts v) s = .next s.clockEdge.advanceInputs) ∧
      (∀ seg sel, exec (.writeframe seg sel) s = .next s.clockEdge.advanceInputs) ∧
      (∀ b, exec (.shiftbyte b) s = .next s.clockEdge.advanceInputs) ∧
      (∀ b, exec (.shiftbit b) s = .next s.clockEdge.advanceInputs) ∧
      ((s.disp.phase ≠ .dwell ∨ s.inp.rst = true) →
        exec .dwell s = .next s.clockEdge.advanceInputs)) ∧
    ((s.deb.phase = .block ∨ s.inp.rst = true) →
      exec .dbsample s = .next s.clockEdge.advanceInputs) ∧
    ((s.deb.phase = .ready ∨ s.inp.rst = true) →
      exec .dbwait s = .next s.clockEdge.advanceInputs)

/-! ### Multiplexer -/

/-- R75, R80, R82 to R84: RENDER, SHOWCLOCK and SHOWVOLTS on an idle display complete: they are the edge that
accepts the command and the `4 * (50 + DWELL_CYCLES)` edges of the render, of the whole machine. After
them the four frames with their dwells are on the wire in order, the receiver holds the frame of
position 3, and the sequencer is idle with `done = 1`. -/
def Obligations.RenderCompletes : Prop :=
  ∀ s : State, s.disp.phase = .idle → s.NoReset → s.PinsAtRest → 1 ≤ s.params.dwellCycles →
    let after := fun c : Cmd =>
      (s.clockEdgeWith ⟨false, some c⟩).advanceInputs.edges (4 * (50 + s.params.dwellCycles))
    (∀ e idx v, exec (.render e idx v) s = .next (after ⟨e, idx, v⟩)) ∧
    (∀ idx v, exec (.showclock idx v) s = .next (after ⟨false, idx, v⟩)) ∧
    (∀ v, exec (.showvolts v) s = .next (after ⟨true, 1, v⟩)) ∧
    (∀ c, (after c).disp = (s.rendered c).disp ∧ (after c).recv = (s.rendered c).recv ∧
      (after c).wire = (s.rendered c).wire ∧ (after c).params = s.params ∧
      (after c).pending = s.pending ∧ (after c).result = s.result)

/-- R75, R80: RENDER on an idle display with its pins at rest puts on the wire 200 pin-write events and
four dwells and nothing else, with four rises and four falls of `latch` and 64 clock pulses; what the
display controller commits from them (R33) is the four frames in position order, with the select
bytes 01, 02, 04, 08. One step per RENDER is log 5, the record of the wire log 8. -/
def Obligations.RenderEventCounts : Prop :=
  ∀ (s : State) (e : Bool) (idx : Position) (v : Nat),
    s.disp.phase = .idle → s.NoReset → s.PinsAtRest → 1 ≤ s.params.dwellCycles →
    ∃ (t : State) (events : List WireEvent),
      exec (.render e idx v) s = .next t ∧ t.wire = events.reverse ++ s.wire ∧
      events.length = 204 ∧
      (events.filter fun x => match x with | .pin _ _ => true | _ => false).length = 200 ∧
      events.count (.wait s.params.dwellCycles) = 4 ∧
      events.count (.pin .latch true) = 4 ∧ events.count (.pin .latch false) = 4 ∧
      events.count (.pin .sclk true) = 64 ∧ events.count (.pin .sclk false) = 64 ∧
      commits s.recv.sr s.disp.sdata events =
        ([0, 1, 2, 3].map fun p : Position => frameWord s.params ⟨e, idx, v⟩ p) ∧
      ((commits s.recv.sr s.disp.sdata events).map fun w => w.extractLsb' 0 8) =
        [0x01, 0x02, 0x04, 0x08]

/-- R81: RENDER of `v` and of `v mod 10000` put the same events on the wire and leave the same display;
12345 shows 2345. -/
def Obligations.RenderAliasesModulo10000 : Prop :=
  (∀ (s t u : State) (e : Bool) (idx : Position) (v : Nat),
    exec (.render e idx v) s = .next t →
    exec (.render e idx (v % 10000)) s = .next u →
    s.disp.phase = .idle → s.inp.rst = false →
    t.wire = u.wire ∧ t.recv = u.recv) ∧
  ([0, 1, 2, 3].map fun p : Position => (digitAt 12345 p).val) = [2, 3, 4, 5]

/-- R79, R83: DWELL in the dwell of a position completes: it is the edges of the rest of the dwell, which
change no pin and nothing of the receiver, and after them the sequencer is at the next position, or in
IDLE with `done = 1` after position 3. On an idle display it is a wait of DWELL_CYCLES edges with no
pin-write event and no command accepted, whatever the hosts present; `dwell_cnt` ends at 1 and all else
is as after as many edges of a machine whose display is busy. What a requested DWELL is in each phase is
the model's choice (log 21). -/
def Obligations.DwellCompletes : Prop :=
  ∀ s : State, s.NoReset →
    (s.disp.phase = .dwell → 1 ≤ s.disp.dwellCnt →
      let t := s.edges s.disp.dwellCnt
      exec .dwell s = .next t ∧ t.recv = s.recv ∧ t.wire = addWait s.disp.dwellCnt s.wire ∧
      (s.disp.pos = 3 → t.disp = { s.disp with phase := .idle, done := true, dwellCnt := 1 }) ∧
      (s.disp.pos ≠ 3 →
        t.disp = { s.disp with
          phase := .latchLo, pos := s.disp.pos + 1, done := false, dwellCnt := 1
          frame := frameWord s.params ⟨s.disp.dpEnQ, s.disp.dpIdxQ, s.disp.valQ⟩ (s.disp.pos + 1) })) ∧
    (s.disp.phase = .idle → 1 ≤ s.params.dwellCycles →
      ∃ t, exec .dwell s = .next t ∧
        t.disp = { s.disp with dwellCnt := 1, done := false } ∧ t.recv = s.recv ∧
        t.wire = addWait s.params.dwellCycles s.wire ∧
        SameRest t ((s.displayBusy s.params.dwellCycles).edges s.params.dwellCycles))

/-- R79, R83: with `dwell_cnt = n` after the LATCH_HI edge the DWELL phase lasts exactly `n` edges, and the
pins stay throughout. That what those edges leave is what a requested DWELL leaves, for any count that
remains, is the model's choice (log 21). -/
def Obligations.DwellLastsItsCount : Prop :=
  ∀ (s t : State), s.NoReset → s.disp.phase = .dwell → 1 ≤ s.disp.dwellCnt →
    exec .dwell s = .next t →
    (∀ j, j < s.disp.dwellCnt →
      (s.edges j).disp.phase = .dwell ∧ (s.edges j).disp.latch = s.disp.latch ∧
      (s.edges j).disp.sclk = s.disp.sclk ∧ (s.edges j).disp.sdata = s.disp.sdata ∧
      (s.edges j).recv = s.recv) ∧
    s.edges s.disp.dwellCnt = t

/-- R10, R82: an idle display at which a command is presented accepts it: the operands are latched, the
frame of position 0 is loaded, and no pin changes; with no command nothing changes but `done`; a
display that is not idle does not look at the command inputs. With another host (`host = off`) a
command is presented exactly when `cmd_valid = 1`, with the operands on the port, of which
VALUE_WIDTH lines carry the value: the model's choice (log 31). -/
def Obligations.CommandAcceptance : Prop :=
  (∀ (s : State) (c : Cmd), s.inp.rst = false → s.disp.phase = .idle → s.drive.cmd = some c →
    s.clockEdge.disp =
      { s.disp with
        valQ := c.value, dpEnQ := c.dpEn, dpIdxQ := c.dpIdx, pos := 0, phase := .latchLo
        done := false
        frame := encodeDigit s.params (digitAt c.value 0) (c.dpEn && c.dpIdx == 0) ++ 0x01#8 } ∧
    s.clockEdge.recv = s.recv ∧ s.clockEdge.wire = s.wire) ∧
  (∀ s : State, s.inp.rst = false → s.disp.phase = .idle → s.drive.cmd = none →
    s.clockEdge.disp = { s.disp with done := false } ∧ s.clockEdge.recv = s.recv ∧
    s.clockEdge.wire = s.wire) ∧
  (∀ (s : State) (valid : Bool) (c : Cmd), s.inp.rst = false → s.disp.phase ≠ .idle →
    { s with inp := { s.inp with cmdValid := valid, cmd := c } }.clockEdge.disp = s.clockEdge.disp) ∧
  (∀ s : State, s.host = .off → s.inp.rst = false → s.disp.phase = .idle →
    (s.inp.cmdValid = true →
      s.clockEdge.disp.valQ = s.inp.cmd.value % 2 ^ s.params.valueWidth ∧
      s.clockEdge.disp.dpEnQ = s.inp.cmd.dpEn ∧ s.clockEdge.disp.dpIdxQ = s.inp.cmd.dpIdx ∧
      s.clockEdge.disp.pos = 0 ∧ s.clockEdge.disp.phase = .latchLo ∧
      s.clockEdge.disp.frame =
        frameWord s.params
          ⟨s.inp.cmd.dpEn, s.inp.cmd.dpIdx, s.inp.cmd.value % 2 ^ s.params.valueWidth⟩ 0) ∧
    (s.inp.cmdValid = false → s.clockEdge.disp = { s.disp with done := false }))

/-- R87: between renders the block does nothing. While another host presents no command, an idle
display stays as it is for any number of edges but that `done` falls, and so do the receiver and the
wire. -/
def Obligations.IdleDisplayStaysStill : Prop :=
  ∀ (s : State) (n : Nat), s.NoReset → s.host = .off → s.disp.phase = .idle →
    s.inp.cmdValid = false → (∀ i ∈ s.script, i.cmdValid = false) →
    (s.edges n).disp = { s.disp with done := if n = 0 then s.disp.done else false } ∧
    (s.edges n).recv = s.recv ∧ (s.edges n).wire = s.wire

/-- R83: the arms of the sequencer's step function, one clock edge with `rst = 0`; and with
`dwell_cnt = n` the phase DWELL lasts exactly `n` edges, whatever the inputs, without a reset. -/
def Obligations.SequencerArms : Prop :=
  (∀ s : State, s.NoReset → s.disp.phase = .dwell → 1 ≤ s.disp.dwellCnt →
    (∀ j, j < s.disp.dwellCnt →
      (s.edges j).disp.phase = .dwell ∧ (s.edges j).disp.dwellCnt = s.disp.dwellCnt - j) ∧
    (s.edges s.disp.dwellCnt).disp.phase ≠ .dwell) ∧
  ∀ s : State, s.inp.rst = false →
    let d := s.disp
    let t := s.clockEdge.disp
    (d.phase = .idle → s.drive.cmd = none → t = { d with done := false }) ∧
    (∀ c : Cmd, d.phase = .idle → s.drive.cmd = some c →
      t = { d with
        valQ := c.value, dpEnQ := c.dpEn, dpIdxQ := c.dpIdx, pos := 0, phase := .latchLo
        done := false
        frame := encodeDigit s.params (digitAt c.value 0) (c.dpEn && c.dpIdx == 0) ++ 0x01#8 }) ∧
    (d.phase = .latchLo →
      t = { d with latch := false, bitcnt := 0, phase := .bitData, done := false }) ∧
    (d.phase = .bitData →
      t = { d with sdata := d.frame.getLsbD 15, phase := .bitClkHi, done := false }) ∧
    (d.phase = .bitClkHi → t = { d with sclk := true, phase := .bitClkLo, done := false }) ∧
    (d.phase = .bitClkLo → d.bitcnt = 15 →
      t = { d with sclk := false, frame := d.frame <<< 1, phase := .latchHi, done := false }) ∧
    (d.phase = .bitClkLo → d.bitcnt ≠ 15 →
      t = { d with
        sclk := false, frame := d.frame <<< 1, bitcnt := d.bitcnt + 1, phase := .bitData
        done := false }) ∧
    (d.phase = .latchHi →
      t = { d with
        latch := true, dwellCnt := s.params.dwellCycles, phase := .dwell, done := false }) ∧
    (d.phase = .dwell → 1 < d.dwellCnt → t = { d with dwellCnt := d.dwellCnt - 1, done := false }) ∧
    (d.phase = .dwell → d.dwellCnt ≤ 1 → d.pos = 3 → t = { d with phase := .idle, done := true }) ∧
    (d.phase = .dwell → d.dwellCnt ≤ 1 → d.pos ≠ 3 →
      t = { d with
        pos := d.pos + 1, phase := .latchLo, done := false
        frame := encodeDigit s.params (digitAt d.valQ (d.pos + 1)) (d.dpEnQ && d.dpIdxQ == d.pos + 1)
          ++ (1#8 <<< (d.pos + 1).toNat) })

/-- R14: `busy`, `cmd_ready` and `done`. `done` is 1 after the edge at which the fourth dwell of a
render ends and 0 after every other edge; it is 0 after reset; no rule of the block reads it. -/
def Obligations.StatusOutputs : Prop :=
  (∀ s : State,
    (s.busy = true ↔ s.disp.phase ≠ .idle) ∧ (s.cmdReady = true ↔ s.disp.phase = .idle) ∧
    (s.clockEdge.disp.done = true ↔
      s.inp.rst = false ∧ s.disp.phase = .dwell ∧ s.disp.dwellCnt ≤ 1 ∧ s.disp.pos = 3)) ∧
  State.reset.disp.done = false ∧
  (∀ (s : State) (b : Bool),
    let u := { s with disp := { s.disp with done := b } }
    u.clockEdge.disp = s.clockEdge.disp ∧ u.clockEdge.recv = s.clockEdge.recv ∧
    (s.host = .off → u.clockEdge.deb = s.clockEdge.deb))

/-- R14, R85, R95: the three pulses last one cycle, whatever a request drives at the edge: after an edge
`done` is 1 exactly when the edge ended a render, `clk_reset` exactly when it sampled a pressed button,
`db_pass` exactly when it sampled an idle one or ended a block. After a requested operation that takes
clock edges `done` is up only if the operation ended a render. An operation that takes none leaves the
pulses, the countdowns and the inputs as they are (log 5). -/
def Obligations.PulsesLastOneCycle : Prop :=
  (∀ (s : State) (r : Drive),
    let t := s.clockEdgeWith r
    let sampled := s.deb.phase = .ready ∧ (r.sampleEn = true ∨ s.drive.sampleEn = true)
    (t.disp.done = true ↔
      s.inp.rst = false ∧ s.disp.phase = .dwell ∧ s.disp.dwellCnt ≤ 1 ∧ s.disp.pos = 3) ∧
    (t.deb.clkReset = true ↔ s.inp.rst = false ∧ sampled ∧ s.inp.btnN = false) ∧
    (t.deb.dbPass = true ↔
      s.inp.rst = false ∧
        ((sampled ∧ s.inp.btnN = true) ∨ (s.deb.phase = .block ∧ s.deb.cnt ≤ 1)))) ∧
  (∀ (i : Instr) (s t : State), takesEdges i = true → 1 ≤ s.params.dwellCycles →
    exec i s = .next t → t.disp.done = true →
      (rendersWhole i = true ∧ s.disp.phase = .idle ∧ s.inp.rst = false) ∨
      (s.disp.phase = .dwell ∧ s.disp.pos = 3 ∧ s.inp.rst = false)) ∧
  (∀ (i : Instr) (s t : State), takesEdges i = false → exec i s = .next t →
    t.disp = s.disp ∧ t.recv = s.recv ∧ t.deb = s.deb ∧ t.host = s.host ∧ t.tickIn = s.tickIn ∧
    t.inp = s.inp ∧ t.script = s.script ∧ t.wire = s.wire)

/-- R92, R94, R95, R112, R123.4, R148, R156: a requested operation that takes time takes its clock edges of
the whole machine (`edgesTaken`): the inputs move on by as many, the periodic source counts as many
edges, a block that is running counts down as many and ends with `db_pass = 1` when its own are over,
and with another host the debouncer and the clock are as after as many edges without the request. A
reset edge among them is the operation's last, and leaves both blocks at their reset values (R123.1,
R140; log 10). -/
def Obligations.RequestsTakeTheirEdges : Prop :=
  (∀ (i : Instr) (s : State), takesEdges i = true → s.params.wellFormed = true →
    (s.disp.phase = .dwell → 1 ≤ s.disp.dwellCnt) →
    (∀ j, j < edgesTaken i s → (s.edges j).inp.rst = false) →
    let n := edgesTaken i s
    1 ≤ n ∧ ∃ t, exec i s = .next t ∧
      t.params = s.params ∧ t.result = s.result ∧ t.inp = (s.edges n).inp ∧
      t.script = (s.edges n).script ∧ t.tickIn = (s.edges n).tickIn ∧
      (s.deb.phase = .block → n < s.deb.cnt → t.deb = ⟨.block, s.deb.cnt - n, false, false⟩) ∧
      (s.deb.phase = .block → n = s.deb.cnt → t.deb = ⟨.ready, 1, false, true⟩) ∧
      (s.host = .off → i ≠ .dbsample → i ≠ .loop →
        t.host = .off ∧ t.volt = s.volt ∧ t.deb = (s.edges n).deb ∧ t.clock = (s.edges n).clock)) ∧
  (∀ (i : Instr) (s : State) (k : Nat), takesEdges i = true → s.params.wellFormed = true →
    k < edgesTaken i s → (∀ j, j < k → (s.edges j).inp.rst = false) → (s.edges k).inp.rst = true →
    ∃ t, exec i s = .next t ∧ t.disp = Display.reset ∧ t.deb = Debouncer.reset ∧
      t.inp = (s.edges (k + 1)).inp ∧ t.script = (s.edges (k + 1)).script ∧
      t.tickIn = (s.edges (k + 1)).tickIn)

/-- R40, R68: away from reset edges at most one pin changes at an edge, and `sdata` never changes while
`sclk` is high. -/
def Obligations.OnePinChangesPerEdge : Prop :=
  ∀ s : State, s.inp.rst = false →
    let d := s.disp
    let t := s.clockEdge.disp
    ((t.latch = d.latch ∧ t.sclk = d.sclk) ∨ (t.latch = d.latch ∧ t.sdata = d.sdata) ∨
      (t.sclk = d.sclk ∧ t.sdata = d.sdata)) ∧
    (s.SclkLevel → d.sclk = true → t.sdata = d.sdata)

/-- R33: at an edge the receiver shifts exactly when `sclk` rises and commits exactly when `latch`
rises. -/
def Obligations.ReceiverFollowsPins : Prop :=
  ∀ s : State, s.inp.rst = false →
    let t := s.clockEdge
    t.recv.sr = (if s.disp.sclk = false ∧ t.disp.sclk = true
      then s.recv.sr.extractLsb' 0 15 ++ BitVec.ofBool t.disp.sdata else s.recv.sr) ∧
    t.recv.out = (if s.disp.latch = false ∧ t.disp.latch = true then s.recv.sr else s.recv.out)

/-- R42, R82, R123.4: a display with a render in progress does not look at the command port, the
other inputs, the debouncer or the surroundings. -/
def Obligations.BusyDisplaySeesOnlyItself : Prop :=
  ∀ s u : State, s.disp.phase ≠ .idle → s.inp.rst = false → u.inp.rst = false →
    s.params = u.params → s.disp = u.disp → s.recv = u.recv → s.wire = u.wire →
    s.clockEdge.disp = u.clockEdge.disp ∧ s.clockEdge.recv = u.clockEdge.recv ∧
    s.clockEdge.wire = u.clockEdge.wire

/-- R84: the edges of one render. With the accepting edge as edge 0, `S n` is the state after edge
`n`; whatever the host and the inputs do meanwhile, short of a reset. -/
def Obligations.RenderCycleTimes : Prop :=
  ∀ (s : State) (c : Cmd), s.NoReset → s.disp.phase = .idle → s.PinsAtRest →
    1 ≤ s.params.dwellCycles → s.drive.cmd = some c →
    let N := s.params.dwellCycles
    let S := fun n => s.edges (n + 1)
    (∀ p : Position,
      let o := p.toNat * (50 + N)
      let w := frameWord s.params c p
      ((S o).disp.latch = true ∧ (S (o + 1)).disp.latch = false) ∧
      (∀ k, k < 16 →
        (S (o + 2 + 3 * k)).disp.sdata = w.getLsbD (15 - k) ∧
        (S (o + 2 + 3 * k)).disp.sclk = false ∧ (S (o + 3 + 3 * k)).disp.sclk = true ∧
        (S (o + 4 + 3 * k)).disp.sclk = false) ∧
      ((S (o + 49)).disp.latch = false ∧ (S (o + 50)).disp.latch = true ∧
        (S (o + 50)).recv.out = w) ∧
      ((S (o + 49 + N)).disp.phase = .dwell ∧ (S (o + 50 + N)).disp.phase ≠ .dwell)) ∧
    (∀ n, n < 4 * (50 + N) → (S n).disp.phase ≠ .idle ∧ (S n).disp.done = false) ∧
    (S (4 * (50 + N))).disp.phase = .idle ∧ (S (4 * (50 + N))).disp.done = true

/-- R75 against R82 to R84: the operation RENDER, the sequencer and the event level agree. Whatever host
presents the command to an idle display, `4 * (50 + DWELL_CYCLES)` edges after the accepting edge the
display, the receiver and the wire are what the operation leaves, and with another host than the main
loop so is the whole machine; and the operation leaves display, receiver and wire as four times
WRITEFRAME and DWELL do at the event level (`State.render`). -/
def Obligations.SequencerImplementsRender : Prop :=
  ∀ (s t : State) (c : Cmd), s.NoReset → s.disp.phase = .idle → s.PinsAtRest →
    1 ≤ s.params.dwellCycles → exec (.render c.dpEn c.dpIdx c.value) s = .next t →
    let u := s.edges (1 + 4 * (50 + s.params.dwellCycles))
    (s.drive.cmd = some c →
      u.disp = t.disp ∧ u.recv = t.recv ∧ u.wire = t.wire ∧ (s.host = .off → u = t)) ∧
    t.disp = (s.render c).disp ∧ t.recv = (s.render c).recv ∧ t.wire = (s.render c).wire

/-! ### Reset -/

/-- R140: at an edge with `rst = 1` every register of both blocks takes its reset value, whatever the
state and the other inputs. -/
def Obligations.ResetEdgeLoadsResetValues : Prop :=
  ∀ s : State, s.inp.rst = true →
    s.clockEdge.disp =
      { phase := .idle, pos := 0, bitcnt := 0, valQ := 0, dpEnQ := false, dpIdxQ := 0, frame := 0
        dwellCnt := 0, latch := true, sclk := false, sdata := false, done := false } ∧
    s.clockEdge.deb = { phase := .ready, cnt := 0, clkReset := false, dbPass := false }

/-- R36, R142: a reset edge in the middle of a frame makes the receiver commit its shift chain as it
stands; with `latch` high it changes nothing of the receiver. -/
def Obligations.ResetMidFrameCommitsShiftChain : Prop :=
  ∀ s : State, s.inp.rst = true →
    s.clockEdge.recv.sr = s.recv.sr ∧
    s.clockEdge.recv.out = (if s.disp.latch = false then s.recv.sr else s.recv.out)

/-- R26, R141: after reset the block is idle and ready, and the surroundings have the initial values
the document gives. -/
def Obligations.ResetStateValues : Prop :=
  let r := State.reset
  r.cmdReady = true ∧ r.busy = false ∧ r.disp.done = false ∧ r.disp.latch = true ∧
  r.disp.sclk = false ∧ r.disp.sdata = false ∧ r.dbBusy = false ∧ r.deb.dbPass = false ∧
  r.deb.clkReset = false ∧ r.clock = ⟨0, 0⟩ ∧ r.volt.minObserved = r.params.fullScale ∧
  r.volt.maxObserved = 0

/-! ### Debouncer -/

/-- R91, R94, R123: DBSAMPLE on a ready debouncer completes: it is the clock edge of the whole machine at
which a pressed button raises `clk_reset` and starts the block, and an idle one raises `db_pass`;
everything else is as after an edge without the request. -/
def Obligations.DbsampleCompletes : Prop :=
  ∀ s : State, s.deb.phase = .ready → s.inp.rst = false →
    (s.inp.btnN = false →
      exec .dbsample s = .next
        { s.clockEdge with deb := ⟨.block, s.params.debounceCycles, true, false⟩ }.advanceInputs) ∧
    (s.inp.btnN = true →
      exec .dbsample s = .next
        { s.clockEdge with deb := ⟨.ready, s.deb.cnt, false, true⟩ }.advanceInputs)

/-- R92, R94, R101, R123: DBWAIT while blocking completes: it is a clock edge of the whole machine, which
counts down and at the last count makes the debouncer ready with `db_pass = 1`; if it sees
`clk_reset = 1`, as the first DBWAIT of a block does, CLKRESET fires with it (log 22). -/
def Obligations.DbwaitCompletes : Prop :=
  ∀ s : State, s.deb.phase = .block → s.inp.rst = false →
    exec .dbwait s = .next s.clockEdge.advanceInputs ∧
    s.clockEdge.deb = (if 1 < s.deb.cnt then ⟨.block, s.deb.cnt - 1, false, false⟩
      else ⟨.ready, s.deb.cnt, false, true⟩) ∧
    (s.deb.clkReset = true → 1 < s.tickIn → s.clockEdge.clock = ⟨0, 0⟩)

/-- R92, R95: a pressed sample blocks for exactly DEBOUNCE_CYCLES edges, whatever the button,
`sample_en` and the host do meanwhile; `clk_reset` is 1 for the first of them only, and `db_pass`
comes at the end and not before. -/
def Obligations.BlockLastsDebounceCycles : Prop :=
  ∀ s : State, s.NoReset → 1 ≤ s.params.debounceCycles → s.deb.phase = .ready →
    s.drive.sampleEn = true → s.inp.btnN = false →
    let M := s.params.debounceCycles
    (s.edges 1).deb = ⟨.block, M, true, false⟩ ∧
    (∀ j, 1 ≤ j → j < M → (s.edges (1 + j)).deb = ⟨.block, M - j, false, false⟩) ∧
    (s.edges (1 + M)).deb = ⟨.ready, 1, false, true⟩

/-- R17, R94: the arms of the debouncer's step function, one clock edge with `rst = 0`; both pulses fall
unless the arm raises one. With another host (`host = off`) the sample request is the port
`sample_en`. -/
def Obligations.DebouncerArms : Prop :=
  ∀ s : State, s.inp.rst = false →
    let d := s.deb
    let t := s.clockEdge.deb
    (d.phase = .ready → s.drive.sampleEn = false → t = ⟨.ready, d.cnt, false, false⟩) ∧
    (d.phase = .ready → s.drive.sampleEn = true → s.inp.btnN = false →
      t = ⟨.block, s.params.debounceCycles, true, false⟩) ∧
    (d.phase = .ready → s.drive.sampleEn = true → s.inp.btnN = true →
      t = ⟨.ready, d.cnt, false, true⟩) ∧
    (d.phase = .block → 1 < d.cnt → t = ⟨.block, d.cnt - 1, false, false⟩) ∧
    (d.phase = .block → d.cnt ≤ 1 → t = ⟨.ready, d.cnt, false, true⟩) ∧
    (s.host = .off → d.phase = .ready →
      (s.inp.sampleEn = false → t = ⟨.ready, d.cnt, false, false⟩) ∧
      (s.inp.sampleEn = true → s.inp.btnN = false →
        t = ⟨.block, s.params.debounceCycles, true, false⟩) ∧
      (s.inp.sampleEn = true → s.inp.btnN = true → t = ⟨.ready, d.cnt, false, true⟩))

/-- R90, R92: what the edges of DBWAIT leave is what one blocking wait leaves (`Debouncer.waitOut`). -/
def Obligations.WaitOutIsEveryDbwait : Prop :=
  ∀ d : Debouncer, d.phase = .block → 1 ≤ d.cnt →
    (fun e : Debouncer => e.clearPulses.wait)^[d.cnt] d = d.waitOut ∧
    ∀ j, j < d.cnt → ((fun e : Debouncer => e.clearPulses.wait)^[j] d).phase = .block

/-! ### Surroundings -/

/-- R100: TICK completes in every state: seconds up by one, at 60 to 0 with minutes up by one modulo
100; nothing else changes. -/
def Obligations.TickAdvancesClock : Prop :=
  ∀ s : State, ∃ c : Clock, exec .tick s = .next { s with clock := c } ∧
    (s.clock.seconds.val + 1 < 60 →
      c.seconds.val = s.clock.seconds.val + 1 ∧ c.minutes = s.clock.minutes) ∧
    (s.clock.seconds.val + 1 = 60 →
      c.seconds.val = 0 ∧ c.minutes.val = (s.clock.minutes.val + 1) % 100)

/-- R102: after `n` TICKs from (0, 0) the clock is (n mod 60, (n / 60) mod 100), and the value SHOWCLOCK
forms is at most 9959. -/
def Obligations.TicksCountSecondsAndMinutes : Prop :=
  (∀ n : Nat,
    (Clock.tick^[n] ⟨0, 0⟩).seconds.val = n % 60 ∧
    (Clock.tick^[n] ⟨0, 0⟩).minutes.val = n / 60 % 100) ∧
  Clock.tick^[60] ⟨0, 0⟩ = ⟨0, 1⟩ ∧ Clock.tick^[6000] ⟨0, 0⟩ = ⟨0, 0⟩ ∧
  (∀ (m : Fin 100) (sec : Fin 60),
    (clockCmd m sec).value = m.val * 100 + sec.val ∧ (clockCmd m sec).value ≤ 9959)

/-- R101, R123.5: CLKRESET completes in every state and writes the clock only: (0, 0), or (1, 0) when
a TICK follows; if its two writes can be separated, a TICK between them is as R101 says. -/
def Obligations.ClkresetZeroesClock : Prop :=
  ∀ s : State, ∃ c : Clock, exec .clkreset s = .next { s with clock := c } ∧
    (s.inp.tickReset = .never ∨ s.inp.tickReset = .before → c = ⟨0, 0⟩) ∧
    (s.inp.tickReset = .after → c = ⟨1, 0⟩) ∧
    (s.inp.tickReset = .between →
      (s.params.resetAtomic = true → c = ⟨0, 0⟩) ∧
      (s.params.resetAtomic = false → s.params.resetMinutesFirst = true →
        c = if s.clock.seconds = 59 then ⟨0, 1⟩ else ⟨0, 0⟩) ∧
      (s.params.resetAtomic = false → s.params.resetMinutesFirst = false → c = ⟨1, 0⟩))

/-- R103, R104: VUPDATE completes in every state and writes the tracker only; the extremes widen to
include the new voltage. -/
def Obligations.VupdateTracksExtremes : Prop :=
  ∀ s : State, ∃ v : Tracker, exec .vupdate s = .next { s with volt := v } ∧
    v.currentVoltage = s.inp.sample * s.params.fullScale ∧
    v.minObserved ≤ v.currentVoltage ∧ v.currentVoltage ≤ v.maxObserved ∧
    v.minObserved ≤ s.volt.minObserved ∧ s.volt.maxObserved ≤ v.maxObserved ∧
    (v.minObserved = s.volt.minObserved ∨ v.minObserved = v.currentVoltage) ∧
    (v.maxObserved = s.volt.maxObserved ∨ v.maxObserved = v.currentVoltage)

/-- R105, ENV_ROUND: the rounded value is a nearest integer, whatever ties do; with the voltage in
[0, 3.3] the operand is that integer and lies in 0..330, for every VALUE_WIDTH that holds values
above 9999 (R5); and the operand always fits VALUE_WIDTH bits. -/
def Obligations.VoltsValueIsNearestInteger : Prop :=
  (∀ x : Rat, x - 1 / 2 ≤ (roundNearest x : Rat) ∧ (roundNearest x : Rat) ≤ x + 1 / 2) ∧
  (∀ (vw : Nat) (v : Rat), 10000 < 2 ^ vw → 0 ≤ v → v ≤ 33 / 10 →
    ((voltsCmd vw v).value : Int) = roundNearest (v * 100) ∧ (voltsCmd vw v).value ≤ 330) ∧
  (∀ (vw : Nat) (v : Rat), (voltsCmd vw v).value < 2 ^ vw)

/-- R105, R109, U5: MODESEL completes when the blocks are ready: one RENDER, as an edge that presents the
command and the edges of the render, of the voltage at decimal point 1 while the mode button reads
pressed, else of `minutes * 100 + seconds` with no point, each of the two read before or after a TICK
that falls at that edge; with `clk_reset` answered at that edge it is 0. -/
def Obligations.ModeselCompletes : Prop :=
  ∀ s : State, s.disp.phase = .idle → s.deb.phase = .ready → s.NoReset → s.PinsAtRest →
    1 ≤ s.params.dwellCycles →
    ∃ c : Cmd,
      let t := (s.clockEdgeWith ⟨false, some c⟩).advanceInputs.edges (4 * (50 + s.params.dwellCycles))
      exec .modesel s = .next t ∧
      t.disp = (s.rendered c).disp ∧ t.recv = (s.rendered c).recv ∧ t.wire = (s.rendered c).wire ∧
      (s.inp.modeN = false →
        c = ⟨true, 1,
          valueOperand s.params.valueWidth (roundNearest (s.volt.currentVoltage * 100))⟩) ∧
      (s.inp.modeN = true →
        c.dpEn = false ∧
        (s.deb.clkReset = true → 1 < s.tickIn → c.value = 0) ∧
        (s.deb.clkReset = false →
          ∃ m sec, c.value = m * 100 + sec ∧
            (1 < s.tickIn ∨ s.inp.tickRead = .after →
              m = s.clock.minutes.val ∧ sec = s.clock.seconds.val) ∧
            (s.tickIn ≤ 1 → s.inp.tickRead = .never ∨ s.inp.tickRead = .before →
              m = s.clock.tick.minutes.val ∧ sec = s.clock.tick.seconds.val) ∧
            (s.tickIn ≤ 1 → s.inp.tickRead = .between → s.params.readMinutesFirst = true →
              m = s.clock.minutes.val ∧ sec = s.clock.tick.seconds.val) ∧
            (s.tickIn ≤ 1 → s.inp.tickRead = .between → s.params.readMinutesFirst = false →
              m = s.clock.tick.minutes.val ∧ sec = s.clock.seconds.val)))

/-- R90, R106, R107, R148: LOOP completes when the blocks are ready: one iteration of the main loop, made of
clock edges of the whole machine, and LOOP is requested again. With `s1` the main loop at step 1: its
first edge samples the reset button; if it is pressed, DEBOUNCE_CYCLES edges of block follow, after
the last of which `db_pass` comes; then the loop overhead is spent; at edge `p` the tracker takes the
sample and the command of MODESEL is presented and accepted; and after the edges of its render the
iteration is over. -/
def Obligations.LoopCompletesOneIteration : Prop :=
  ∀ s : State, s.disp.phase = .idle → s.deb.phase = .ready → s.NoReset → s.PinsAtRest →
    s.params.wellFormed = true →
    let s1 := { s with host := .step1 }
    let k := 1 + if s.inp.btnN = false then s.params.debounceCycles else 0
    let p := k + (s1.edges k).inp.overhead
    let w := s1.edges p
    let t := s1.edges (p + 1 + 4 * (50 + s.params.dwellCycles))
    let v := s.volt.update s.params w.inp.sample
    let c := modeCmd s.params w.inp.modeN v.currentVoltage w.clockAfterReset w.readTick
    exec .loop s = .next { t with pending := encode s.params.valueWidth .loop :: s.pending } ∧
    (s.inp.btnN = false → (s1.edges 1).deb = ⟨.block, s.params.debounceCycles, true, false⟩) ∧
    (s1.edges k).deb = ⟨.ready, if s.inp.btnN = false then 1 else s.deb.cnt, false, true⟩ ∧
    (∀ j, j ≤ p → (s1.edges j).volt = s.volt ∧ (s1.edges j).disp.phase = .idle) ∧
    t.volt = v ∧ t.host = .waitDone ∧
    t.deb = ⟨.ready, if s.inp.btnN = false then 1 else s.deb.cnt, false, false⟩ ∧
    t.disp = (s.rendered c).disp ∧ t.recv = (s.rendered c).recv ∧ t.wire = (s.rendered c).wire ∧
    t.params = s.params ∧ t.result = s.result

/-- R107 and log 19: MODESEL and LOOP wait, still requested, while a block is busy or in reset. -/
def Obligations.LoopOperationsWaitForBlocks : Prop :=
  ∀ s : State, (s.disp.phase ≠ .idle ∨ s.deb.phase = .block ∨ s.inp.rst = true) →
    exec .modesel s = .next
      { s with pending := encode s.params.valueWidth .modesel :: s.pending }.clockEdge.advanceInputs ∧
    exec .loop s = .next
      { s with pending := encode s.params.valueWidth .loop :: s.pending }.clockEdge.advanceInputs

/-- R20, R100, R101, R112: at an edge the clock moves only for a TICK of the periodic source or for a
`clk_reset` pulse; with both, the outcome is (0, 0) if the TICK comes first, (1, 0) if it comes after,
and with separable writes a TICK between them is as R101 says. -/
def Obligations.ClockMovesOnlyByTickOrReset : Prop :=
  ∀ s : State,
    (s.deb.clkReset = false → 1 < s.tickIn → s.clockEdge.clock = s.clock) ∧
    (s.deb.clkReset = false → s.tickIn ≤ 1 → s.clockEdge.clock = s.clock.tick) ∧
    (s.deb.clkReset = true → 1 < s.tickIn → s.clockEdge.clock = ⟨0, 0⟩) ∧
    (s.deb.clkReset = true → s.tickIn ≤ 1 →
      (s.inp.tickReset = .never ∨ s.inp.tickReset = .before → s.clockEdge.clock = ⟨0, 0⟩) ∧
      (s.inp.tickReset = .after → s.clockEdge.clock = ⟨1, 0⟩) ∧
      (s.inp.tickReset = .between →
        (s.params.resetAtomic = true → s.clockEdge.clock = ⟨0, 0⟩) ∧
        (s.params.resetAtomic = false → s.params.resetMinutesFirst = true →
          s.clockEdge.clock = if s.clock.seconds = 59 then ⟨0, 1⟩ else ⟨0, 0⟩) ∧
        (s.params.resetAtomic = false → s.params.resetMinutesFirst = false →
          s.clockEdge.clock = ⟨1, 0⟩)))

/-- R112: the periodic source fires once every F_CLK_HZ edges. -/
def Obligations.TickEveryClockRate : Prop :=
  ∀ (s : State) (n : Nat), 1 ≤ s.params.fClkHz → 1 ≤ s.tickIn →
    (∀ k, k < s.tickIn → (s.edges k).tickIn = s.tickIn - k) ∧
    (∀ k, k < s.params.fClkHz →
      (s.edges (s.tickIn + n * s.params.fClkHz + k)).tickIn = s.params.fClkHz - k)

/-- R107: a main loop that is in step with the blocks stays so at every clock edge without reset, and
while it is, it never raises `sample_en` while either block is busy nor `cmd_valid` while the
debouncer is. -/
def Obligations.HostKeepsHandshake : Prop :=
  (∀ s : State, s.HostInStep → s.PulsesApart → s.inp.rst = false → s.clockEdge.HostInStep) ∧
  (∀ s : State, s.HostInStep → s.PulsesApart → s.host ≠ .off →
    (s.drive.sampleEn = true → s.busy = false ∧ s.dbBusy = false) ∧
    (s.drive.cmd ≠ none → s.dbBusy = false)) ∧
  State.reset.HostInStep

/-- R107, R103, R105: what the main loop does at a clock edge. Steps 2 and 3 come at the edge at which
`db_pass` has come and the loop overhead is spent: the tracker takes the sample, and the command the
mode button asks for is presented, of the voltage just computed or of the clock as it is read; it is
held until the display is ready, and then `done` is waited for. At no other edge does the main loop
write the tracker. A command that a request keeps off the port is held (log 5). When it is off it stays
off, and the ports are those of the inputs. Where a TICK falls against the reads is an input (logs 13,
14); the agent, and where it spends its overhead, is log 11. -/
def Obligations.MainLoopUpdatesAndPresents : Prop :=
  ∀ s : State,
    let t := s.clockEdge
    let volts := s.inp.sample * s.params.fullScale
    let forms := (s.host = .waitPass ∧ s.deb.dbPass = true ∧ s.inp.overhead = 0) ∨
      (∃ k, s.host = .work k ∧ k ≤ 1)
    let held := fun c : Cmd => if s.disp.phase = .idle then HostPhase.waitDone else .present c
    (forms →
      t.volt = ⟨min s.volt.minObserved volts, max s.volt.maxObserved volts, volts⟩ ∧
      ∃ c : Cmd, s.drive = ⟨false, some c⟩ ∧ t.host = held c ∧
        (∀ b d, (s.clockEdgeWith ⟨b, some d⟩).host = .present c) ∧
        (s.inp.modeN = false →
          c = ⟨true, 1, valueOperand s.params.valueWidth (roundNearest (volts * 100))⟩) ∧
        (s.inp.modeN = true →
          c.dpEn = false ∧
          (s.deb.clkReset = true → 1 < s.tickIn → c.value = 0) ∧
          (s.deb.clkReset = false →
            ∃ m sec, c.value = m * 100 + sec ∧
              (1 < s.tickIn ∨ s.inp.tickRead = .after →
                m = s.clock.minutes.val ∧ sec = s.clock.seconds.val) ∧
              (s.tickIn ≤ 1 → s.inp.tickRead = .never ∨ s.inp.tickRead = .before →
                m = s.clock.tick.minutes.val ∧ sec = s.clock.tick.seconds.val) ∧
              (s.tickIn ≤ 1 → s.inp.tickRead = .between → s.params.readMinutesFirst = true →
                m = s.clock.minutes.val ∧ sec = s.clock.tick.seconds.val) ∧
              (s.tickIn ≤ 1 → s.inp.tickRead = .between → s.params.readMinutesFirst = false →
                m = s.clock.tick.minutes.val ∧ sec = s.clock.seconds.val)))) ∧
    (¬ forms → t.volt = s.volt) ∧
    (s.host = .step1 → s.drive = ⟨true, none⟩ ∧ t.host = .waitPass) ∧
    (s.host = .waitPass → s.deb.dbPass = false → s.drive = ⟨false, none⟩ ∧ t.host = .waitPass) ∧
    (s.host = .waitPass → s.deb.dbPass = true → s.inp.overhead ≠ 0 →
      s.drive = ⟨false, none⟩ ∧ t.host = .work s.inp.overhead) ∧
    (∀ k, s.host = .work k → 1 < k → s.drive = ⟨false, none⟩ ∧ t.host = .work (k - 1)) ∧
    (∀ c, s.host = .present c → s.drive = ⟨false, some c⟩ ∧ t.host = held c ∧
      ∀ b d, (s.clockEdgeWith ⟨b, some d⟩).host = .present c) ∧
    (s.host = .waitDone → s.disp.done = false → s.drive = ⟨false, none⟩ ∧ t.host = .waitDone) ∧
    (s.host = .waitDone → s.disp.done = true → s.drive = ⟨true, none⟩ ∧ t.host = .waitPass) ∧
    (s.host = .off → t.host = .off ∧
      s.drive = ⟨s.inp.sampleEn,
        if s.inp.cmdValid = true then
          some ⟨s.inp.cmd.dpEn, s.inp.cmd.dpIdx, s.inp.cmd.value % 2 ^ s.params.valueWidth⟩
        else none⟩)

/-! ### The whole machine -/

/-- R120: no operation faults or is refused, and a step is refused only for a request that is no word of
its format. -/
def Obligations.NothingFaults : Prop :=
  (∀ (i : Instr) (s : State), ∃ t, exec i s = .next t) ∧
  (∀ s : State, (∀ w, s.pending.head? = some w → w.wellFormed s.params.valueWidth = true) →
    ∃ t, step s = .next t)

/-- R5, R16, R27: no step writes a parameter, the segment table among them. -/
def Obligations.ParametersNeverChange : Prop :=
  ∀ s t : State, step s = .next t → t.params = s.params

/-- R28: the invariants hold after reset. -/
def Obligations.ResetMeetsInvariant : Prop := State.reset.Inv ∧ State.reset.InFlight

/-- R28: every step keeps the invariants: the pin levels of each phase, the ranges of the counters and the
width of `val_q` (R12). -/
def Obligations.StepKeepsInvariant : Prop :=
  ∀ s t : State, s.Inv → step s = .next t → t.Inv

/-- R33, R43, R86: every step keeps the frame in flight whole: what is still in `frame` and what is
already in the shift chain are the two parts of the current frame, and during its dwell exactly that
frame is shown. -/
def Obligations.StepKeepsFrameInFlight : Prop :=
  ∀ s t : State, s.Inv → s.InFlight → step s = .next t → t.InFlight
end

