-- ==== Sys2Proof/Laws/State.lean ====
section
/-! SUPPORT. One lemma per field per update of State: what each named update leaves in each field. -/
set_option Elab.async false

namespace Sys2Proof.Machine

variable (s : State)

@[simp] theorem State.pinWrite_params (line : Pin) (level : Bool) :
    (s.pinWrite line level).params = s.params := rfl
@[simp] theorem State.pinWrite_disp (line : Pin) (level : Bool) :
    (s.pinWrite line level).disp = s.disp.setPin line level := rfl
@[simp] theorem State.pinWrite_recv (line : Pin) (level : Bool) :
    (s.pinWrite line level).recv = s.recv.observe s.disp (s.disp.setPin line level) := rfl
@[simp] theorem State.pinWrite_deb (line : Pin) (level : Bool) :
    (s.pinWrite line level).deb = s.deb := rfl
@[simp] theorem State.pinWrite_clock (line : Pin) (level : Bool) :
    (s.pinWrite line level).clock = s.clock := rfl
@[simp] theorem State.pinWrite_volt (line : Pin) (level : Bool) :
    (s.pinWrite line level).volt = s.volt := rfl
@[simp] theorem State.pinWrite_host (line : Pin) (level : Bool) :
    (s.pinWrite line level).host = s.host := rfl
@[simp] theorem State.pinWrite_tickIn (line : Pin) (level : Bool) :
    (s.pinWrite line level).tickIn = s.tickIn := rfl
@[simp] theorem State.pinWrite_inp (line : Pin) (level : Bool) :
    (s.pinWrite line level).inp = s.inp := rfl
@[simp] theorem State.pinWrite_script (line : Pin) (level : Bool) :
    (s.pinWrite line level).script = s.script := rfl
@[simp] theorem State.pinWrite_pending (line : Pin) (level : Bool) :
    (s.pinWrite line level).pending = s.pending := rfl
@[simp] theorem State.pinWrite_result (line : Pin) (level : Bool) :
    (s.pinWrite line level).result = s.result := rfl
@[simp] theorem State.pinWrite_wire (line : Pin) (level : Bool) :
    (s.pinWrite line level).wire = .pin line level :: s.wire := rfl

@[simp] theorem State.holdWire_params (n : Nat) : (s.holdWire n).params = s.params := rfl
@[simp] theorem State.holdWire_disp (n : Nat) : (s.holdWire n).disp = s.disp := rfl
@[simp] theorem State.holdWire_recv (n : Nat) : (s.holdWire n).recv = s.recv := rfl
@[simp] theorem State.holdWire_deb (n : Nat) : (s.holdWire n).deb = s.deb := rfl
@[simp] theorem State.holdWire_clock (n : Nat) : (s.holdWire n).clock = s.clock := rfl
@[simp] theorem State.holdWire_volt (n : Nat) : (s.holdWire n).volt = s.volt := rfl
@[simp] theorem State.holdWire_host (n : Nat) : (s.holdWire n).host = s.host := rfl
@[simp] theorem State.holdWire_tickIn (n : Nat) : (s.holdWire n).tickIn = s.tickIn := rfl
@[simp] theorem State.holdWire_inp (n : Nat) : (s.holdWire n).inp = s.inp := rfl
@[simp] theorem State.holdWire_script (n : Nat) : (s.holdWire n).script = s.script := rfl
@[simp] theorem State.holdWire_pending (n : Nat) : (s.holdWire n).pending = s.pending := rfl
@[simp] theorem State.holdWire_result (n : Nat) : (s.holdWire n).result = s.result := rfl
@[simp] theorem State.holdWire_wire (n : Nat) : (s.holdWire n).wire = addWait n s.wire := rfl

@[simp] theorem State.goto_params (ph : Phase) : (s.goto ph).params = s.params := rfl
@[simp] theorem State.goto_disp (ph : Phase) :
    (s.goto ph).disp = { s.disp with phase := ph } := rfl
@[simp] theorem State.goto_recv (ph : Phase) : (s.goto ph).recv = s.recv := rfl
@[simp] theorem State.goto_deb (ph : Phase) : (s.goto ph).deb = s.deb := rfl
@[simp] theorem State.goto_clock (ph : Phase) : (s.goto ph).clock = s.clock := rfl
@[simp] theorem State.goto_volt (ph : Phase) : (s.goto ph).volt = s.volt := rfl
@[simp] theorem State.goto_host (ph : Phase) : (s.goto ph).host = s.host := rfl
@[simp] theorem State.goto_tickIn (ph : Phase) : (s.goto ph).tickIn = s.tickIn := rfl
@[simp] theorem State.goto_inp (ph : Phase) : (s.goto ph).inp = s.inp := rfl
@[simp] theorem State.goto_script (ph : Phase) : (s.goto ph).script = s.script := rfl
@[simp] theorem State.goto_pending (ph : Phase) : (s.goto ph).pending = s.pending := rfl
@[simp] theorem State.goto_result (ph : Phase) : (s.goto ph).result = s.result := rfl
@[simp] theorem State.goto_wire (ph : Phase) : (s.goto ph).wire = s.wire := rfl

@[simp] theorem State.clearDone_params : (s.clearDone).params = s.params := rfl
@[simp] theorem State.clearDone_disp : (s.clearDone).disp = { s.disp with done := false } := rfl
@[simp] theorem State.clearDone_recv : (s.clearDone).recv = s.recv := rfl
@[simp] theorem State.clearDone_deb : (s.clearDone).deb = s.deb := rfl
@[simp] theorem State.clearDone_clock : (s.clearDone).clock = s.clock := rfl
@[simp] theorem State.clearDone_volt : (s.clearDone).volt = s.volt := rfl
@[simp] theorem State.clearDone_host : (s.clearDone).host = s.host := rfl
@[simp] theorem State.clearDone_tickIn : (s.clearDone).tickIn = s.tickIn := rfl
@[simp] theorem State.clearDone_inp : (s.clearDone).inp = s.inp := rfl
@[simp] theorem State.clearDone_script : (s.clearDone).script = s.script := rfl
@[simp] theorem State.clearDone_pending : (s.clearDone).pending = s.pending := rfl
@[simp] theorem State.clearDone_result : (s.clearDone).result = s.result := rfl
@[simp] theorem State.clearDone_wire : (s.clearDone).wire = s.wire := rfl

@[simp] theorem State.accept_params (c : Cmd) : (s.accept c).params = s.params := rfl
@[simp] theorem State.accept_disp (c : Cmd) :
    (s.accept c).disp = { s.disp with
      valQ := c.value, dpEnQ := c.dpEn, dpIdxQ := c.dpIdx, pos := 0
      frame := frameWord s.params c 0, phase := .latchLo, done := false } := rfl
@[simp] theorem State.accept_recv (c : Cmd) : (s.accept c).recv = s.recv := rfl
@[simp] theorem State.accept_deb (c : Cmd) : (s.accept c).deb = s.deb := rfl
@[simp] theorem State.accept_clock (c : Cmd) : (s.accept c).clock = s.clock := rfl
@[simp] theorem State.accept_volt (c : Cmd) : (s.accept c).volt = s.volt := rfl
@[simp] theorem State.accept_host (c : Cmd) : (s.accept c).host = s.host := rfl
@[simp] theorem State.accept_tickIn (c : Cmd) : (s.accept c).tickIn = s.tickIn := rfl
@[simp] theorem State.accept_inp (c : Cmd) : (s.accept c).inp = s.inp := rfl
@[simp] theorem State.accept_script (c : Cmd) : (s.accept c).script = s.script := rfl
@[simp] theorem State.accept_pending (c : Cmd) : (s.accept c).pending = s.pending := rfl
@[simp] theorem State.accept_result (c : Cmd) : (s.accept c).result = s.result := rfl
@[simp] theorem State.accept_wire (c : Cmd) : (s.accept c).wire = s.wire := rfl

@[simp] theorem State.returns_params (b : Byte) : (s.returns b).params = s.params := rfl
@[simp] theorem State.returns_disp (b : Byte) : (s.returns b).disp = s.disp := rfl
@[simp] theorem State.returns_recv (b : Byte) : (s.returns b).recv = s.recv := rfl
@[simp] theorem State.returns_deb (b : Byte) : (s.returns b).deb = s.deb := rfl
@[simp] theorem State.returns_clock (b : Byte) : (s.returns b).clock = s.clock := rfl
@[simp] theorem State.returns_volt (b : Byte) : (s.returns b).volt = s.volt := rfl
@[simp] theorem State.returns_host (b : Byte) : (s.returns b).host = s.host := rfl
@[simp] theorem State.returns_tickIn (b : Byte) : (s.returns b).tickIn = s.tickIn := rfl
@[simp] theorem State.returns_inp (b : Byte) : (s.returns b).inp = s.inp := rfl
@[simp] theorem State.returns_script (b : Byte) : (s.returns b).script = s.script := rfl
@[simp] theorem State.returns_pending (b : Byte) : (s.returns b).pending = s.pending := rfl
@[simp] theorem State.returns_result (b : Byte) : (s.returns b).result = b := rfl
@[simp] theorem State.returns_wire (b : Byte) : (s.returns b).wire = s.wire := rfl

@[simp] theorem State.resetBlocks_params : (s.resetBlocks).params = s.params := rfl
@[simp] theorem State.resetBlocks_disp : (s.resetBlocks).disp = Display.reset := rfl
@[simp] theorem State.resetBlocks_recv :
    (s.resetBlocks).recv = s.recv.observe s.disp Display.reset := rfl
@[simp] theorem State.resetBlocks_deb : (s.resetBlocks).deb = Debouncer.reset := rfl
@[simp] theorem State.resetBlocks_clock : (s.resetBlocks).clock = s.clock := rfl
@[simp] theorem State.resetBlocks_volt : (s.resetBlocks).volt = s.volt := rfl
@[simp] theorem State.resetBlocks_host : (s.resetBlocks).host = s.host := rfl
@[simp] theorem State.resetBlocks_tickIn : (s.resetBlocks).tickIn = s.tickIn := rfl
@[simp] theorem State.resetBlocks_inp : (s.resetBlocks).inp = s.inp := rfl
@[simp] theorem State.resetBlocks_script : (s.resetBlocks).script = s.script := rfl
@[simp] theorem State.resetBlocks_pending : (s.resetBlocks).pending = s.pending := rfl
@[simp] theorem State.resetBlocks_result : (s.resetBlocks).result = s.result := rfl
@[simp] theorem State.resetBlocks_wire : (s.resetBlocks).wire = .reset :: s.wire := rfl

@[simp] theorem State.edgeSurroundings_params (mine : Bool) : (s.edgeSurroundings mine).params = s.params := rfl
@[simp] theorem State.edgeSurroundings_disp (mine : Bool) : (s.edgeSurroundings mine).disp = s.disp := rfl
@[simp] theorem State.edgeSurroundings_recv (mine : Bool) : (s.edgeSurroundings mine).recv = s.recv := rfl
@[simp] theorem State.edgeSurroundings_deb (mine : Bool) : (s.edgeSurroundings mine).deb = s.deb := rfl
@[simp] theorem State.edgeSurroundings_clock (mine : Bool) :
    (s.edgeSurroundings mine).clock = s.clockAfterReset.afterRead s.readTick := rfl
@[simp] theorem State.edgeSurroundings_volt (mine : Bool) : (s.edgeSurroundings mine).volt = s.voltAfter := rfl
@[simp] theorem State.edgeSurroundings_host (mine : Bool) : (s.edgeSurroundings mine).host = s.hostAfter mine := rfl
@[simp] theorem State.edgeSurroundings_tickIn (mine : Bool) :
    (s.edgeSurroundings mine).tickIn = if s.tickFires then s.params.fClkHz else s.tickIn - 1 := rfl
@[simp] theorem State.edgeSurroundings_inp (mine : Bool) : (s.edgeSurroundings mine).inp = s.inp := rfl
@[simp] theorem State.edgeSurroundings_script (mine : Bool) : (s.edgeSurroundings mine).script = s.script := rfl
@[simp] theorem State.edgeSurroundings_pending (mine : Bool) : (s.edgeSurroundings mine).pending = s.pending := rfl
@[simp] theorem State.edgeSurroundings_result (mine : Bool) : (s.edgeSurroundings mine).result = s.result := rfl
@[simp] theorem State.edgeSurroundings_wire (mine : Bool) : (s.edgeSurroundings mine).wire = s.wire := rfl

@[simp] theorem State.advanceInputs_params : s.advanceInputs.params = s.params := by
  unfold State.advanceInputs; split <;> rfl
@[simp] theorem State.advanceInputs_disp : s.advanceInputs.disp = s.disp := by
  unfold State.advanceInputs; split <;> rfl
@[simp] theorem State.advanceInputs_recv : s.advanceInputs.recv = s.recv := by
  unfold State.advanceInputs; split <;> rfl
@[simp] theorem State.advanceInputs_deb : s.advanceInputs.deb = s.deb := by
  unfold State.advanceInputs; split <;> rfl
@[simp] theorem State.advanceInputs_clock : s.advanceInputs.clock = s.clock := by
  unfold State.advanceInputs; split <;> rfl
@[simp] theorem State.advanceInputs_volt : s.advanceInputs.volt = s.volt := by
  unfold State.advanceInputs; split <;> rfl
@[simp] theorem State.advanceInputs_host : s.advanceInputs.host = s.host := by
  unfold State.advanceInputs; split <;> rfl
@[simp] theorem State.advanceInputs_tickIn : s.advanceInputs.tickIn = s.tickIn := by
  unfold State.advanceInputs; split <;> rfl
@[simp] theorem State.advanceInputs_pending : s.advanceInputs.pending = s.pending := by
  unfold State.advanceInputs; split <;> rfl
@[simp] theorem State.advanceInputs_result : s.advanceInputs.result = s.result := by
  unfold State.advanceInputs; split <;> rfl
@[simp] theorem State.advanceInputs_wire : s.advanceInputs.wire = s.wire := by
  unfold State.advanceInputs; split <;> rfl


/-- The three pins and the other display registers after a pin write. -/
@[simp] theorem Display.setPin_latch (d : Display) (level : Bool) :
    d.setPin .latch level = { d with latch := level } := rfl
@[simp] theorem Display.setPin_sclk (d : Display) (level : Bool) :
    d.setPin .sclk level = { d with sclk := level } := rfl
@[simp] theorem Display.setPin_sdata (d : Display) (level : Bool) :
    d.setPin .sdata level = { d with sdata := level } := rfl

end Sys2Proof.Machine
end

