-- ==== Sys2Proof/Laws/Ops.lean ====
section
/-! SUPPORT. One lemma per shared operation: what it can do, once. -/
set_option Elab.async false

namespace Sys2Proof.Machine

/-! ### Waits and inputs -/

@[simp] theorem addWait_pin (n : Nat) (l : Pin) (b : Bool) (w : List WireEvent) :
    addWait n (.pin l b :: w) = .wait n :: .pin l b :: w := rfl

@[simp] theorem addWait_wait (n k : Nat) (w : List WireEvent) :
    addWait n (.wait k :: w) = .wait (k + n) :: w := rfl

theorem addWait_addWait (m n : Nat) (w : List WireEvent) :
    addWait n (addWait m w) = addWait (m + n) w := by
  cases w with
  | nil => rfl
  | cons e rest => cases e <;> simp [addWait, Nat.add_assoc]

/-- No reset edge comes: a fact about the inputs, which moving on keeps. -/
theorem NoReset_advanceInputs {s : State} (h : s.NoReset) : s.advanceInputs.NoReset := by
  unfold State.advanceInputs
  split
  · exact h
  · next i rest hs =>
    refine ⟨h.2 i (by simp [hs]), fun j hj => h.2 j ?_⟩
    simp only [hs, List.mem_cons]
    exact .inr hj

/-! ### Requests -/

theorem ifDisplayFree_free {s : State} (h : s.displayFree = true) (f : State → State) :
    ifDisplayFree s f = .next (f s) := by simp [ifDisplayFree, h]

theorem ifDisplayFree_not_free {s : State} (h : s.displayFree = false) (f : State → State) :
    ifDisplayFree s f = .next s.nextEdge := by simp [ifDisplayFree, turnedAway, h]

/-- If a request of the display unit answers next, it was taken or an ordinary clock edge passed. -/
theorem ifDisplayFree_next {s t : State} {f : State → State} (h : ifDisplayFree s f = .next t) :
    (s.displayFree = true ∧ t = f s) ∨ (s.displayFree = false ∧ t = s.nextEdge) := by
  cases hs : s.displayFree with
  | true => rw [ifDisplayFree_free hs] at h; exact .inl ⟨rfl, by cases h; rfl⟩
  | false => rw [ifDisplayFree_not_free hs] at h; exact .inr ⟨rfl, by cases h; rfl⟩

theorem displayFree_iff {s : State} :
    s.displayFree = true ↔ s.disp.phase = .idle ∧ s.inp.rst = false := by
  simp [State.displayFree, State.cmdReady]

theorem samplerFree_iff {s : State} :
    s.samplerFree = true ↔ s.deb.phase = .ready ∧ s.inp.rst = false := by
  simp [State.samplerFree]

/-! ### Two bytes as one word -/

theorem word_getLsbD (x y : Byte) (i : Nat) :
    BitVec.getLsbD (w := 16) (x ++ y) i = if i < 8 then y.getLsbD i else x.getLsbD (i - 8) := by
  have h := BitVec.getLsbD_append (x := x) (y := y) (i := i)
  by_cases hi : i < 8 <;> simpa [hi] using h

theorem word_getElem (x y : Byte) (i : Nat) (h : i < 16) :
    (show BitVec 16 from x ++ y)[i] = if i < 8 then y.getLsbD i else x.getLsbD (i - 8) := by
  rw [← word_getLsbD, BitVec.getLsbD_eq_getElem h]

/-! ### The driver -/

/-- SHIFTBIT between clock pulses (R65): `sdata` takes the bit, the shift chain gains it. -/
theorem shiftBit_spec {s : State} (h : s.disp.sclk = false) (b : Bool) :
    s.shiftBit b =
      { s with
        disp := { s.disp with sdata := b }
        recv := ⟨(s.recv.sr.setWidth 15).concat b, s.recv.out⟩
        wire := [.pin .sclk false, .pin .sclk true, .pin .sdata b] ++ s.wire } := by
  obtain ⟨ps, d, r, _, _, _, _, _, _, _, _, _, w⟩ := s
  obtain ⟨_, _, _, _, _, _, _, _, _, sclk, _, _⟩ := d
  have h' : sclk = false := h
  subst h'
  simp [State.shiftBit, State.pinWrite, Receiver.observe]

/-- The shift chain after the sixteen bits of `w` have gone in is `w` (R33, R35). -/
theorem shift_in_all (r w : Word) :
    (List.range 16).foldl (fun (a : Word) k => (a.setWidth 15).concat (w.getLsbD (15 - k))) r = w := by
  apply BitVec.eq_of_getLsbD_eq
  intro i hi
  have : i = 0 ∨ i = 1 ∨ i = 2 ∨ i = 3 ∨ i = 4 ∨ i = 5 ∨ i = 6 ∨ i = 7 ∨ i = 8 ∨ i = 9 ∨ i = 10 ∨
      i = 11 ∨ i = 12 ∨ i = 13 ∨ i = 14 ∨ i = 15 := by omega
  rcases this with h | h | h | h | h | h | h | h | h | h | h | h | h | h | h | h <;>
    subst h <;> simp [List.range_succ]

/-- A sequence of SHIFTBITs between clock pulses. -/
theorem shiftBits_spec (bits : List Bool) : ∀ {s : State}, s.disp.sclk = false →
    bits.foldl State.shiftBit s =
      { s with
        disp := { s.disp with sdata := bits.getLastD s.disp.sdata }
        recv := ⟨bits.foldl (fun (a : Word) b => (a.setWidth 15).concat b) s.recv.sr, s.recv.out⟩
        wire := (bits.flatMap fun b => [.pin .sdata b, .pin .sclk true, .pin .sclk false]).reverse
          ++ s.wire } := by
  induction bits with
  | nil => intro s _; simp
  | cons b rest ih =>
    intro s h
    rw [List.foldl_cons, ih (by rw [shiftBit_spec h]; exact h), shiftBit_spec h]
    cases rest <;> simp [List.getLastD]

/-- The eight bits of a byte in wire order (R34). -/
def Byte.wireBits (b : Byte) : List Bool := [7, 6, 5, 4, 3, 2, 1, 0].map b.getLsbD

theorem shiftByte_eq_bits (s : State) (b : Byte) :
    s.shiftByte b = (Byte.wireBits b).foldl State.shiftBit s := by
  simp [State.shiftByte, Byte.wireBits]

/-- Eight bits put into the shift chain: the low byte moves up, the byte takes its place (R34). -/
theorem shift_in_byte (r : Word) (b : Byte) :
    (Byte.wireBits b).foldl (fun (a : Word) x => (a.setWidth 15).concat x) r =
      r.extractLsb' 0 8 ++ b := by
  apply BitVec.eq_of_getLsbD_eq
  intro i hi
  have : i = 0 ∨ i = 1 ∨ i = 2 ∨ i = 3 ∨ i = 4 ∨ i = 5 ∨ i = 6 ∨ i = 7 ∨ i = 8 ∨ i = 9 ∨ i = 10 ∨
      i = 11 ∨ i = 12 ∨ i = 13 ∨ i = 14 ∨ i = 15 := by omega
  rcases this with h | h | h | h | h | h | h | h | h | h | h | h | h | h | h | h <;>
    subst h <;> rw [word_getLsbD] <;> simp [Byte.wireBits]

/-- The events of SHIFTBYTE, in time order (R66). -/
def byteEvents (b : Byte) : List WireEvent :=
  (Byte.wireBits b).flatMap fun x => [.pin .sdata x, .pin .sclk true, .pin .sclk false]

/-- SHIFTBYTE between clock pulses (R66). -/
theorem shiftByte_spec {s : State} (h : s.disp.sclk = false) (b : Byte) :
    s.shiftByte b =
      { s with
        disp := { s.disp with sdata := b.getLsbD 0 }
        recv := ⟨s.recv.sr.extractLsb' 0 8 ++ b, s.recv.out⟩
        wire := (byteEvents b).reverse ++ s.wire } := by
  rw [shiftByte_eq_bits, shiftBits_spec _ h, shift_in_byte]
  simp [Byte.wireBits, List.getLastD, byteEvents]

/-- The sixteen bits of a frame are those of its two bytes (R35). -/
theorem frameEvents_append (seg sel : Byte) :
    frameEvents (seg ++ sel) =
      .pin .latch false :: (byteEvents seg ++ byteEvents sel ++ [.pin .latch true]) := by
  simp only [frameEvents, word_getLsbD]
  simp [byteEvents, Byte.wireBits, List.range_succ]

/-- WRITEFRAME from rest (R67): the frame is committed. -/
theorem writeFrame_spec {s : State} (h : s.PinsAtRest) (seg sel : Byte) :
    s.writeFrame seg sel =
      { s with
        disp := { s.disp with latch := true, sdata := sel.getLsbD 0 }
        recv := ⟨seg ++ sel, seg ++ sel⟩
        wire := (frameEvents (seg ++ sel)).reverse ++ s.wire } := by
  obtain ⟨hl, hc⟩ := h
  have h1 : (s.pinWrite .latch false).disp.sclk = false := by simpa using hc
  unfold State.writeFrame
  rw [shiftByte_spec h1, shiftByte_spec (by exact h1)]
  have happ : ∀ r : BitVec 8,
      BitVec.extractLsb' 0 8 (r ++ seg) ++ sel = seg ++ sel := by
    intro r
    congr 1
    apply BitVec.eq_of_getLsbD_eq
    intro i hi
    rw [BitVec.getLsbD_extractLsb', word_getLsbD]
    simp [hi]
  simp [State.pinWrite, Receiver.observe, hl, hc, frameEvents_append, happ]

/-! ### The events of a frame, counted -/

@[simp] theorem frameEvents_length (w : Word) : (frameEvents w).length = 50 := by
  simp [frameEvents, List.length_flatMap]

/-- A frame is pin writes and nothing else (R67). -/
theorem frameEvents_pins (w : Word) :
    ((frameEvents w).filter fun x => match x with | .pin _ _ => true | _ => false) = frameEvents w := by
  rw [List.filter_eq_self]
  intro x hx
  simp only [frameEvents, List.mem_append, List.mem_cons, List.mem_flatMap] at hx
  rcases hx with (rfl | ⟨k, -, rfl | rfl | rfl | h⟩) | rfl | h <;> first | rfl | cases h

@[simp] theorem frameEvents_count_wait (w : Word) (n : Nat) : (frameEvents w).count (.wait n) = 0 := by
  rw [List.count_eq_zero]
  intro hx
  simp [frameEvents] at hx

@[simp] theorem frameEvents_count_latch (w : Word) (b : Bool) :
    (frameEvents w).count (.pin .latch b) = 1 := by
  cases b <;> simp [frameEvents, List.count_flatMap, Function.comp_def]

@[simp] theorem frameEvents_count_sclk (w : Word) (b : Bool) :
    (frameEvents w).count (.pin .sclk b) = 16 := by
  cases b <;> simp [frameEvents, List.count_flatMap, Function.comp_def]

/-! ### The width of the `value` operand -/

theorem onPort_value_lt (c : Cmd) (vw : Nat) : (c.onPort vw).value < 2 ^ vw :=
  Nat.mod_lt _ (Nat.two_pow_pos vw)

/-- Whatever a voltage rounds to, the operand made of it fits (R5, D4). -/
theorem valueOperand_lt (vw : Nat) (n : Int) : valueOperand vw n < 2 ^ vw := by
  unfold valueOperand
  split
  · next h =>
    have h2 : (n.toNat : Int) < ((2 ^ vw : Nat) : Int) := by
      rw [Int.toNat_of_nonneg h.1]
      simpa using h.2
    exact Int.ofNat_lt.mp h2
  · exact Nat.mod_lt _ (Nat.two_pow_pos vw)

/-- What the main loop presents fits every legal VALUE_WIDTH (R5, R102). -/
theorem modeCmd_value_lt {ps : Params} (h : 10000 < 2 ^ ps.valueWidth) (modeN : Bool) (v : Rat)
    (c : Clock) (tickAt : TickPoint) : (modeCmd ps modeN v c tickAt).value < 2 ^ ps.valueWidth := by
  unfold modeCmd
  split
  · exact valueOperand_lt _ _
  · have hm := (c.read ps tickAt).1.isLt
    have hs := (c.read ps tickAt).2.isLt
    show (c.read ps tickAt).1.val * 100 + (c.read ps tickAt).2.val < _
    omega

end Sys2Proof.Machine
end

