-- ==== Sys2Proof/Laws/Sequencer.lean ====
section
/-! SUPPORT. The sequencer: a whole position, a whole render, and one edge as a function of the display
unit alone. -/
set_option Elab.async false

namespace Sys2Proof.Machine

/-- A frame split into its two bytes is the frame (R48). -/
theorem word_split (w : Word) : w.extractLsb' 8 8 ++ w.extractLsb' 0 8 = w := by
  apply BitVec.eq_of_getLsbD_eq
  intro i hi
  rw [word_getLsbD]
  simp only [BitVec.getLsbD_extractLsb']
  by_cases h : i < 8
  · simp [h]
  · have h1 : i - 8 < 8 := by omega
    have h2 : 8 + (i - 8) = i := by omega
    simp [h, h1, h2]

theorem frameWord_low (ps : Params) (c : Cmd) (p : Position) :
    (frameWord ps c p).extractLsb' 0 8 = digitSel p := by
  apply BitVec.eq_of_getLsbD_eq
  intro i hi
  rw [BitVec.getLsbD_extractLsb', frameWord, word_getLsbD]
  simp [hi]

theorem frameWord_high (ps : Params) (c : Cmd) (p : Position) :
    (frameWord ps c p).extractLsb' 8 8 =
      encodeDigit ps (digitAt c.value p) (showDecimal c.dpEn c.dpIdx p) := by
  apply BitVec.eq_of_getLsbD_eq
  intro i hi
  rw [BitVec.getLsbD_extractLsb', frameWord, word_getLsbD]
  have h : ¬ 8 + i < 8 := by omega
  simp [hi, h]

/-- The frame sent by the sequencer from rest (R67, R70). -/
theorem sendFrame_spec {s : State} (h : s.PinsAtRest) :
    s.sendFrame =
      { s with
        disp := { s.disp with
          latch := true, sdata := s.disp.frame.getLsbD 0, frame := 0, bitcnt := 15
          dwellCnt := s.params.dwellCycles, phase := .dwell }
        recv := ⟨s.disp.frame, s.disp.frame⟩
        wire := (frameEvents s.disp.frame).reverse ++ s.wire } := by
  unfold State.sendFrame
  rw [writeFrame_spec h]
  simp [word_split]

/-- A frame and its dwell, from rest (R67, R79). -/
theorem sendFrame_holdDwell_spec {s : State} (h : s.PinsAtRest) (hN : 1 ≤ s.params.dwellCycles) :
    s.sendFrame.holdDwell =
      { s with
        disp := { s.disp with
          latch := true, sdata := s.disp.frame.getLsbD 0, frame := 0, bitcnt := 15
          dwellCnt := 1, phase := .dwell }
        recv := ⟨s.disp.frame, s.disp.frame⟩
        wire := .wait s.params.dwellCycles :: (frameEvents s.disp.frame).reverse ++ s.wire } := by
  rw [sendFrame_spec h]
  simp [State.holdDwell, State.holdWire, frameEvents, hN]

/-- One position from rest (R75): its frame sent, its dwell waited out, and on to the next position, or
the end of the render. -/
theorem renderPosition_spec {s : State} (h : s.PinsAtRest) (hN : 1 ≤ s.params.dwellCycles) :
    s.renderPosition =
      { s with
        disp :=
          { phase := if s.disp.pos = 3 then .idle else .latchLo
            pos := if s.disp.pos = 3 then 3 else s.disp.pos + 1
            bitcnt := 15, valQ := s.disp.valQ, dpEnQ := s.disp.dpEnQ, dpIdxQ := s.disp.dpIdxQ
            frame := if s.disp.pos = 3 then 0
              else frameWord s.params s.disp.latched (s.disp.pos + 1)
            dwellCnt := 1, latch := true, sclk := false, sdata := s.disp.frame.getLsbD 0
            done := decide (s.disp.pos = 3) }
        recv := ⟨s.disp.frame, s.disp.frame⟩
        wire := .wait s.params.dwellCycles :: (frameEvents s.disp.frame).reverse ++ s.wire } := by
  unfold State.renderPosition
  rw [sendFrame_holdDwell_spec h hN]
  have hc := h.2
  by_cases hp : s.disp.pos = 3 <;>
    simp only [State.leaveDwell, hp, hc, Display.latched, if_true, if_false, decide_true, decide_false]

/-- A whole RENDER from rest (R75, R80). -/
theorem render_spec {s : State} (h : s.PinsAtRest) (hN : 1 ≤ s.params.dwellCycles) (c : Cmd) :
    s.render c = s.rendered c := by
  have h0 : (s.accept c).PinsAtRest := h
  have hs : (frameWord s.params c 3#2)[0] = false := by
    rw [← BitVec.getLsbD_eq_getElem, frameWord, word_getLsbD]; simp [digitSel]
  unfold State.render
  rw [renderPosition_spec h0 hN, renderPosition_spec (by exact ⟨rfl, rfl⟩) (by exact hN),
    renderPosition_spec (by exact ⟨rfl, rfl⟩) (by exact hN),
    renderPosition_spec (by exact ⟨rfl, rfl⟩) (by exact hN)]
  simp [State.rendered, Display.latched, renderEvents]
  exact hs

/-! ### What the display controller makes of the events -/

/-- A sequence of SHIFTBITs commits nothing and shifts its bits in (R33, R65). -/
theorem commits_bits (bits : List Bool) : ∀ (sr : Word) (d : Bool) (es : List WireEvent),
    commits sr d ((bits.flatMap fun b => [.pin .sdata b, .pin .sclk true, .pin .sclk false]) ++ es) =
      commits (bits.foldl (fun (a : Word) b => (a.setWidth 15).concat b) sr) (bits.getLastD d) es := by
  induction bits with
  | nil => intro sr d es; rfl
  | cons b rest ih =>
    intro sr d es
    simp only [List.flatMap_cons, List.cons_append, List.nil_append, List.foldl_cons,
      commits, if_true, Bool.false_eq_true, if_false, ih]
    cases rest <;> rfl

/-- The events of one WRITEFRAME commit its word once, whatever was shifted in before (R35, R67). -/
theorem commits_frameEvents (sr : Word) (d : Bool) (w : Word) (es : List WireEvent) :
    commits sr d (frameEvents w ++ es) = w :: commits w (w.getLsbD 0) es := by
  have hb : (List.range 16).flatMap (fun k =>
        [WireEvent.pin .sdata (w.getLsbD (15 - k)), .pin .sclk true, .pin .sclk false]) =
      ((List.range 16).map fun k => w.getLsbD (15 - k)).flatMap
        fun b => [.pin .sdata b, .pin .sclk true, .pin .sclk false] := by
    rw [List.flatMap_map]
  rw [frameEvents, hb]
  simp only [List.cons_append, List.append_assoc, commits, Bool.false_eq_true, if_false, commits_bits,
    List.foldl_map, shift_in_all, List.nil_append, if_true]
  rfl

/-- One RENDER commits the four frames in position order (R75, R80). -/
theorem commits_renderEvents (sr : Word) (d : Bool) (ps : Params) (c : Cmd) :
    commits sr d (renderEvents ps c) = [0, 1, 2, 3].map fun p : Position => frameWord ps c p := by
  simp only [renderEvents, List.flatMap_cons, List.flatMap_nil, List.append_assoc, List.append_nil]
  simp only [commits_frameEvents, List.singleton_append, commits, List.map_cons, List.map_nil]

/-! ### What one edge of the sequencer does, arm by arm (R83) -/

theorem seqEdge_idle_none {s : State} (h : s.disp.phase = .idle) :
    s.seqEdge none = { s with disp := { s.disp with done := false } } := by
  simp [State.seqEdge, h, State.clearDone]

theorem seqEdge_idle_some {s : State} (h : s.disp.phase = .idle) (c : Cmd) :
    s.seqEdge (some c) = s.accept c := by
  simp [State.seqEdge, h, State.clearDone, State.accept]

theorem seqEdge_latchLo {s : State} (h : s.disp.phase = .latchLo) (cmd : Option Cmd) :
    s.seqEdge cmd =
      { s with
        disp := { s.disp with latch := false, bitcnt := 0, phase := .bitData, done := false }
        wire := .pin .latch false :: s.wire } := by
  simp [State.seqEdge, h, State.clearDone, State.edgeLatchLo, State.pinWrite, Receiver.observe]

theorem seqEdge_bitData {s : State} (h : s.disp.phase = .bitData) (cmd : Option Cmd) :
    s.seqEdge cmd =
      { s with
        disp := { s.disp with
          sdata := s.disp.frame.getLsbD 15, phase := .bitClkHi, done := false }
        wire := .pin .sdata (s.disp.frame.getLsbD 15) :: s.wire } := by
  simp [State.seqEdge, h, State.clearDone, State.edgeBitData, State.pinWrite, State.goto,
    Receiver.observe]

theorem seqEdge_bitClkHi {s : State} (h : s.disp.phase = .bitClkHi) (cmd : Option Cmd) :
    s.seqEdge cmd =
      { s with
        disp := { s.disp with sclk := true, phase := .bitClkLo, done := false }
        recv := if s.disp.sclk then s.recv
          else ⟨(s.recv.sr.setWidth 15).concat s.disp.sdata, s.recv.out⟩
        wire := .pin .sclk true :: s.wire } := by
  cases hc : s.disp.sclk <;>
    simp [State.seqEdge, h, hc, State.clearDone, State.edgeBitClkHi, State.pinWrite, State.goto,
      Receiver.observe]

theorem seqEdge_bitClkLo_last {s : State} (h : s.disp.phase = .bitClkLo) (hb : s.disp.bitcnt = 15)
    (cmd : Option Cmd) :
    s.seqEdge cmd =
      { s with
        disp := { s.disp with
          sclk := false, frame := s.disp.frame <<< 1, phase := .latchHi, done := false }
        wire := .pin .sclk false :: s.wire } := by
  simp only [State.seqEdge, h, State.clearDone, State.edgeBitClkLo, hb, if_true]
  simp [State.pinWrite, Receiver.observe]

theorem seqEdge_bitClkLo_next {s : State} (h : s.disp.phase = .bitClkLo) (hb : s.disp.bitcnt ≠ 15)
    (cmd : Option Cmd) :
    s.seqEdge cmd =
      { s with
        disp := { s.disp with
          sclk := false, frame := s.disp.frame <<< 1, bitcnt := s.disp.bitcnt + 1
          phase := .bitData, done := false }
        wire := .pin .sclk false :: s.wire } := by
  simp only [State.seqEdge, h, State.clearDone, State.edgeBitClkLo, if_neg hb]
  simp [State.pinWrite, Receiver.observe]

theorem seqEdge_latchHi {s : State} (h : s.disp.phase = .latchHi) (cmd : Option Cmd) :
    s.seqEdge cmd =
      { s with
        disp := { s.disp with
          latch := true, dwellCnt := s.params.dwellCycles, phase := .dwell, done := false }
        recv := if s.disp.latch then s.recv else ⟨s.recv.sr, s.recv.sr⟩
        wire := .pin .latch true :: s.wire } := by
  cases hl : s.disp.latch <;>
    simp [State.seqEdge, h, hl, State.clearDone, State.edgeLatchHi, State.pinWrite, Receiver.observe]

theorem seqEdge_dwell_wait {s : State} (h : s.disp.phase = .dwell) (hc : 1 < s.disp.dwellCnt)
    (cmd : Option Cmd) :
    s.seqEdge cmd =
      { s with
        disp := { s.disp with dwellCnt := s.disp.dwellCnt - 1, done := false }
        wire := addWait 1 s.wire } := by
  simp only [State.seqEdge, h, State.clearDone, State.edgeDwell, if_pos hc, State.holdWire]

theorem seqEdge_dwell_end {s : State} (h : s.disp.phase = .dwell) (hc : s.disp.dwellCnt ≤ 1)
    (hp : s.disp.pos = 3) (cmd : Option Cmd) :
    s.seqEdge cmd =
      { s with
        disp := { s.disp with phase := .idle, done := true }
        wire := addWait 1 s.wire } := by
  simp only [State.seqEdge, h, State.clearDone, State.edgeDwell, if_neg (Nat.not_lt.2 hc),
    State.holdWire, State.leaveDwell, if_pos hp]

theorem seqEdge_dwell_next {s : State} (h : s.disp.phase = .dwell) (hc : s.disp.dwellCnt ≤ 1)
    (hp : s.disp.pos ≠ 3) (cmd : Option Cmd) :
    s.seqEdge cmd =
      { s with
        disp := { s.disp with
          pos := s.disp.pos + 1, phase := .latchLo, done := false
          frame := frameWord s.params s.disp.latched (s.disp.pos + 1) }
        wire := addWait 1 s.wire } := by
  simp only [State.seqEdge, h, State.clearDone, State.edgeDwell, if_neg (Nat.not_lt.2 hc),
    State.holdWire, State.leaveDwell, if_neg hp, Display.latched]

/-! ### One edge of the display unit -/

/-- Two states have the same display unit: parameters, registers, receiver, wire. -/
structure SameDisplay (s t : State) : Prop where
  params : s.params = t.params
  disp : s.disp = t.disp
  recv : s.recv = t.recv
  wire : s.wire = t.wire

/-- The sequencer reads and writes the display unit only (R123.4). -/
theorem seqEdge_sameDisplay {s t : State} (h : SameDisplay s t) (cmd : Option Cmd) :
    SameDisplay (s.seqEdge cmd) (t.seqEdge cmd) := by
  obtain ⟨ps, d, r, _, _, _, _, _, _, _, _, _, w⟩ := s
  obtain ⟨ps', d', r', _, _, _, _, _, _, _, _, _, w'⟩ := t
  obtain ⟨rfl, rfl, rfl, rfl⟩ := h
  unfold State.seqEdge
  obtain ⟨ph, pos, bc, _, _, _, _, cnt, _, _, _, _⟩ := d
  cases ph
  case idle => cases cmd <;> exact ⟨rfl, rfl, rfl, rfl⟩
  case bitClkLo =>
    by_cases hb : bc = 15 <;> simp only [State.edgeBitClkLo, State.clearDone, hb, if_true, if_false] <;>
      exact ⟨rfl, rfl, rfl, rfl⟩
  case dwell =>
    by_cases hc : 1 < cnt <;> by_cases hp : pos = 3 <;>
      simp only [State.edgeDwell, State.clearDone, State.leaveDwell, State.holdWire, hc, hp, if_true,
        if_false] <;>
      exact ⟨rfl, rfl, rfl, rfl⟩
  all_goals exact ⟨rfl, rfl, rfl, rfl⟩

/-- Away from IDLE the command port is not looked at (R82). -/
theorem seqEdge_busy {s : State} (h : s.disp.phase ≠ .idle) (cmd : Option Cmd) :
    s.seqEdge cmd = s.seqEdge none := by
  unfold State.seqEdge
  split <;> first | rfl | contradiction

/-- A clock edge without reset is, for the display unit, one edge of the sequencer. -/
theorem clockEdgeWith_sameDisplay {s : State} (h : s.inp.rst = false) (r : Drive) :
    SameDisplay (s.clockEdgeWith r) (s.seqEdge (r.over s.drive).cmd) := by
  have hs : SameDisplay (s.edgeSurroundings r.cmd.isNone) s := ⟨rfl, rfl, rfl, rfl⟩
  have := seqEdge_sameDisplay hs (r.over s.drive).cmd
  simp only [State.clockEdgeWith, h, Bool.false_eq_true, if_false]
  exact ⟨this.params, this.disp, this.recv, this.wire⟩

theorem clockEdge_sameDisplay {s : State} (h : s.inp.rst = false) :
    SameDisplay s.clockEdge (s.seqEdge s.drive.cmd) := clockEdgeWith_sameDisplay h ⟨false, none⟩

/-- A clock edge without reset is, for the debouncer, one edge of its own (R94). -/
theorem clockEdgeWith_deb {s : State} (h : s.inp.rst = false) (r : Drive) :
    (s.clockEdgeWith r).deb =
      s.deb.edge s.params (r.sampleEn || s.drive.sampleEn) s.inp.btnN := by
  simp [State.clockEdgeWith, h, Drive.over]

theorem clockEdge_deb {s : State} (h : s.inp.rst = false) :
    s.clockEdge.deb = s.deb.edge s.params s.drive.sampleEn s.inp.btnN :=
  clockEdgeWith_deb h ⟨false, none⟩

end Sys2Proof.Machine
end

