-- ==== Sys2Proof/Laws/Edges.lean ====
section
/-! SUPPORT. Runs of clock edges: how they compose, and what an edge, and an operation of the event
level, leave alone. -/
set_option Elab.async false

namespace Sys2Proof.Machine

@[simp] theorem edges_zero (s : State) : s.edges 0 = s := rfl

theorem edges_succ (s : State) (k : Nat) :
    s.edges (k + 1) = (s.edges k).clockEdge.advanceInputs := rfl

/-- `m` edges and then `n` more. -/
theorem edges_add (s : State) (m n : Nat) : s.edges (m + n) = (s.edges m).edges n := by
  induction n with
  | zero => rfl
  | succ n ih => rw [← Nat.add_assoc, edges_succ, edges_succ, ih]

/-- The first edge and then the others. -/
theorem edges_succ_left (s : State) (k : Nat) :
    s.edges (k + 1) = s.clockEdge.advanceInputs.edges k := by
  rw [Nat.add_comm, edges_add]
  rfl

theorem edgeBitClkLo_frame (s : State) : SameRest s.edgeBitClkLo s := by
  unfold State.edgeBitClkLo
  by_cases h : s.disp.bitcnt = 15 <;> simp only [h, if_true, if_false] <;>
    exact ⟨rfl, rfl, rfl, rfl, rfl, rfl, rfl, rfl, rfl, rfl⟩

theorem leaveDwell_frame (s : State) : SameRest s.leaveDwell s := by
  unfold State.leaveDwell
  by_cases h : s.disp.pos = 3 <;> simp only [h, if_true, if_false] <;>
    exact ⟨rfl, rfl, rfl, rfl, rfl, rfl, rfl, rfl, rfl, rfl⟩

theorem edgeDwell_frame (s : State) : SameRest s.edgeDwell s := by
  have h := leaveDwell_frame (s.holdWire 1)
  unfold State.edgeDwell
  by_cases hc : 1 < s.disp.dwellCnt <;> simp only [hc, if_true, if_false]
  · exact ⟨rfl, rfl, rfl, rfl, rfl, rfl, rfl, rfl, rfl, rfl⟩
  · exact ⟨h.1, h.2, h.3, h.4, h.5, h.6, h.7, h.8, h.9, h.10⟩

theorem SameRest.trans {s t u : State} (h : SameRest s t) (k : SameRest t u) : SameRest s u :=
  ⟨h.1.trans k.1, h.2.trans k.2, h.3.trans k.3, h.4.trans k.4, h.5.trans k.5, h.6.trans k.6,
    h.7.trans k.7, h.8.trans k.8, h.9.trans k.9, h.10.trans k.10⟩

/-- What a pin write leaves alone, `done` among it (R65 to R67). -/
theorem pinWrite_frame (s : State) (line : Pin) (level : Bool) :
    SameRest (s.pinWrite line level) s ∧ (s.pinWrite line level).disp.done = s.disp.done :=
  ⟨⟨rfl, rfl, rfl, rfl, rfl, rfl, rfl, rfl, rfl, rfl⟩, by cases line <;> rfl⟩

theorem shiftBit_frame (s : State) (b : Bool) :
    SameRest (s.shiftBit b) s ∧ (s.shiftBit b).disp.done = s.disp.done :=
  ⟨(((pinWrite_frame _ _ _).1.trans (pinWrite_frame _ _ _).1).trans (pinWrite_frame _ _ _).1),
    (((pinWrite_frame _ _ _).2.trans (pinWrite_frame _ _ _).2).trans (pinWrite_frame _ _ _).2)⟩

theorem shiftBits_frame (bits : List Bool) : ∀ s : State,
    SameRest (bits.foldl State.shiftBit s) s ∧ (bits.foldl State.shiftBit s).disp.done = s.disp.done := by
  induction bits with
  | nil => exact fun s => ⟨⟨rfl, rfl, rfl, rfl, rfl, rfl, rfl, rfl, rfl, rfl⟩, rfl⟩
  | cons b rest ih =>
    exact fun s => ⟨(ih _).1.trans (shiftBit_frame s b).1, (ih _).2.trans (shiftBit_frame s b).2⟩

theorem shiftByte_frame (s : State) (b : Byte) :
    SameRest (s.shiftByte b) s ∧ (s.shiftByte b).disp.done = s.disp.done := by
  rw [shiftByte_eq_bits]
  exact shiftBits_frame _ s

theorem writeFrame_frame (s : State) (seg sel : Byte) :
    SameRest (s.writeFrame seg sel) s ∧ (s.writeFrame seg sel).disp.done = s.disp.done :=
  ⟨(((pinWrite_frame _ _ _).1.trans (shiftByte_frame _ _).1).trans (shiftByte_frame _ _).1).trans
      (pinWrite_frame _ _ _).1,
    (((pinWrite_frame _ _ _).2.trans (shiftByte_frame _ _).2).trans (shiftByte_frame _ _).2).trans
      (pinWrite_frame _ _ _).2⟩

theorem SameRest.setDisp {s t : State} (h : SameRest s t) (d : Display) : SameRest { s with disp := d } t :=
  ⟨h.1, h.2, h.3, h.4, h.5, h.6, h.7, h.8, h.9, h.10⟩

theorem sendFrame_frame (s : State) : SameRest s.sendFrame s := by
  unfold State.sendFrame
  exact (writeFrame_frame s _ _).1.setDisp _

theorem holdDwell_frame (s : State) : SameRest s.holdDwell s :=
  ⟨rfl, rfl, rfl, rfl, rfl, rfl, rfl, rfl, rfl, rfl⟩

theorem renderPosition_frame (s : State) : SameRest s.renderPosition s := by
  unfold State.renderPosition
  exact ((leaveDwell_frame _).trans (holdDwell_frame _)).trans (sendFrame_frame s)

theorem accept_frame (s : State) (c : Cmd) : SameRest (s.accept c) s :=
  ⟨rfl, rfl, rfl, rfl, rfl, rfl, rfl, rfl, rfl, rfl⟩

/-- What a RENDER leaves alone, the pins at rest or not (R75). -/
theorem render_frame (s : State) (c : Cmd) : SameRest (s.render c) s := by
  unfold State.render
  exact ((((renderPosition_frame _).trans (renderPosition_frame _)).trans (renderPosition_frame _)).trans
    (renderPosition_frame _)).trans (accept_frame s c)

/-- What an edge of the sequencer leaves alone (R83). -/
theorem seqEdge_frame (s : State) (cmd : Option Cmd) : SameRest (s.seqEdge cmd) s := by
  unfold State.seqEdge
  split
  · split <;> exact ⟨rfl, rfl, rfl, rfl, rfl, rfl, rfl, rfl, rfl, rfl⟩
  · exact ⟨rfl, rfl, rfl, rfl, rfl, rfl, rfl, rfl, rfl, rfl⟩
  · exact ⟨rfl, rfl, rfl, rfl, rfl, rfl, rfl, rfl, rfl, rfl⟩
  · exact ⟨rfl, rfl, rfl, rfl, rfl, rfl, rfl, rfl, rfl, rfl⟩
  · have h := edgeBitClkLo_frame s.clearDone
    exact ⟨h.1, h.2, h.3, h.4, h.5, h.6, h.7, h.8, h.9, h.10⟩
  · exact ⟨rfl, rfl, rfl, rfl, rfl, rfl, rfl, rfl, rfl, rfl⟩
  · have h := edgeDwell_frame s.clearDone
    exact ⟨h.1, h.2, h.3, h.4, h.5, h.6, h.7, h.8, h.9, h.10⟩

/-- What a clock edge leaves alone, and the surroundings it leaves, reset edge or not, whatever a request
drives (R123, R140). -/
theorem clockEdgeWith_frame (s : State) (r : Drive) :
    (s.clockEdgeWith r).params = s.params ∧ (s.clockEdgeWith r).inp = s.inp ∧
    (s.clockEdgeWith r).script = s.script ∧ (s.clockEdgeWith r).pending = s.pending ∧
    (s.clockEdgeWith r).result = s.result ∧
    (s.clockEdgeWith r).clock = s.clockAfterReset.afterRead s.readTick ∧
    (s.clockEdgeWith r).volt = s.voltAfter ∧ (s.clockEdgeWith r).host = s.hostAfter r.cmd.isNone ∧
    (s.clockEdgeWith r).tickIn = if s.tickFires then s.params.fClkHz else s.tickIn - 1 := by
  unfold State.clockEdgeWith
  split
  · exact ⟨rfl, rfl, rfl, rfl, rfl, rfl, rfl, rfl, rfl⟩
  · have h := seqEdge_frame (s.edgeSurroundings r.cmd.isNone) (r.over s.drive).cmd
    exact ⟨h.params, h.inp, h.script, h.pending, h.result, h.clock, h.volt, h.host, h.tickIn⟩

/-- The same of an edge at which no request drives a port. -/
theorem clockEdge_frame (s : State) :
    s.clockEdge.params = s.params ∧ s.clockEdge.inp = s.inp ∧ s.clockEdge.script = s.script ∧
    s.clockEdge.pending = s.pending ∧ s.clockEdge.result = s.result ∧
    s.clockEdge.clock = s.clockAfterReset.afterRead s.readTick ∧ s.clockEdge.volt = s.voltAfter ∧
    s.clockEdge.host = s.hostAfter true ∧
    s.clockEdge.tickIn = if s.tickFires then s.params.fClkHz else s.tickIn - 1 :=
  clockEdgeWith_frame s ⟨false, none⟩

/-- `done` is no input of the sequencer (R14). -/
theorem seqEdge_setDone (s : State) (b : Bool) (cmd : Option Cmd) :
    { s with disp := { s.disp with done := b } }.seqEdge cmd = s.seqEdge cmd := rfl

/-- No reset comes in the run either. -/
theorem NoReset_edges {s : State} (h : s.NoReset) (k : Nat) : (s.edges k).NoReset := by
  induction k with
  | zero => exact h
  | succ k ih =>
    apply NoReset_advanceInputs
    obtain ⟨-, hi, hs, -⟩ := clockEdge_frame (s.edges k)
    exact ⟨by rw [hi]; exact ih.1, by rw [hs]; exact ih.2⟩

@[simp] theorem edges_params (s : State) (k : Nat) : (s.edges k).params = s.params := by
  induction k with
  | zero => rfl
  | succ k ih =>
    rw [edges_succ, ← ih, ← (clockEdge_frame (s.edges k)).1]
    unfold State.advanceInputs
    split <;> rfl

end Sys2Proof.Machine
end

