-- ==== Sys2Proof/Laws/Words.lean ====
section
/-! SUPPORT. The fields of a CMD word and the word of its fields (spec/30_encoding.md R45), for every
VALUE_WIDTH. -/
set_option Elab.async false

namespace Sys2Proof

/-- The top field of a CMD word is `dp_en` above `dp_idx`. -/
theorem cmdTop_cmdWord {vw value : Nat} (h : value < 2 ^ vw) (dpEn : Bool) (dpIdx : Position) :
    cmdTop vw (cmdWord vw dpEn dpIdx value) = dpIdx.toNat + 4 * dpEn.toNat := by
  rw [cmdTop, cmdWord, Nat.add_mul_div_left _ _ (Nat.two_pow_pos vw), Nat.div_eq_of_lt h, Nat.zero_add]

@[simp] theorem cmdValue_cmdWord {vw value : Nat} (h : value < 2 ^ vw) (dpEn : Bool)
    (dpIdx : Position) : cmdValue vw (cmdWord vw dpEn dpIdx value) = value := by
  rw [cmdValue, cmdWord, Nat.add_mul_mod_self_left, Nat.mod_eq_of_lt h]

@[simp] theorem cmdDpEn_cmdWord {vw value : Nat} (h : value < 2 ^ vw) (dpEn : Bool)
    (dpIdx : Position) : cmdDpEn vw (cmdWord vw dpEn dpIdx value) = dpEn := by
  have hi : dpIdx.toNat < 4 := dpIdx.isLt
  rw [cmdDpEn, cmdTop_cmdWord h]
  cases dpEn <;> simp <;> omega

@[simp] theorem cmdDpIdx_cmdWord {vw value : Nat} (h : value < 2 ^ vw) (dpEn : Bool)
    (dpIdx : Position) : cmdDpIdx vw (cmdWord vw dpEn dpIdx value) = dpIdx := by
  have hi : dpIdx.toNat < 4 := dpIdx.isLt
  apply BitVec.eq_of_toNat_eq
  rw [cmdDpIdx, cmdTop_cmdWord h, BitVec.toNat_ofNat]
  omega

/-- A CMD word has `vw + 3` bits. -/
theorem cmdWord_lt {vw value : Nat} (h : value < 2 ^ vw) (dpEn : Bool) (dpIdx : Position) :
    cmdWord vw dpEn dpIdx value < 2 ^ (vw + 3) := by
  have hi : dpIdx.toNat < 4 := dpIdx.isLt
  have he : dpEn.toNat ≤ 1 := Bool.toNat_le dpEn
  have ht : 2 ^ vw * (dpIdx.toNat + 4 * dpEn.toNat) ≤ 2 ^ vw * 7 := Nat.mul_le_mul_left _ (by omega)
  rw [cmdWord, Nat.pow_add]
  omega

/-- A CMD word is the word of its fields. -/
theorem cmdWord_fields {vw w : Nat} (h : w < 2 ^ (vw + 3)) :
    cmdWord vw (cmdDpEn vw w) (cmdDpIdx vw w) (cmdValue vw w) = w := by
  have hw := Nat.mod_add_div w (2 ^ vw)
  have ht : w / 2 ^ vw < 8 := Nat.div_lt_of_lt_mul (by rwa [Nat.pow_add] at h)
  have ha : ∀ t : Nat, t < 8 → t % 2 ^ 2 + 4 * (decide (t / 4 % 2 = 1)).toNat = t := by decide
  have : (cmdDpIdx vw w).toNat + 4 * (cmdDpEn vw w).toNat = w / 2 ^ vw := by
    rw [cmdDpIdx, BitVec.toNat_ofNat]
    exact ha _ ht
  rw [cmdWord, this]
  exact hw

/-- The field `value` fits. -/
theorem cmdValue_lt (vw w : Nat) : cmdValue vw w < 2 ^ vw := Nat.mod_lt _ (Nat.two_pow_pos vw)

end Sys2Proof
end

