-- ==== Sys2Proof/Laws/PerInstr.lean ====
section
/-! SUPPORT. Per operation: its word is a word of its format (R45 to R48, R52). -/
set_option Elab.async false

namespace Sys2Proof.Laws.Words

/-- The encoder's word has no bit above its format's width and has the format's fixed bits, for every
VALUE_WIDTH that holds the operation's value. -/
def Statement (i : Instr) : Prop :=
  ∀ vw : Nat, i.wellFormed vw = true → (encode vw i).wellFormed vw = true

theorem render (dpEn : Bool) (dpIdx : Position) (value : Nat) : Statement (.render dpEn dpIdx value) := by
  intro vw h
  have hv : value < 2 ^ vw := of_decide_eq_true h
  simp [encode, OpWord.wellFormed, OpWord.inWidth, OpWord.fixedBits, Format.width, cmdWord_lt hv]

theorem showclock (dpIdx : Position) (value : Nat) : Statement (.showclock dpIdx value) := by
  intro vw h
  have hv : value < 2 ^ vw := of_decide_eq_true h
  have hi : dpIdx.toNat < 4 := dpIdx.isLt
  simp [encode, OpWord.wellFormed, OpWord.inWidth, OpWord.fixedBits, Format.width, cmdWord_lt hv,
    cmdTop_cmdWord hv, Nat.div_eq_of_lt hi]

theorem showvolts (value : Nat) : Statement (.showvolts value) := by
  intro vw h
  have hv : value < 2 ^ vw := of_decide_eq_true h
  simp [encode, OpWord.wellFormed, OpWord.inWidth, OpWord.fixedBits, Format.width, cmdWord_lt hv,
    cmdTop_cmdWord hv]

theorem encode0 (pointOff : Bool) : Statement (.encode0 pointOff) := by
  intro vw _
  cases pointOff <;>
    simp [encode, OpWord.wellFormed, OpWord.inWidth, OpWord.fixedBits, Format.width,
      segbWord, segbPatterns]

theorem encode1 (pointOff : Bool) : Statement (.encode1 pointOff) := by
  intro vw _
  cases pointOff <;>
    simp [encode, OpWord.wellFormed, OpWord.inWidth, OpWord.fixedBits, Format.width,
      segbWord, segbPatterns]

theorem encode2 (pointOff : Bool) : Statement (.encode2 pointOff) := by
  intro vw _
  cases pointOff <;>
    simp [encode, OpWord.wellFormed, OpWord.inWidth, OpWord.fixedBits, Format.width,
      segbWord, segbPatterns]

theorem encode3 (pointOff : Bool) : Statement (.encode3 pointOff) := by
  intro vw _
  cases pointOff <;>
    simp [encode, OpWord.wellFormed, OpWord.inWidth, OpWord.fixedBits, Format.width,
      segbWord, segbPatterns]

theorem encode4 (pointOff : Bool) : Statement (.encode4 pointOff) := by
  intro vw _
  cases pointOff <;>
    simp [encode, OpWord.wellFormed, OpWord.inWidth, OpWord.fixedBits, Format.width,
      segbWord, segbPatterns]

theorem encode5 (pointOff : Bool) : Statement (.encode5 pointOff) := by
  intro vw _
  cases pointOff <;>
    simp [encode, OpWord.wellFormed, OpWord.inWidth, OpWord.fixedBits, Format.width,
      segbWord, segbPatterns]

theorem encode6 (pointOff : Bool) : Statement (.encode6 pointOff) := by
  intro vw _
  cases pointOff <;>
    simp [encode, OpWord.wellFormed, OpWord.inWidth, OpWord.fixedBits, Format.width,
      segbWord, segbPatterns]

theorem encode7 (pointOff : Bool) : Statement (.encode7 pointOff) := by
  intro vw _
  cases pointOff <;>
    simp [encode, OpWord.wellFormed, OpWord.inWidth, OpWord.fixedBits, Format.width,
      segbWord, segbPatterns]

theorem encode8 (pointOff : Bool) : Statement (.encode8 pointOff) := by
  intro vw _
  cases pointOff <;>
    simp [encode, OpWord.wellFormed, OpWord.inWidth, OpWord.fixedBits, Format.width,
      segbWord, segbPatterns]

theorem encode9 (pointOff : Bool) : Statement (.encode9 pointOff) := by
  intro vw _
  cases pointOff <;>
    simp [encode, OpWord.wellFormed, OpWord.inWidth, OpWord.fixedBits, Format.width,
      segbWord, segbPatterns]

theorem digitsel0 : Statement .digitsel0 := by
  intro vw _
  simp [encode, OpWord.wellFormed, OpWord.inWidth, OpWord.fixedBits, Format.width]

theorem digitsel1 : Statement .digitsel1 := by
  intro vw _
  simp [encode, OpWord.wellFormed, OpWord.inWidth, OpWord.fixedBits, Format.width]

theorem digitsel2 : Statement .digitsel2 := by
  intro vw _
  simp [encode, OpWord.wellFormed, OpWord.inWidth, OpWord.fixedBits, Format.width]

theorem digitsel3 : Statement .digitsel3 := by
  intro vw _
  simp [encode, OpWord.wellFormed, OpWord.inWidth, OpWord.fixedBits, Format.width]

theorem writeframe (seg sel : Byte) : Statement (.writeframe seg sel) := by
  intro vw _
  have h1 := seg.isLt
  have h2 := sel.isLt
  show (decide (256 * seg.toNat + sel.toNat < 2 ^ 16) && true) = true
  rw [Bool.and_true]
  exact decide_eq_true (by omega)

theorem shiftbyte (byte : Byte) : Statement (.shiftbyte byte) := by
  intro vw _
  show (decide (byte.toNat < 2 ^ 8) && true) = true
  rw [Bool.and_true]
  exact decide_eq_true byte.isLt

theorem shiftbit (bit : Bool) : Statement (.shiftbit bit) := by
  intro vw _
  cases bit <;> simp [encode, OpWord.wellFormed, OpWord.inWidth, OpWord.fixedBits, Format.width]

theorem digit : Statement .digit := by
  intro vw _
  simp [encode, OpWord.wellFormed, OpWord.inWidth, OpWord.fixedBits, Format.width]

theorem dwell : Statement .dwell := by
  intro vw _
  simp [encode, OpWord.wellFormed, OpWord.inWidth, OpWord.fixedBits, Format.width]

theorem dbsample : Statement .dbsample := by
  intro vw _
  simp [encode, OpWord.wellFormed, OpWord.inWidth, OpWord.fixedBits, Format.width]

theorem dbwait : Statement .dbwait := by
  intro vw _
  simp [encode, OpWord.wellFormed, OpWord.inWidth, OpWord.fixedBits, Format.width]

theorem tick : Statement .tick := by
  intro vw _
  simp [encode, OpWord.wellFormed, OpWord.inWidth, OpWord.fixedBits, Format.width]

theorem clkreset : Statement .clkreset := by
  intro vw _
  simp [encode, OpWord.wellFormed, OpWord.inWidth, OpWord.fixedBits, Format.width]

theorem vupdate : Statement .vupdate := by
  intro vw _
  simp [encode, OpWord.wellFormed, OpWord.inWidth, OpWord.fixedBits, Format.width]

theorem modesel : Statement .modesel := by
  intro vw _
  simp [encode, OpWord.wellFormed, OpWord.inWidth, OpWord.fixedBits, Format.width]

theorem loop : Statement .loop := by
  intro vw _
  simp [encode, OpWord.wellFormed, OpWord.inWidth, OpWord.fixedBits, Format.width]

end Sys2Proof.Laws.Words
end

