-- ==== Sys2Proof/Laws/Runs.lean ====
section
/-! SUPPORT. Runs of clock edges that a request takes: where they end, and what they do to the display
unit. -/
set_option Elab.async false

namespace Sys2Proof.Machine

/-! ### Where a run ends -/

@[simp] theorem run_zero (s : State) : s.run 0 = s := rfl

theorem edges_succ_next (s : State) (k : Nat) : s.edges (k + 1) = s.nextEdge.edges k :=
  edges_succ_left s k

/-- Without a reset edge a run is all its edges. -/
theorem run_noReset : ∀ (n : Nat) {s : State}, s.NoReset → s.run n = s.edges n := by
  intro n
  induction n with
  | zero => intro s _; rfl
  | succ n ih =>
    intro s h
    have h1 : s.nextEdge.NoReset := NoReset_edges h 1
    rw [edges_succ_next, ← ih h1, State.run, h.1]
    rfl

/-- A run is some number of its edges: all of them, or up to and with the first reset edge. -/
theorem run_cases (s : State) (n : Nat) :
    (s.run n = s.edges n ∧ ∀ j, j < n → (s.edges j).inp.rst = false) ∨
    ∃ k, k < n ∧ s.run n = s.edges (k + 1) ∧ (s.edges k).inp.rst = true ∧
      ∀ j, j < k → (s.edges j).inp.rst = false := by
  induction n generalizing s with
  | zero => exact .inl ⟨rfl, fun j hj => absurd hj (Nat.not_lt_zero j)⟩
  | succ n ih =>
    cases hr : s.inp.rst with
    | true =>
      refine .inr ⟨0, Nat.succ_pos n, ?_, hr, fun j hj => absurd hj (Nat.not_lt_zero j)⟩
      rw [State.run, hr]
      rfl
    | false =>
      have hrun : s.run (n + 1) = s.nextEdge.run n := by rw [State.run, hr]; rfl
      have hfirst : ∀ m, (∀ j, j < m → (s.nextEdge.edges j).inp.rst = false) →
          ∀ j, j < m + 1 → (s.edges j).inp.rst = false := by
        intro m h j hj
        cases j with
        | zero => exact hr
        | succ j => rw [edges_succ_next]; exact h j (Nat.lt_of_succ_lt_succ hj)
      rcases ih s.nextEdge with ⟨h, hj⟩ | ⟨k, hk, h, hrst, hj⟩
      · exact .inl ⟨by rw [hrun, h, edges_succ_next], hfirst n hj⟩
      · refine .inr ⟨k + 1, Nat.succ_lt_succ hk, ?_, ?_, hfirst k hj⟩
        · rw [hrun, h, edges_succ_next s (k + 1)]
        · rw [edges_succ_next]; exact hrst

/-- What every clock edge keeps, a run keeps. -/
theorem run_keeps {P : State → Prop} (h : ∀ s, P s → P s.nextEdge) :
    ∀ (n : Nat) {s : State}, P s → P (s.run n) := by
  intro n
  induction n with
  | zero => intro s hs; exact hs
  | succ n ih =>
    intro s hs
    unfold State.run
    split
    · exact h s hs
    · exact ih (h s hs)

/-! ### The sequencer alone -/

/-- One edge of a sequencer to which no command is presented. -/
def seqStep (s : State) : State := s.seqEdge none

theorem sameDisplay_trans {s t u : State} (h : SameDisplay s t) (k : SameDisplay t u) : SameDisplay s u :=
  ⟨h.1.trans k.1, h.2.trans k.2, h.3.trans k.3, h.4.trans k.4⟩

theorem advanceInputs_sameDisplay (s : State) : SameDisplay s.advanceInputs s := by
  unfold State.advanceInputs
  split <;> exact ⟨rfl, rfl, rfl, rfl⟩

/-- While the display is busy, clock edges without reset are, for the display unit, edges of the sequencer
alone (R82, R123.4). -/
theorem edges_busy {s : State} (h : s.NoReset) : ∀ n : Nat,
    (∀ j, j < n → (seqStep^[j] s).disp.phase ≠ .idle) → SameDisplay (s.edges n) (seqStep^[n] s) := by
  intro n
  induction n with
  | zero => intro _; exact ⟨rfl, rfl, rfl, rfl⟩
  | succ n ih =>
    intro hb
    have hn := ih fun j hj => hb j (Nat.lt_succ_of_lt hj)
    have hi : (s.edges n).disp.phase ≠ .idle := by rw [hn.disp]; exact hb n (Nat.lt_succ_self n)
    rw [Function.iterate_succ_apply', edges_succ]
    refine sameDisplay_trans (advanceInputs_sameDisplay _)
      (sameDisplay_trans (clockEdge_sameDisplay (NoReset_edges h n).1) ?_)
    rw [seqEdge_busy hi]
    exact seqEdge_sameDisplay hn none

/-- Three edges from BIT_DATA send the next bit of `frame` (R65, R70). -/
theorem seqStep_bit {s : State} (h : s.disp.phase = .bitData) :
    seqStep^[3] s =
      let t := s.clearDone.shiftBit (s.disp.frame.getLsbD 15)
      { t with disp := { t.disp with
          frame := s.disp.frame <<< 1
          bitcnt := if s.disp.bitcnt = 15 then s.disp.bitcnt else s.disp.bitcnt + 1
          phase := if s.disp.bitcnt = 15 then .latchHi else .bitData } } := by
  have h1 : seqStep s = s.clearDone.edgeBitData := by simp [seqStep, State.seqEdge, h]
  have h2 : seqStep (s.clearDone.edgeBitData) = s.clearDone.edgeBitData.edgeBitClkHi := rfl
  have h3 : seqStep (s.clearDone.edgeBitData.edgeBitClkHi) =
      s.clearDone.edgeBitData.edgeBitClkHi.edgeBitClkLo := rfl
  show seqStep (seqStep (seqStep s)) = _
  rw [h1, h2, h3]
  by_cases hb : s.disp.bitcnt = 15
  · have hb' : s.clearDone.edgeBitData.edgeBitClkHi.disp.bitcnt = 15 := hb
    simp only [State.edgeBitClkLo, if_pos hb', if_pos hb]
    rfl
  · have hb' : ¬ s.clearDone.edgeBitData.edgeBitClkHi.disp.bitcnt = 15 := hb
    simp only [State.edgeBitClkLo, if_neg hb', if_neg hb]
    rfl

/-- The phases in which a frame is being sent (R70). -/
def Phase.sending : Phase → Bool
  | .idle => false
  | .latchLo => true
  | .bitData => true
  | .bitClkHi => true
  | .bitClkLo => true
  | .latchHi => true
  | .dwell => false

theorem Phase.sending_ne {ph : Phase} (h : ph.sending = true) : ph ≠ .idle ∧ ph ≠ .dwell := by
  cases ph <;> simp [Phase.sending] at h ⊢

/-- In those three edges the display is busy. -/
theorem seqStep_bit_busy {s : State} (h : s.disp.phase = .bitData) {j : Nat} (hj : j < 3) :
    (seqStep^[j] s).disp.phase.sending = true := by
  have h1 : seqStep s = s.clearDone.edgeBitData := by simp [seqStep, State.seqEdge, h]
  have : j = 0 ∨ j = 1 ∨ j = 2 := by omega
  rcases this with rfl | rfl | rfl
  · simp [h, Phase.sending]
  · show (seqStep s).disp.phase.sending = true
    rw [h1]; rfl
  · show (seqStep (seqStep s)).disp.phase.sending = true
    rw [h1]; rfl

/-- The first `k` bits of a word in wire order (R35). -/
def wireBitsOf (w : Word) (k : Nat) : List Bool := (List.range k).map fun j => w.getLsbD (15 - j)

theorem wireBitsOf_succ (w : Word) (k : Nat) : wireBitsOf w (k + 1) = wireBitsOf w k ++ [w.getLsbD (15 - k)] := by
  simp [wireBitsOf, List.range_succ]

theorem clearDone_of {s : State} (h : s.disp.done = false) : s.clearDone = s := by
  obtain ⟨ps, d, r, _, _, _, _, _, _, _, _, _, w⟩ := s
  obtain ⟨_, _, _, _, _, _, _, _, _, _, _, dn⟩ := d
  simp only at h
  subst h
  rfl

/-- `k` bits from BIT_DATA, with more to come (R65, R70). -/
theorem seqStep_bits {s : State} (h : s.disp.phase = .bitData) (hd : s.disp.done = false) : ∀ k : Nat,
    s.disp.bitcnt.toNat + k ≤ 15 →
    seqStep^[3 * k] s =
      (let t := (wireBitsOf s.disp.frame k).foldl State.shiftBit s
       { t with disp := { t.disp with
          frame := s.disp.frame <<< k, bitcnt := s.disp.bitcnt + BitVec.ofNat 4 k
          phase := .bitData } }) ∧
    ∀ j, j < 3 * k → (seqStep^[j] s).disp.phase.sending = true := by
  intro k
  induction k with
  | zero =>
    intro _
    refine ⟨?_, fun j hj => absurd hj (Nat.not_lt_zero j)⟩
    obtain ⟨ps, d, r, _, _, _, _, _, _, _, _, _, w⟩ := s
    obtain ⟨_, _, _, _, _, _, _, _, _, _, _, dn⟩ := d
    simp only at h
    subst h
    simp [wireBitsOf]
  | succ k ih =>
    intro hk
    obtain ⟨he, hb⟩ := ih (by omega)
    have hm : 3 * (k + 1) = 3 + 3 * k := by omega
    have hne : ¬ (s.disp.bitcnt + BitVec.ofNat 4 k = 15) := by
      intro hc
      have := congrArg BitVec.toNat hc
      simp [BitVec.toNat_add] at this
      omega
    have hbc : s.disp.bitcnt + BitVec.ofNat 4 (k + 1) = s.disp.bitcnt + BitVec.ofNat 4 k + 1 := by
      rw [BitVec.add_assoc]
      congr 1
      apply BitVec.eq_of_toNat_eq
      simp
    have hfr : (s.disp.frame <<< k).getLsbD 15 = s.disp.frame.getLsbD (15 - k) := by
      have : ¬ 15 < k := by omega
      rw [BitVec.getLsbD_shiftLeft]
      simp [this]
    have hfs : s.disp.frame <<< (k + 1) = s.disp.frame <<< k <<< 1 := by rw [BitVec.shiftLeft_add]
    have hdn : ((wireBitsOf s.disp.frame k).foldl State.shiftBit s).disp.done = false := by
      rw [(shiftBits_frame _ s).2, hd]
    constructor
    · rw [hm, Function.iterate_add_apply, he, seqStep_bit rfl, clearDone_of (by exact hdn)]
      simp only [hfr, hbc, hfs, wireBitsOf_succ, List.foldl_append, List.foldl_cons, List.foldl_nil, if_neg hne]
      rfl
    · intro j hj
      by_cases hlt : j < 3 * k
      · exact hb j hlt
      · have hj' : j = (j - 3 * k) + 3 * k := by omega
        rw [hj', Function.iterate_add_apply, he]
        exact seqStep_bit_busy rfl (by omega)

/-- From BIT_DATA to the last bit of a frame (R67, R70). -/
theorem seqStep_lastBit {s : State} (h : s.disp.phase = .bitData) (hd : s.disp.done = false)
    (hb : s.disp.bitcnt = 15) :
    seqStep^[3] s =
      let t := s.shiftBit (s.disp.frame.getLsbD 15)
      { t with disp := { t.disp with frame := s.disp.frame <<< 1, phase := .latchHi } } := by
  rw [seqStep_bit h, clearDone_of hd]
  simp only [if_pos hb]
  rfl

theorem seqStep_latchLo {s : State} (h : s.disp.phase = .latchLo) (hd : s.disp.done = false) :
    seqStep s = s.edgeLatchLo := by
  rw [seqStep, State.seqEdge, h, clearDone_of hd]

theorem seqStep_latchHi {s : State} (h : s.disp.phase = .latchHi) (hd : s.disp.done = false) :
    seqStep s = s.edgeLatchHi := by
  rw [seqStep, State.seqEdge, h, clearDone_of hd]

/-- The sixteen bits of a word in wire order are those of its two bytes (R35). -/
theorem wireBitsOf_bytes (w : Word) :
    wireBitsOf w 16 = Byte.wireBits (w.extractLsb' 8 8) ++ Byte.wireBits (w.extractLsb' 0 8) := by
  simp [wireBitsOf, Byte.wireBits, List.range_succ]

/-- Sixteen bits from BIT_DATA (R67, R70). -/
theorem seqStep_word {s : State} (h : s.disp.phase = .bitData) (hd : s.disp.done = false)
    (hb : s.disp.bitcnt = 0) :
    seqStep^[48] s =
      (let t := (wireBitsOf s.disp.frame 16).foldl State.shiftBit s
       { t with disp := { t.disp with frame := s.disp.frame <<< 16, bitcnt := 15, phase := .latchHi } }) ∧
    ∀ j, j < 48 → (seqStep^[j] s).disp.phase.sending = true := by
  obtain ⟨he, hbusy⟩ := seqStep_bits h hd 15 (by rw [hb]; decide)
  have hdn : ((wireBitsOf s.disp.frame 15).foldl State.shiftBit s).disp.done = false := by
    rw [(shiftBits_frame _ s).2, hd]
  constructor
  · rw [show (48 : Nat) = 3 + 3 * 15 from rfl, Function.iterate_add_apply, he,
      seqStep_lastBit rfl (by exact hdn) (by simp [hb])]
    have hfr : (s.disp.frame <<< 15).getLsbD 15 = s.disp.frame.getLsbD 0 := by
      rw [BitVec.getLsbD_shiftLeft]; simp
    have hfs : s.disp.frame <<< 15 <<< 1 = s.disp.frame <<< 16 := by rw [← BitVec.shiftLeft_add]
    simp only [hfr, hfs, hb, wireBitsOf_succ _ 15, List.foldl_append, List.foldl_cons, List.foldl_nil]
    rfl
  · intro j hj
    by_cases hlt : j < 3 * 15
    · exact hbusy j hlt
    · have hj' : j = (j - 3 * 15) + 3 * 15 := by omega
      rw [hj', Function.iterate_add_apply, he]
      exact seqStep_bit_busy rfl (by omega)

/-- A whole frame from LATCH_LO (R67, R70): the WRITEFRAME of the event level. -/
theorem seqStep_frame {s : State} (h : s.disp.phase = .latchLo) (hd : s.disp.done = false)
    (hp : s.PinsAtRest) :
    seqStep^[50] s = s.sendFrame ∧ ∀ j, j < 50 → (seqStep^[j] s).disp.phase.sending = true := by
  have h1 := seqStep_latchLo h hd
  have hd1 : s.edgeLatchLo.disp.done = false := hd
  obtain ⟨hw, hbusy⟩ := seqStep_word (s := s.edgeLatchLo) rfl hd1 rfl
  have hsc : s.edgeLatchLo.disp.sclk = false := hp.2
  have hdn : ((wireBitsOf s.edgeLatchLo.disp.frame 16).foldl State.shiftBit s.edgeLatchLo).disp.done = false := by
    rw [(shiftBits_frame _ _).2, hd1]
  have hz : s.disp.frame <<< 16 = 0 := by
    apply BitVec.eq_of_getLsbD_eq
    intro i hi
    rw [BitVec.getLsbD_shiftLeft]
    simp [hi]
  constructor
  · rw [show (50 : Nat) = 1 + (48 + 1) from rfl, Function.iterate_add_apply, Function.iterate_add_apply,
      Function.iterate_one, h1, hw, seqStep_latchHi rfl (by exact hdn)]
    rw [sendFrame_spec hp, shiftBits_spec _ hsc]
    have hsh : (wireBitsOf s.disp.frame 16).foldl (fun (a : Word) b => (a.setWidth 15).concat b)
        s.recv.sr = s.disp.frame := by
      rw [wireBitsOf, List.foldl_map]
      exact shift_in_all _ _
    simp [State.edgeLatchHi, State.edgeLatchLo, State.pinWrite, Receiver.observe, hsh, hz, hp.1, hp.2, hd]
    constructor
    · simp [wireBitsOf, List.range_succ]
    · simp [frameEvents, wireBitsOf, List.flatMap_map]
  · intro j hj
    rcases Nat.eq_zero_or_pos j with rfl | hpos
    · simp [h, Phase.sending]
    · obtain ⟨i, rfl⟩ : ∃ i, j = i + 1 := ⟨j - 1, by omega⟩
      rw [Function.iterate_succ_apply, h1]
      by_cases hi : i < 48
      · exact hbusy i hi
      · have : i = 48 := by omega
        rw [this, hw]
        rfl

/-- `done` is no input of the sequencer (R14). -/
theorem seqStep_clearDone (s : State) {n : Nat} (h : 0 < n) : seqStep^[n] s.clearDone = seqStep^[n] s := by
  obtain ⟨k, rfl⟩ : ∃ k, n = k + 1 := ⟨n - 1, by omega⟩
  rw [Function.iterate_succ_apply, Function.iterate_succ_apply]
  rfl

/-- A dwell to its end (R79, R83): the wait of the event level. -/
theorem seqStep_dwell : ∀ (n : Nat) {s : State}, s.disp.phase = .dwell → s.disp.done = false →
    s.disp.dwellCnt = n → 1 ≤ n →
    seqStep^[n] s = s.holdDwell.leaveDwell ∧ ∀ j, j < n → (seqStep^[j] s).disp.phase ≠ .idle := by
  intro n
  induction n with
  | zero => intro s _ _ _ h; omega
  | succ n ih =>
    intro s h hd hc _
    rcases Nat.eq_zero_or_pos n with rfl | hn
    · constructor
      · show seqStep s = _
        have hc1 : ¬ 1 < s.disp.dwellCnt := by omega
        rw [seqStep, State.seqEdge, h, clearDone_of hd]
        simp only [State.edgeDwell, if_neg hc1]
        have : s.holdDwell = s.holdWire 1 := by
          obtain ⟨ps, d, r, _, _, _, _, _, _, _, _, _, w⟩ := s
          obtain ⟨_, _, _, _, _, _, _, cnt, _, _, _, _⟩ := d
          simp only at hc
          subst hc
          rfl
        rw [this]
      · intro j hj
        have : j = 0 := by omega
        subst this
        simp [h]
    · have hstep := seqEdge_dwell_wait h (by omega) none
      have hs : seqStep s = _ := hstep
      obtain ⟨he, hb⟩ := ih (s := seqStep s) (by rw [hs]; exact h) (by rw [hs]) (by rw [hs]; simp [hc]) hn
      constructor
      · rw [Function.iterate_succ_apply, he, hs]
        have h1 : max n 1 = n := by omega
        have h2 : max (n + 1) 1 = n + 1 := by omega
        have h3 : min n 1 = 1 := by omega
        have h4 : min (n + 1) 1 = 1 := by omega
        simp only [State.holdDwell, State.holdWire, hc, Nat.add_sub_cancel, addWait_addWait, h1, h2, h3, h4]
        rw [Nat.add_comm 1 n, ← hd]
      · intro j hj
        rcases Nat.eq_zero_or_pos j with rfl | hpos
        · simp [h]
        · obtain ⟨i, rfl⟩ : ∃ i, j = i + 1 := ⟨j - 1, by omega⟩
          rw [Function.iterate_succ_apply]
          exact hb i (by omega)

/-- One position of a render from LATCH_LO (R75, R84). -/
theorem seqStep_position {s : State} (h : s.disp.phase = .latchLo) (hd : s.disp.done = false)
    (hp : s.PinsAtRest) (hN : 1 ≤ s.params.dwellCycles) :
    seqStep^[50 + s.params.dwellCycles] s = s.renderPosition ∧
    ∀ j, j < 50 + s.params.dwellCycles → (seqStep^[j] s).disp.phase ≠ .idle := by
  obtain ⟨he, hb⟩ := seqStep_frame h hd hp
  have hs := sendFrame_spec hp
  obtain ⟨he2, hb2⟩ := seqStep_dwell s.params.dwellCycles (s := s.sendFrame)
    (by rw [hs]) (by rw [hs]; exact hd) (by rw [hs]) hN
  constructor
  · rw [Nat.add_comm, Function.iterate_add_apply, he, he2]
    rfl
  · intro j hj
    by_cases hlt : j < 50
    · exact (Phase.sending_ne (hb j hlt)).1
    · have hj' : j = (j - 50) + 50 := by omega
      rw [hj', Function.iterate_add_apply, he]
      exact hb2 _ (by omega)

/-- A whole render after its accepting edge (R75, R84): the RENDER of the event level. -/
theorem seqStep_render {s : State} (hp : s.PinsAtRest) (hN : 1 ≤ s.params.dwellCycles) (c : Cmd) :
    seqStep^[renderCycles s.params] (s.accept c) = s.render c ∧
    ∀ j, j < renderCycles s.params → (seqStep^[j] (s.accept c)).disp.phase ≠ .idle := by
  have key : ∀ (p : Position) (u : State), u.disp.phase = .latchLo → u.disp.done = false →
      u.PinsAtRest → 1 ≤ u.params.dwellCycles → u.disp.pos = p → p ≠ 3 →
      u.renderPosition.disp.phase = .latchLo ∧ u.renderPosition.disp.done = false ∧
      u.renderPosition.PinsAtRest ∧ u.renderPosition.params = u.params ∧
      u.renderPosition.disp.pos = p + 1 := by
    intro p u h hd hpu hNu hpos hne
    rw [renderPosition_spec hpu hNu]
    have hne' : ¬ p = 3#2 := hne
    simp [hpos, hne', State.PinsAtRest]
  let a := s.accept c
  obtain ⟨p0, d0, r0, n0, q0⟩ := key 0 a rfl rfl hp hN rfl (by decide)
  obtain ⟨p1, d1, r1, n1, q1⟩ := key 1 _ p0 d0 r0 (by rw [n0]; exact hN) q0 (by decide)
  obtain ⟨p2, d2, r2, n2, q2⟩ := key 2 _ p1 d1 r1 (by rw [n1, n0]; exact hN) q1 (by decide)
  have hn0 : a.params = s.params := rfl
  obtain ⟨e0, b0⟩ := seqStep_position (s := a) rfl rfl hp hN
  obtain ⟨e1, b1⟩ := seqStep_position p0 d0 r0 (by rw [n0]; exact hN)
  obtain ⟨e2, b2⟩ := seqStep_position p1 d1 r1 (by rw [n1, n0]; exact hN)
  obtain ⟨e3, b3⟩ := seqStep_position p2 d2 r2 (by rw [n2, n1, n0]; exact hN)
  rw [hn0] at e0 b0
  rw [n0, hn0] at e1 b1
  rw [n1, n0, hn0] at e2 b2
  rw [n2, n1, n0, hn0] at e3 b3
  have hm : renderCycles s.params = 4 * (50 + s.params.dwellCycles) := rfl
  generalize 50 + s.params.dwellCycles = m at e0 b0 e1 b1 e2 b2 e3 b3 hm
  replace hm : renderCycles s.params = m + (m + (m + m)) := by omega
  constructor
  · rw [hm, Function.iterate_add_apply, Function.iterate_add_apply, Function.iterate_add_apply]
    rw [show seqStep^[m] (s.accept c) = a.renderPosition from e0, e1, e2, e3]
    rfl
  · intro j hj
    rw [hm] at hj
    by_cases h0 : j < m
    · exact b0 j h0
    by_cases h1 : j < m + m
    · rw [show j = (j - m) + m by omega, Function.iterate_add_apply, show seqStep^[m] (s.accept c) = a.renderPosition from e0]
      exact b1 _ (by omega)
    by_cases h2 : j < m + (m + m)
    · rw [show j = (j - m - m) + (m + m) by omega, Function.iterate_add_apply, Function.iterate_add_apply,
        show seqStep^[m] (s.accept c) = a.renderPosition from e0, e1]
      exact b2 _ (by omega)
    · rw [show j = (j - m - m - m) + (m + (m + m)) by omega, Function.iterate_add_apply,
        Function.iterate_add_apply, Function.iterate_add_apply,
        show seqStep^[m] (s.accept c) = a.renderPosition from e0, e1, e2]
      exact b3 _ (by omega)

/-! ### A requested RENDER -/

theorem sameDisplay_symm {s t : State} (h : SameDisplay s t) : SameDisplay t s :=
  ⟨h.1.symm, h.2.symm, h.3.symm, h.4.symm⟩

theorem seqStep_iterate_sameDisplay {s t : State} (h : SameDisplay s t) : ∀ n : Nat,
    SameDisplay (seqStep^[n] s) (seqStep^[n] t) := by
  intro n
  induction n with
  | zero => exact h
  | succ n ih =>
    rw [Function.iterate_succ_apply', Function.iterate_succ_apply']
    exact seqEdge_sameDisplay ih none

/-- No reset comes after an edge with a request either. -/
theorem NoReset_clockEdgeWith {s : State} (h : s.NoReset) (r : Drive) :
    (s.clockEdgeWith r).advanceInputs.NoReset := by
  obtain ⟨-, hi, hs, -⟩ := clockEdgeWith_frame s r
  exact NoReset_advanceInputs ⟨by rw [hi]; exact h.1, by rw [hs]; exact h.2⟩

/-- Edges from a busy display, given what the sequencer alone does (R82, R123.4). -/
theorem edges_sameDisplay {s u : State} (h : s.NoReset) (hu : SameDisplay s u) {n : Nat}
    (hb : ∀ j, j < n → (seqStep^[j] u).disp.phase ≠ .idle) :
    SameDisplay (s.edges n) (seqStep^[n] u) := by
  refine sameDisplay_trans (edges_busy h n fun j hj => ?_) (seqStep_iterate_sameDisplay hu n)
  rw [(seqStep_iterate_sameDisplay hu j).disp]
  exact hb j hj

/-- The edge at which a free display is presented a command accepts it (R82). -/
theorem clockEdgeWith_accepts {s : State} (h : s.inp.rst = false) (hi : s.disp.phase = .idle) {r : Drive}
    {c : Cmd} (hc : (r.over s.drive).cmd = some c) :
    SameDisplay (s.clockEdgeWith r).advanceInputs (s.accept c) := by
  refine sameDisplay_trans (advanceInputs_sameDisplay _) ?_
  have := clockEdgeWith_sameDisplay h r
  rw [hc, seqEdge_idle_some hi] at this
  exact this

/-- After its edges a render accepted at an edge has done to the display unit what RENDER does at the event
level (R75, R84). -/
theorem render_edges {s : State} (h : s.NoReset) (hi : s.disp.phase = .idle) (hp : s.PinsAtRest)
    (hN : 1 ≤ s.params.dwellCycles) {r : Drive} {c : Cmd} (hc : (r.over s.drive).cmd = some c) :
    SameDisplay ((s.clockEdgeWith r).advanceInputs.edges (renderCycles s.params)) (s.render c) := by
  obtain ⟨he, hb⟩ := seqStep_render hp hN c
  have := edges_sameDisplay (NoReset_clockEdgeWith h r) (clockEdgeWith_accepts h.1 hi hc) hb
  rw [he] at this
  exact this

/-- A requested RENDER, without reset, is its edges (R75, R156). -/
theorem runRender_spec {s : State} (h : s.NoReset) (c : Cmd) :
    s.runRender c =
      (s.clockEdgeWith ⟨false, some c⟩).advanceInputs.edges (renderCycles s.params) :=
  run_noReset _ (NoReset_clockEdgeWith h _)

/-! ### What happens beside the display unit -/

/-- Two states that agree beside the display unit, both with a busy display or both with a free one, agree
there after an edge (R123.4). -/
theorem nextEdge_sameRest {s t : State} (h : SameRest s t) (hd : s.disp.done = t.disp.done)
    (hb : s.disp.phase = .idle ↔ t.disp.phase = .idle) : SameRest s.nextEdge t.nextEdge := by
  obtain ⟨ps, d, r, db, ck, v, ho, ti, ip, sc, pe, re, w⟩ := s
  obtain ⟨ps', d', r', db', ck', v', ho', ti', ip', sc', pe', re', w'⟩ := t
  obtain ⟨rfl, rfl, rfl, rfl, rfl, rfl, rfl, rfl, rfl, rfl⟩ := h
  have hadv : ∀ {a b : State}, SameRest a b → SameRest a.advanceInputs b.advanceInputs := by
    intro a b h
    unfold State.advanceInputs
    rw [h.script]
    split
    · exact h
    · exact ⟨h.1, h.2, h.3, h.4, h.5, h.6, rfl, rfl, h.9, h.10⟩
  let s : State := ⟨ps, d, r, db, ck, v, ho, ti, ip, sc, pe, re, w⟩
  let t : State := ⟨ps, d', r', db, ck, v, ho, ti, ip, sc, pe, re, w'⟩
  have hready : s.cmdReady = t.cmdReady := by
    show decide (d.phase = .idle) = decide (d'.phase = .idle)
    exact decide_eq_decide.2 hb
  have hpres : ∀ c, s.presented true c = t.presented true c := by
    intro c
    simp only [State.presented, hready]
  have hhost : s.hostAfter true = t.hostAfter true := by
    have hd' : d.done = d'.done := hd
    have hf : s.hostForms = t.hostForms := rfl
    have hc : s.formedCmd = t.formedCmd := rfl
    cases ho with
    | off => rfl
    | step1 => rfl
    | waitPass => show (if s.hostForms then _ else _) = (if t.hostForms then _ else _); rw [hf, hpres, hc]
    | work k => show (if s.hostForms then _ else _) = (if t.hostForms then _ else _); rw [hf, hpres, hc]
    | present c => exact hpres c
    | waitDone => show (if d.done then _ else _) = (if d'.done then _ else _); rw [hd']
  have hsample : s.drive.sampleEn = t.drive.sampleEn := by
    cases ho with
    | waitDone => exact hd
    | off => rfl
    | step1 => rfl
    | waitPass => rfl
    | work _ => rfl
    | present _ => rfl
  apply hadv
  obtain ⟨a1, a2, a3, a4, a5, a6, a7, a8, a9⟩ := clockEdge_frame s
  obtain ⟨b1, b2, b3, b4, b5, b6, b7, b8, b9⟩ := clockEdge_frame t
  refine ⟨a1.trans b1.symm, ?_, a6.trans b6.symm, a7.trans b7.symm, ?_, a9.trans b9.symm, a2.trans b2.symm,
    a3.trans b3.symm, a4.trans b4.symm, a5.trans b5.symm⟩
  · cases hr : ip.rst with
    | true =>
      have h1 : s.clockEdge.deb = Debouncer.reset := by simp [State.clockEdge, State.clockEdgeWith, s, hr]
      have h2 : t.clockEdge.deb = Debouncer.reset := by simp [State.clockEdge, State.clockEdgeWith, t, hr]
      exact h1.trans h2.symm
    | false =>
      have h1 := clockEdge_deb (s := s) hr
      have h2 := clockEdge_deb (s := t) hr
      rw [hsample] at h1
      exact h1.trans h2.symm
  · rw [a8, b8, hhost]

/-- While two displays are busy and their `done` agrees, what happens beside them agrees (R123.4). -/
theorem edges_sameRest {s t : State} (hs : s.NoReset) (ht : t.NoReset) (h : SameRest s t) : ∀ n : Nat,
    (∀ j, j < n → (seqStep^[j] s).disp.phase ≠ .idle ∧ (seqStep^[j] t).disp.phase ≠ .idle ∧
      (seqStep^[j] s).disp.done = (seqStep^[j] t).disp.done) →
    SameRest (s.edges n) (t.edges n) := by
  intro n
  induction n with
  | zero => intro _; exact h
  | succ n ih =>
    intro hb
    have hn := ih fun j hj => hb j (Nat.lt_succ_of_lt hj)
    have ds := (edges_busy hs n fun j hj => (hb j (Nat.lt_succ_of_lt hj)).1).disp
    have dt := (edges_busy ht n fun j hj => (hb j (Nat.lt_succ_of_lt hj)).2.1).disp
    obtain ⟨b1, b2, b3⟩ := hb n (Nat.lt_succ_self n)
    refine nextEdge_sameRest hn (by rw [ds, dt]; exact b3) ?_
    rw [ds, dt]
    exact ⟨fun h => absurd h b1, fun h => absurd h b2⟩

/-- A display made busy for `n` edges is busy in each, with `done` down after the first. -/
theorem displayBusy_steps (s : State) (n : Nat) : ∀ j, j ≤ n →
    (seqStep^[j] (s.displayBusy n)).disp.phase = .dwell ∧
    (seqStep^[j] (s.displayBusy n)).disp.dwellCnt = n + 1 - j ∧
    (seqStep^[j] (s.displayBusy n)).disp.done = if j = 0 then s.disp.done else false := by
  intro j
  induction j with
  | zero => intro _; exact ⟨rfl, rfl, rfl⟩
  | succ j ih =>
    intro hj
    obtain ⟨h1, h2, -⟩ := ih (by omega)
    rw [Function.iterate_succ_apply']
    have := seqEdge_dwell_wait h1 (by rw [h2]; omega) none
    rw [show seqStep (seqStep^[j] (s.displayBusy n)) = _ from this]
    refine ⟨h1, ?_, by simp⟩
    show (seqStep^[j] (s.displayBusy n)).disp.dwellCnt - 1 = _
    rw [h2]
    omega

/-- No edge in the middle of a frame raises `done` (R85). -/
theorem seqStep_done {s : State} (h : s.disp.phase ≠ .dwell) : (seqStep s).disp.done = false := by
  unfold seqStep State.seqEdge
  cases hp : s.disp.phase with
  | idle => rfl
  | latchLo => rfl
  | bitData => rfl
  | bitClkHi => rfl
  | bitClkLo =>
    show (s.clearDone.edgeBitClkLo).disp.done = false
    unfold State.edgeBitClkLo
    by_cases hb : s.clearDone.disp.bitcnt = 15
    · rw [if_pos hb]; rfl
    · rw [if_neg hb]; rfl
  | latchHi => rfl
  | dwell => exact absurd hp h

/-- A run with the display unit set to `d` that no reset cuts short: the display unit as the sequencer alone
leaves it, and the rest as a busy display does (R70, R79, R123.4). -/
theorem runDisplay_spec {s : State} (hs : s.NoReset) (d : Display) (n : Nat)
    (hb : ∀ j, j < n → (seqStep^[j] { s with disp := d }).disp.phase ≠ .idle ∧
      (seqStep^[j] { s with disp := d }).disp.done = if j = 0 then s.disp.done else false) :
    let e : State := { s with disp := d }
    (s.runDisplay d n).disp = { (seqStep^[n] e).disp with phase := .idle } ∧
    (s.runDisplay d n).recv = (seqStep^[n] e).recv ∧
    (s.runDisplay d n).wire = (seqStep^[n] e).wire ∧
    SameRest (s.runDisplay d n) ((s.displayBusy n).edges n) := by
  intro e
  have he : e.NoReset := hs
  have hu : (s.displayBusy n).NoReset := hs
  have hd := edges_busy he n fun j hj => (hb j hj).1
  have hr : SameRest (e.edges n) ((s.displayBusy n).edges n) := by
    refine edges_sameRest he hu ⟨rfl, rfl, rfl, rfl, rfl, rfl, rfl, rfl, rfl, rfl⟩ n fun j hj => ?_
    obtain ⟨d1, -, d3⟩ := displayBusy_steps s n j (by omega)
    exact ⟨(hb j hj).1, by rw [d1]; exact Phase.noConfusion, by rw [d3]; exact (hb j hj).2⟩
  unfold State.runDisplay
  rw [show State.run _ n = e.edges n from run_noReset n he]
  refine ⟨?_, hd.recv, hd.wire, hr.setDisp _⟩
  show { (e.edges n).disp with phase := .idle } = _
  rw [hd.disp]

/-- A driver operation that no reset cuts short (R70). -/
theorem drivePins_spec {s : State} (hs : s.NoReset) (ph : Phase) (bits : Word) (n : Nat)
    (hb : ∀ j, j < n →
      (seqStep^[j] { s with disp := { s.disp with phase := ph, frame := bits, bitcnt := 0 } }).disp.phase.sending
        = true) :
    let e : State := { s with disp := { s.disp with phase := ph, frame := bits, bitcnt := 0 } }
    (s.drivePins ph bits n).disp = { (seqStep^[n] e).disp with phase := .idle } ∧
    (s.drivePins ph bits n).recv = (seqStep^[n] e).recv ∧
    (s.drivePins ph bits n).wire = (seqStep^[n] e).wire ∧
    SameRest (s.drivePins ph bits n) ((s.displayBusy n).edges n) := by
  refine runDisplay_spec hs _ n fun j hj => ⟨(Phase.sending_ne (hb j hj)).1, ?_⟩
  rcases Nat.eq_zero_or_pos j with rfl | hpos
  · rfl
  · obtain ⟨i, rfl⟩ : ∃ i, j = i + 1 := ⟨j - 1, by omega⟩
    rw [Function.iterate_succ_apply', seqStep_done (Phase.sending_ne (hb i (by omega))).2]
    simp

/-- Edges of a dwell that do not end it (R83). -/
theorem displayBusy_iterate (s : State) (n : Nat) : ∀ j, 1 ≤ j → j ≤ n →
    seqStep^[j] (s.displayBusy n) =
      { s with
        disp := { s.disp with phase := .dwell, dwellCnt := n + 1 - j, done := false }
        wire := addWait j s.wire } := by
  intro j
  induction j with
  | zero => intro h; omega
  | succ j ih =>
    intro _ hj
    rw [Function.iterate_succ_apply']
    rcases Nat.eq_zero_or_pos j with rfl | hpos
    · exact seqEdge_dwell_wait (s := s.displayBusy n) rfl (by show 1 < n + 1; omega) none
    · rw [ih hpos (by omega)]
      refine (seqEdge_dwell_wait rfl (by show 1 < n + 1 - j; omega) none).trans ?_
      simp only [addWait_addWait]
      congr 2

/-- A dwell on an idle display that no reset cuts short: it waits, writes no pin, and leaves 1 in `dwell_cnt`
(R79). -/
theorem dwellAlone_spec {s : State} (hs : s.NoReset) (hN : 1 ≤ s.params.dwellCycles) :
    s.dwellAlone.disp = { s.disp with phase := .idle, dwellCnt := 1, done := false } ∧
    s.dwellAlone.recv = s.recv ∧ s.dwellAlone.wire = addWait s.params.dwellCycles s.wire ∧
    SameRest s.dwellAlone ((s.displayBusy s.params.dwellCycles).edges s.params.dwellCycles) := by
  obtain ⟨h1, h2, h3, h4⟩ := runDisplay_spec hs (s.displayBusy s.params.dwellCycles).disp
    s.params.dwellCycles fun j hj => by
      obtain ⟨d1, -, d3⟩ := displayBusy_steps s s.params.dwellCycles j (by omega)
      exact ⟨fun h => Phase.noConfusion (d1.symm.trans h), d3⟩
  have he := displayBusy_iterate s s.params.dwellCycles s.params.dwellCycles hN (Nat.le_refl _)
  rw [show s.params.dwellCycles + 1 - s.params.dwellCycles = 1 by omega] at he
  exact ⟨h1.trans (congrArg (fun t : State => { t.disp with phase := .idle }) he),
    h2.trans (by have h := congrArg State.recv he; exact h),
    h3.trans (by have h := congrArg State.wire he; exact h), h4⟩

end Sys2Proof.Machine
end

