-- ==== Sys2Proof/Laws/Requests.lean ====
section
/-! SUPPORT. What the clock edges of a requested operation do to the inputs, the periodic source and the
debouncer, whatever the operation does to the display; and what a driver operation leaves. -/
set_option Elab.async false

namespace Sys2Proof.Machine

/-! ### Time passes the same for every request -/

/-- Two states at which the same inputs are to come and the same TICK is due. -/
structure SameTiming (s t : State) : Prop where
  params : s.params = t.params
  inp : s.inp = t.inp
  script : s.script = t.script
  tickIn : s.tickIn = t.tickIn
  result : s.result = t.result

theorem SameTiming.rfl {s : State} : SameTiming s s := ⟨.refl _, .refl _, .refl _, .refl _, .refl _⟩

theorem SameTiming.trans {s t u : State} (h : SameTiming s t) (k : SameTiming t u) : SameTiming s u :=
  ⟨h.1.trans k.1, h.2.trans k.2, h.3.trans k.3, h.4.trans k.4, h.5.trans k.5⟩

/-- An edge counts for the inputs and the source whatever the requests drive at it (R123.4, R148). -/
theorem SameTiming.edge {s t : State} (h : SameTiming s t) (r r' : Drive) :
    SameTiming (s.clockEdgeWith r).advanceInputs (t.clockEdgeWith r').advanceInputs := by
  have hadv : ∀ {a b : State}, SameTiming a b → SameTiming a.advanceInputs b.advanceInputs := by
    intro a b h
    unfold State.advanceInputs
    rw [h.script]
    split
    · exact h
    · exact ⟨h.1, .refl _, .refl _, h.4, h.5⟩
  apply hadv
  obtain ⟨a1, a2, a3, -, a5, -, -, -, a9⟩ := clockEdgeWith_frame s r
  obtain ⟨b1, b2, b3, -, b5, -, -, -, b9⟩ := clockEdgeWith_frame t r'
  refine ⟨by rw [a1, b1, h.1], by rw [a2, b2, h.2], by rw [a3, b3, h.3], ?_, by rw [a5, b5, h.5]⟩
  rw [a9, b9, State.tickFires, State.tickFires, h.1, h.4]

/-- `x` is reached from `s` in `n` clock edges, at which requests may drive the ports, and before which the
request may have set up the display unit, the main loop or the requests. -/
inductive EdgesFrom (s : State) : Nat → State → Prop
  | start {x : State} : SameTiming s x → x.deb = s.deb → EdgesFrom s 0 x
  | edge {n : Nat} {x : State} (r : Drive) :
      EdgesFrom s n x → EdgesFrom s (n + 1) (x.clockEdgeWith r).advanceInputs

theorem EdgesFrom.rfl {s : State} : EdgesFrom s 0 s := .start .rfl (.refl _)

/-- Such edges count as any (R148, R156). -/
theorem EdgesFrom.timing {s x : State} {n : Nat} (h : EdgesFrom s n x) : SameTiming (s.edges n) x := by
  induction h with
  | start h _ => exact h
  | edge r _ ih => exact ih.edge ⟨false, none⟩ r

/-- A run in which no reset comes is all its edges. -/
theorem EdgesFrom.run {s : State} : ∀ (m : Nat) {n : Nat} {x : State}, EdgesFrom s n x →
    (∀ j, n ≤ j → j < n + m → (s.edges j).inp.rst = false) → EdgesFrom s (n + m) (x.run m) := by
  intro m
  induction m with
  | zero => exact fun h _ => h
  | succ m ih =>
    intro n x h hr
    have hx : x.inp.rst = false := by rw [← h.timing.inp]; exact hr n (by omega) (by omega)
    rw [State.run, if_neg (by simp [hx]), show n + (m + 1) = n + 1 + m by omega]
    exact ih (.edge ⟨false, none⟩ h) fun j hj hj' => hr j (by omega) (by omega)

/-- A reset edge leaves both blocks at their reset values, whatever a request drives (R123.1, R140). -/
theorem EdgesFrom.reset {s x : State} {n : Nat} (h : EdgesFrom s n x) (hr : (s.edges n).inp.rst = true)
    (r : Drive) :
    let y := (x.clockEdgeWith r).advanceInputs
    EdgesFrom s (n + 1) y ∧ y.disp = Display.reset ∧ y.deb = Debouncer.reset := by
  have hx : x.inp.rst = true := by rw [← h.timing.inp]; exact hr
  have hd : (x.clockEdgeWith r).advanceInputs.deb = (x.clockEdgeWith r).deb := by
    unfold State.advanceInputs; split <;> exact .refl _
  refine ⟨.edge r h, ?_, ?_⟩
  · rw [(advanceInputs_sameDisplay _).disp]
    simp [State.clockEdgeWith, hx]
  · rw [hd]
    simp [State.clockEdgeWith, hx]

/-- A run in which a reset comes ends with it (log 10). -/
theorem EdgesFrom.run_reset {s : State} : ∀ (m : Nat) {n k : Nat} {x : State}, EdgesFrom s n x → n ≤ k →
    k < n + m → (∀ j, n ≤ j → j < k → (s.edges j).inp.rst = false) → (s.edges k).inp.rst = true →
    EdgesFrom s (k + 1) (x.run m) ∧ (x.run m).disp = Display.reset ∧ (x.run m).deb = Debouncer.reset := by
  intro m
  induction m with
  | zero => intro n k x _ h h'; omega
  | succ m ih =>
    intro n k x h hn hk hj hr
    rcases Nat.eq_or_lt_of_le hn with heq | hlt
    · subst heq
      have hx : x.inp.rst = true := by rw [← h.timing.inp]; exact hr
      rw [State.run, if_pos hx]
      exact h.reset hr ⟨false, none⟩
    · have hx : x.inp.rst = false := by rw [← h.timing.inp]; exact hj n (by omega) hlt
      rw [State.run, if_neg (by simp [hx])]
      exact ih (.edge ⟨false, none⟩ h) (by omega) (by omega) (fun j h h' => hj j (by omega) h') hr

/-- A block counts down in the edges of any operation, and passes when its own are over (R92, R94, R95). -/
theorem EdgesFrom.block {s x : State} {n : Nat} (h : EdgesFrom s n x)
    (hr : ∀ j, j < n → (s.edges j).inp.rst = false) (hb : s.deb.phase = .block) :
    (n = 0 → x.deb = s.deb) ∧
    (1 ≤ n → n < s.deb.cnt → x.deb = ⟨.block, s.deb.cnt - n, false, false⟩) ∧
    (1 ≤ n → n = s.deb.cnt → x.deb = ⟨.ready, 1, false, true⟩) := by
  induction h with
  | start _ h => exact ⟨fun _ => h, fun h => by omega, fun h => by omega⟩
  | @edge n x r h ih =>
    obtain ⟨i1, i2, -⟩ := ih fun j hj => hr j (by omega)
    have hx : x.inp.rst = false := by rw [← h.timing.inp]; exact hr n (by omega)
    have hadv : (x.clockEdgeWith r).advanceInputs.deb = (x.clockEdgeWith r).deb := by
      unfold State.advanceInputs; split <;> exact .refl _
    have hp : n < s.deb.cnt → x.deb.phase = .block ∧ x.deb.cnt = s.deb.cnt - n := by
      intro hn
      rcases Nat.eq_zero_or_pos n with rfl | hpos
      · rw [i1 (.refl _)]; exact ⟨hb, by omega⟩
      · rw [i2 hpos hn]; exact ⟨.refl _, .refl _⟩
    rw [hadv, clockEdgeWith_deb hx r]
    refine ⟨fun h => by omega, fun _ hn => ?_, fun _ hn => ?_⟩
    · obtain ⟨p1, p2⟩ := hp (by omega)
      simp only [Debouncer.edge, Debouncer.clearPulses, p1, Debouncer.wait, p2]
      rw [if_pos (by omega)]
      congr 1
    · obtain ⟨p1, p2⟩ := hp (by omega)
      simp only [Debouncer.edge, Debouncer.clearPulses, p1, Debouncer.wait, p2]
      rw [if_neg (by omega)]
      congr 1
      omega

/-! ### Driver operations -/

/-- `k` bits sent from an idle display (R65, R70): the `k` high bits of the word, in wire order. -/
theorem drivePins_bits {s : State} (hs : s.NoReset) (hsc : s.disp.sclk = false) (w : Word) (k : Nat)
    (hk : 1 ≤ k) (hk' : k ≤ 15) :
    let t := s.drivePins .bitData w (3 * k)
    t.disp =
      { s.disp with
        sdata := w.getLsbD (16 - k), frame := w <<< k, bitcnt := BitVec.ofNat 4 k, done := false
        phase := .idle } ∧
    t.recv =
      ⟨(wireBitsOf w k).foldl (fun (a : Word) b => (a.setWidth 15).concat b) s.recv.sr, s.recv.out⟩ ∧
    t.wire =
      ((wireBitsOf w k).flatMap fun b => [.pin .sdata b, .pin .sclk true, .pin .sclk false]).reverse
        ++ s.wire ∧
    SameRest t ((s.displayBusy (3 * k)).edges (3 * k)) := by
  let e : State := { s with disp := { s.disp with phase := .bitData, frame := w, bitcnt := 0 } }
  obtain ⟨he, hb⟩ := seqStep_bits (s := e.clearDone) (.refl _) (.refl _) k (by show 0 + k ≤ 15; omega)
  have hc := seqStep_clearDone e (n := 3 * k) (by omega)
  obtain ⟨h1, h2, h3, h4⟩ := drivePins_spec hs .bitData w (3 * k) (by
    intro j hj
    rcases Nat.eq_zero_or_pos j with rfl | hp
    · exact .refl _
    · rw [← seqStep_clearDone e hp]; exact hb j hj)
  have hl : ∀ d, (wireBitsOf w k).getLastD d = w.getLsbD (16 - k) := by
    intro d
    obtain ⟨m, rfl⟩ : ∃ m, k = m + 1 := ⟨k - 1, by omega⟩
    rw [wireBitsOf_succ, show 16 - (m + 1) = 15 - m by omega]
    simp
  rw [hc, shiftBits_spec _ (by exact hsc)] at he
  refine ⟨?_, ?_, ?_, h4⟩
  · rw [h1, show seqStep^[3 * k] _ = _ from he]
    simp only [hl, e, State.clearDone]
    simp
  · rw [h2, show seqStep^[3 * k] _ = _ from he]
    exact .refl _
  · rw [h3, show seqStep^[3 * k] _ = _ from he]
    exact .refl _

end Sys2Proof.Machine
end

