-- ==== Sys2Proof/Tests/Slice0.lean ====
section
/-! SUPPORT. The model's own tests. Expected values are those of spec/95_test_vectors.md, or worked out by
hand from the rule the test names. The last part shows that the hypotheses of each statement can be
met. -/
set_option Elab.async false

namespace Sys2Proof.Tests

open Sys2Proof Sys2Proof.Machine

/-! ### Helpers -/

/-- The state an outcome goes on to; the reset state where it does not. -/
def after (o : Host.Outcome State Fault Refusal) : State :=
  match o with
  | .next s => s
  | .fault _ => State.reset
  | .refused _ => State.reset

/-- `o` is a next state. -/
def goesOn (o : Host.Outcome State Fault Refusal) : Bool :=
  match o with
  | .next _ => true
  | .fault _ => false
  | .refused _ => false

/-- Small parameters: `DWELL_CYCLES = 3` (M4), `DEBOUNCE_CYCLES = 4` (B1, B2), a TICK every 2 edges. -/
def smallParams : Params := { defaultParams with fClkHz := 2, dwellCycles := 3, debounceCycles := 4 }

/-- Idle after reset, ports driven by the inputs, small parameters, receiver as P3 starts. -/
def small : State :=
  { State.reset with params := smallParams, host := .off, recv := ⟨0x9908, 0x9908⟩, tickIn := 2 }

/-- `small` with other registers of the multiplexer. -/
def inPhase (ph : Phase) (pos : Position) (cnt : Nat) : State :=
  { small with disp := { small.disp with
      phase := ph, pos := pos, dwellCnt := cnt, latch := !ph.shifting, sclk := decide (ph = .bitClkLo)
      valQ := 1234, frame := 0xF901 } }

/-- `small` with other inputs. -/
def withInputs (i : Inputs) : State := { small with inp := i }

/-- `small` while the debouncer blocks. -/
def blocking (cnt : Nat) : State := { small with deb := ⟨.block, cnt, false, false⟩ }

/-- `small` presented with the command RENDER(1234, none) of M4. -/
def presenting : State :=
  withInputs { Inputs.quiet with cmdValid := true, cmd := ⟨false, 0, 1234⟩ }

/-- The inputs of a reset edge. -/
def resetInputs : Inputs := { Inputs.quiet with rst := true }

/-- `small` just after a render and a pressed sample: `done` and `clk_reset` are up. -/
def pulsing : State :=
  { small with
    disp := { small.disp with done := true }, deb := ⟨.block, 4, true, false⟩, clock := ⟨34, 12⟩
    tickIn := 100 }

/-- The start state and parameters of program P4, the button held, a TICK at edge 100. -/
def programP4 : State :=
  { State.reset with
    params := { defaultParams with dwellCycles := 2, debounceCycles := 5 }
    clock := ⟨34, 12⟩, tickIn := 101, inp := { Inputs.quiet with btnN := false } }

/-! ### WellFormed refuses what is ill formed -/

/-- R61 (b): two digits with one pattern. -/
theorem test_duplicate_pattern_refused :
    ({ defaultParams with segTable := defaultSegTable.set 3 0xC0 } : Params).patternsDistinct = false := by
  decide

/-- R61 (c): an entry with the decimal point on. -/
theorem test_point_on_in_table_refused :
    ({ defaultParams with segTable := defaultSegTable.set 3 0x31 } : Params).pointsOff = false := by
  decide

/-- R5: a zero dwell, a zero debounce, no clock. -/
theorem test_zero_times_refused :
    ({ defaultParams with dwellCycles := 0 } : Params).timesPositive = false ∧
    ({ defaultParams with debounceCycles := 0 } : Params).timesPositive = false ∧
    ({ defaultParams with fClkHz := 0 } : Params).timesPositive = false := by decide

/-- Each part of `Params.wellFormed` counts, and the defaults pass. -/
theorem test_params_wellFormed :
    defaultParams.wellFormed = true ∧ smallParams.wellFormed = true ∧
    ({ defaultParams with segTable := defaultSegTable.set 3 0xC0 } : Params).wellFormed = false ∧
    ({ defaultParams with segTable := defaultSegTable.set 3 0x31 } : Params).wellFormed = false ∧
    ({ defaultParams with dwellCycles := 0 } : Params).wellFormed = false := by decide

/-- E3: the table with the bit order reversed is legal, with the segments on those bits. -/
theorem test_reversed_table_wellFormed :
    ({ defaultParams with
        segLine := #v[6, 5, 4, 3, 2, 1, 0]
        segTable := #v[0x81, 0xCF, 0x92, 0x86, 0xCC, 0xA4, 0xA0, 0x8F, 0x80, 0x84] } : Params).wellFormed
      = true := by decide

/-- R61 (d), (e): the table stored active-high, a table with the shapes of 3 and 5 exchanged, and the
default table on other lines are no legal tables. -/
theorem test_shapes_refused :
    ({ defaultParams with
        segTable := #v[0xBF, 0x86, 0xDB, 0xCF, 0xE6, 0xED, 0xFD, 0x87, 0xFF, 0xEF] } : Params).shapesStandard
      = false ∧
    ({ defaultParams with segTable := (defaultSegTable.set 3 0x92).set 5 0xB0 } : Params).shapesStandard
      = false ∧
    ({ defaultParams with segLine := #v[6, 5, 4, 3, 2, 1, 0] } : Params).wellFormed = false := by decide

/-- R62: the shape of 7 with the upper-left bar is another convention, and legal. -/
theorem test_other_seven_wellFormed :
    ({ defaultParams with segTable := defaultSegTable.set 7 0xD8 } : Params).wellFormed = true := by decide

/-- R46: two lights on one bit. -/
theorem test_shared_line_refused :
    ({ defaultParams with dpBit := 6 } : Params).linesDistinct = false := by decide

/-- R5: a width that does not hold a value above 9999. -/
theorem test_narrow_value_refused :
    ({ defaultParams with valueWidth := 13 } : Params).widthHoldsValues = false ∧
    ({ defaultParams with valueWidth := 14 } : Params).wellFormed = true := by decide

/-- R45: an operation whose value does not fit. -/
theorem test_wide_value_refused :
    (Instr.render false 0 65536).wellFormed 16 = false ∧
    (Instr.showclock 0 65536).wellFormed 16 = false ∧ (Instr.showvolts 65536).wellFormed 16 = false ∧
    (Instr.render false 0 65536).wellFormed 17 = true := by decide

/-- A bit above each format's width. -/
theorem test_width_refused :
    (OpWord.mk .cmd (1 <<< 19)).inWidth 16 = false ∧ (OpWord.mk .showclock (1 <<< 19)).inWidth 16 = false ∧
    (OpWord.mk .showvolts (13 <<< 16)).inWidth 16 = false ∧ (OpWord.mk .segb 0x1F9).inWidth 16 = false ∧
    (OpWord.mk .selb 0x101).inWidth 16 = false ∧ (OpWord.mk .frame 0x10000).inWidth 16 = false ∧
    (OpWord.mk .byte 0x100).inWidth 16 = false ∧ (OpWord.mk .bit 2).inWidth 16 = false ∧
    (OpWord.mk .seq 4).inWidth 16 = false ∧ (OpWord.mk .env 8).inWidth 16 = false := by decide

/-- Each format with fixed bits, one word that breaks them. -/
theorem test_fixed_bits_refused :
    (OpWord.mk .showclock 0x404D2).fixedBits 16 = false ∧
      (OpWord.mk .showvolts 0x4014A).fixedBits 16 = false ∧
    (OpWord.mk .segb 0xFF).fixedBits 16 = false ∧ (OpWord.mk .selb 0x03).fixedBits 16 = false ∧
    (OpWord.mk .env 5).fixedBits 16 = false := by decide

/-- The decoder refuses the same words by name. -/
theorem test_decode_refuses :
    decode 16 ⟨.cmd, 1 <<< 19⟩ = .error (.reservedBits .cmd) ∧
    decode 16 ⟨.showclock, 0x404D2⟩ = .error .notShowClock ∧
    decode 16 ⟨.showvolts, 0x4014A⟩ = .error .notShowVolts ∧
    decode 16 ⟨.segb, 0xFF⟩ = .error .notASegmentByte ∧
    decode 16 ⟨.selb, 0x03⟩ = .error .notOneHot ∧
    decode 16 ⟨.selb, 0x12⟩ = .error .notOneHot ∧
    decode 16 ⟨.env, 5⟩ = .error .noSuchEnvironmentRow := by decide

/-! ### Every constructor decoded from a word written out -/

/-- M3 and R45: RENDER(330, 1) is 0x5014A, RENDER(7, 3) is 0x70007. -/
theorem test_decode_render :
    decode 16 ⟨.cmd, 0b1_01_0000000101001010⟩ = .ok (.render true 1 330) ∧
    decode 16 ⟨.cmd, 0x70007⟩ = .ok (.render true 3 7) ∧
    decode 14 ⟨.cmd, 0b1_01_00000101001010⟩ = .ok (.render true 1 330) := by decide

/-- R45, R59: SHOWCLOCK of 1234 with `dp_idx = 2` ignored (M3: 0x204D2). -/
theorem test_decode_showclock :
    decode 16 ⟨.showclock, 0b0_10_0000010011010010⟩ = .ok (.showclock 2 1234) := by decide

/-- R45, R59: SHOWVOLTS of 330. -/
theorem test_decode_showvolts :
    decode 16 ⟨.showvolts, 0b1_01_0000000101001010⟩ = .ok (.showvolts 330) := by decide

/-- The rows ENCODE.0 to ENCODE.4, bit 7 once each way (E1). -/
theorem test_decode_encode_low :
    decode 16 ⟨.segb, 0b1_1000000⟩ = .ok (.encode0 true) ∧
    decode 16 ⟨.segb, 0b0_1111001⟩ = .ok (.encode1 false) ∧
    decode 16 ⟨.segb, 0b1_0100100⟩ = .ok (.encode2 true) ∧
    decode 16 ⟨.segb, 0b0_0110000⟩ = .ok (.encode3 false) ∧
    decode 16 ⟨.segb, 0b1_0011001⟩ = .ok (.encode4 true) := by decide

/-- The rows ENCODE.5 to ENCODE.9, bit 7 once each way (E1). -/
theorem test_decode_encode_high :
    decode 16 ⟨.segb, 0b0_0010010⟩ = .ok (.encode5 false) ∧
    decode 16 ⟨.segb, 0b1_0000010⟩ = .ok (.encode6 true) ∧
    decode 16 ⟨.segb, 0b0_1111000⟩ = .ok (.encode7 false) ∧
    decode 16 ⟨.segb, 0b1_0000000⟩ = .ok (.encode8 true) ∧
    decode 16 ⟨.segb, 0b0_0010000⟩ = .ok (.encode9 false) := by decide

/-- R47, M2. -/
theorem test_decode_digitsel :
    decode 16 ⟨.selb, 0b0000_0001⟩ = .ok .digitsel0 ∧ decode 16 ⟨.selb, 0b0000_0010⟩ = .ok .digitsel1 ∧
    decode 16 ⟨.selb, 0b0000_0100⟩ = .ok .digitsel2 ∧
    decode 16 ⟨.selb, 0b0000_1000⟩ = .ok .digitsel3 := by decide

/-- W1 and R48: the frame 1111 1001 0000 0001, its bytes, its last bit. -/
theorem test_decode_driver :
    decode 16 ⟨.frame, 0b1111_1001_0000_0001⟩ = .ok (.writeframe 0xF9 0x01) ∧
    decode 16 ⟨.frame, 0b1010_1010_0101_0101⟩ = .ok (.writeframe 0xAA 0x55) ∧
    decode 16 ⟨.byte, 0b1010_1010⟩ = .ok (.shiftbyte 0xAA) ∧
    decode 16 ⟨.bit, 0⟩ = .ok (.shiftbit false) ∧ decode 16 ⟨.bit, 1⟩ = .ok (.shiftbit true) := by decide

/-- The rows of formats SEQ and ENV in the table's order (R52; assumption log 3). -/
theorem test_decode_seq_env :
    decode 16 ⟨.seq, 0⟩ = .ok .digit ∧ decode 16 ⟨.seq, 1⟩ = .ok .dwell ∧
    decode 16 ⟨.seq, 2⟩ = .ok .dbsample ∧ decode 16 ⟨.seq, 3⟩ = .ok .dbwait ∧
    decode 16 ⟨.env, 0⟩ = .ok .tick ∧ decode 16 ⟨.env, 1⟩ = .ok .clkreset ∧ decode 16 ⟨.env, 2⟩ = .ok .vupdate ∧
    decode 16 ⟨.env, 3⟩ = .ok .modesel ∧ decode 16 ⟨.env, 4⟩ = .ok .loop := by decide

/-- The words of the table rows alone; a row of no bits is no word (assumption log 4). -/
theorem test_decodeTableWord :
    decodeTableWord 24 0x5014A = some (.showvolts 330) ∧
    decodeTableWord 24 0x70007 = some (.render true 3 7) ∧
    decodeTableWord 24 0x004D2 = some (.showclock 0 1234) ∧
    decodeTableWord 8 0xB0 = some (.encode3 true) ∧ decodeTableWord 8 0x02 = some .digitsel1 ∧
    decodeTableWord 8 0xFF = some (.shiftbyte 0xFF) ∧
    decodeTableWord 16 0xF901 = some (.writeframe 0xF9 0x01) ∧
    decodeTableWord 1 1 = some (.shiftbit true) ∧ decodeTableWord 0 0 = none := by decide

/-! ### One step -/

/-- A requested word runs: WRITEFRAME after reset, with W1's receiver word. -/
theorem test_step_runs_request :
    (after (step (State.reset.withFetchWord 16 0xF901))).recv = ⟨0xF901, 0xF901⟩ := by decide

/-- E1, E2: ENCODE(3, 0) = 0xB0, ENCODE(3, 1) = 0x30, ENCODE(8, 1) = 0x00. -/
theorem test_encode :
    (after (exec (.encode3 true) small)).result = 0xB0 ∧
      (after (exec (.encode3 false) small)).result = 0x30 ∧
    (after (exec (.encode8 false) small)).result = 0x00 := by decide

/-- E1: the ten bytes with the point off. -/
theorem test_encode_all :
    ((List.finRange 10).map fun d => (after (exec (encodeRow d true) small)).result) =
      [0xC0, 0xF9, 0xA4, 0xB0, 0x99, 0x92, 0x82, 0xF8, 0x80, 0x90] := by decide

/-- E3: with another table the byte changes. -/
theorem test_encode_other_table :
    (after (exec (.encode1 true)
      { small with params := { smallParams with segTable := defaultSegTable.set 1 0xCF } })).result
      = 0xCF := by decide

/-- M2. -/
theorem test_digitsel :
    (after (exec .digitsel0 small)).result = 0x01 ∧
      (after (exec .digitsel3 small)).result = 0x08 := by decide

/-- M1: the tens digit of 1234. -/
theorem test_digit : (after (exec .digit (inPhase .latchLo 2 0))).result = 3 := by decide

/-- M1: all four digits of 12345 and of 65535. -/
theorem test_digits :
    ([0, 1, 2, 3].map fun p : Position => (digitAt 12345 p).val) = [2, 3, 4, 5] ∧
    ([0, 1, 2, 3].map fun p : Position => (digitAt 65535 p).val) = [5, 5, 3, 5] := by decide

/-- R65: the example SHIFTBIT(1), its events and the receiver. -/
theorem test_shiftbit :
    (after (exec (.shiftbit true) small)).wire = [.pin .sclk false, .pin .sclk true, .pin .sdata true] ∧
    (after (exec (.shiftbit true) small)).recv = ⟨0x3211, 0x9908⟩ := by decide

/-- R66: the example SHIFTBYTE(0xF9). -/
theorem test_shiftbyte :
    (after (exec (.shiftbyte 0xF9) small)).recv = ⟨0x08F9, 0x9908⟩ ∧
    (after (exec (.shiftbyte 0xF9) small)).wire.length = 24 := by decide

/-- W2: the receiver and the number of events. -/
theorem test_writeframe :
    (after (exec (.writeframe 0xF9 0x01) small)).recv = ⟨0xF901, 0xF901⟩ ∧
    (after (exec (.writeframe 0xF9 0x01) small)).wire.length = 50 ∧
    (after (exec (.writeframe 0xF9 0x01) small)).disp.sdata = true := by decide

/-- W1: WRITEFRAME does not check its bytes. -/
theorem test_writeframe_any_bytes :
    (after (exec (.writeframe 0xAA 0x55) small)).recv.out = 0xAA55 := by decide

/-- M3: the frames of RENDER(330, 1). -/
theorem test_frames :
    ([0, 1, 2, 3].map fun p : Position => frameWord defaultParams ⟨true, 1, 330⟩ p) =
      [0xC001, 0x3002, 0xB004, 0xC008] := by decide

/-- M4: what one RENDER(1234, none) leaves. -/
theorem test_render_end :
    (after (exec (.render false 0 1234) small)).recv = ⟨0x9908, 0x9908⟩ ∧
    (after (exec (.render false 0 1234) small)).disp.done = true ∧
    (after (exec (.render false 0 1234) small)).disp.dwellCnt = 1 := by decide +kernel

/-- M4, edge 0: acceptance. -/
theorem test_edge_accepts :
    presenting.clockEdge.disp.frame = 0xF901 ∧ presenting.clockEdge.disp.phase = .latchLo ∧
    presenting.clockEdge.busy = true ∧ presenting.clockEdge.disp.latch = true := by decide

/-- M4, edges 1 to 4. -/
theorem test_edges_first_bit :
    ((presenting.edges 2).disp.latch, (presenting.edges 3).disp.sdata,
      (presenting.edges 4).disp.sclk, (presenting.edges 5).disp.frame) =
      (false, true, true, 0xF202) := by decide

/-- M4, edge 53: the dwell ends, position 1 is loaded. -/
theorem test_edge_ends_dwell :
    (inPhase .dwell 0 1).clockEdge.disp.pos = 1 ∧
    (inPhase .dwell 0 1).clockEdge.disp.frame = 0xA402 := by decide

/-- M4, edge 212: the render ends. -/
theorem test_edge_ends_render :
    (inPhase .dwell 3 1).clockEdge.disp.done = true ∧
    (inPhase .dwell 3 1).clockEdge.disp.phase = .idle := by decide

/-- R79: DWELL is the rest of the dwell. -/
theorem test_dwell :
    (after (exec .dwell (inPhase .dwell 0 3))).wire = [.wait 3] ∧
    (after (exec .dwell (inPhase .dwell 0 3))).disp.frame = 0xA402 := by decide

/-- R79: a DWELL of its own waits three edges, leaves 1 in `dwell_cnt`, and does not let a command in. -/
theorem test_dwell_alone :
    (after (exec .dwell presenting)).wire = [.wait 3] ∧
    (after (exec .dwell presenting)).disp = { small.disp with dwellCnt := 1 } := by decide

/-- P3: the shift chain 0x908C is committed by the reset edge, whatever else. -/
theorem test_reset_mid_frame :
    ({ inPhase .bitData 0 0 with recv := ⟨0x908C, 0x9908⟩, inp := resetInputs } : State).clockEdge.recv
      = ⟨0x908C, 0x908C⟩ := by decide

/-- B1 and B2, edge 10. -/
theorem test_dbsample :
    (after (exec .dbsample small)).deb = ⟨.ready, 0, false, true⟩ ∧
    (after (exec .dbsample (withInputs { Inputs.quiet with btnN := false }))).deb
      = ⟨.block, 4, true, false⟩ := by decide

/-- B2, edges 13 and 14. -/
theorem test_dbwait :
    (after (exec .dbwait (blocking 2))).deb = ⟨.block, 1, false, false⟩ ∧
    (after (exec .dbwait (blocking 1))).deb = ⟨.ready, 1, false, true⟩ := by decide

/-- P4, edges 0 and 1: a pressed sample, and the first DBWAIT zeroes the clock. -/
theorem test_dbwait_resets_clock :
    (after (exec .dbwait (after (exec .dbsample
      { withInputs { Inputs.quiet with btnN := false } with clock := ⟨34, 12⟩ })))).clock = ⟨0, 0⟩ := by
  decide

/-- K1. -/
theorem test_tick :
    (after (exec .tick { small with clock := ⟨59, 3⟩ })).clock = ⟨0, 4⟩ ∧
    (after (exec .tick { small with clock := ⟨59, 99⟩ })).clock = ⟨0, 0⟩ := by decide

/-- K2, K3: the outcomes from (59, 12). -/
theorem test_clkreset :
    (after (exec .clkreset { small with clock := ⟨34, 12⟩ })).clock = ⟨0, 0⟩ ∧
    ((⟨59, 12⟩ : Clock).clear defaultParams .before, (⟨59, 12⟩ : Clock).clear defaultParams .after,
      (⟨59, 12⟩ : Clock).clear { defaultParams with resetAtomic := false } .between) =
      (⟨0, 0⟩, ⟨1, 0⟩, ⟨0, 1⟩) := by decide

/-- R14: `done` is 0 after every other edge, so also after the edges of a DWELL, of a WRITEFRAME and of
a DBWAIT. -/
theorem test_done_falls :
    (after (exec .dwell pulsing)).disp.done = false ∧
    (after (exec (.writeframe 0xF9 0x01) pulsing)).disp.done = false ∧
    (after (exec .dbwait pulsing)).disp.done = false := by decide

/-- P4, edge 1, in the edges of another unit's operation: `clk_reset` falls, CLKRESET has fired, and the
block has counted three edges down (R92, R156). -/
theorem test_pulse_answered :
    (after (exec (.shiftbit true) pulsing)).deb = ⟨.block, 1, false, false⟩ ∧
    (after (exec (.shiftbit true) pulsing)).tickIn = 97 ∧
    (after (exec (.shiftbit true) pulsing)).clock = ⟨0, 0⟩ ∧
    (after (exec .digit pulsing)).disp.done = true := by decide

/-- R92, R123.4: a block of 300 edges counts down in the 213 edges of a RENDER of M4. -/
theorem test_render_in_block :
    (after (exec (.render false 0 1234) { blocking 300 with tickIn := 300 })).deb =
      ⟨.block, 87, false, false⟩ ∧
    (after (exec (.render false 0 1234) { blocking 300 with tickIn := 300 })).tickIn = 87 := by
  decide +kernel

/-- R123.2: at the edge of a DBSAMPLE a presented command is accepted, and a busy display fires its arm. -/
theorem test_dbsample_edge :
    (after (exec .dbsample presenting)).disp.frame = 0xF901 ∧
    (after (exec .dbsample presenting)).deb.dbPass = true ∧
    (after (exec .dbsample (inPhase .dwell 0 3))).disp.dwellCnt = 2 := by decide

/-- V1, the first two samples. -/
theorem test_vupdate :
    (after (exec .vupdate (withInputs { Inputs.quiet with sample := 1 / 2 }))).volt
      = ⟨165 / 100, 165 / 100, 165 / 100⟩ ∧
    (⟨165 / 100, 165 / 100, 165 / 100⟩ : Tracker).update defaultParams (1 / 4)
      = ⟨825 / 1000, 165 / 100, 825 / 1000⟩ := by decide +kernel

/-- X1: 1.654 V gives 165 and 3.3 V gives 330. -/
theorem test_volts_value :
    voltsCmd 16 (1654 / 1000) = ⟨true, 1, 165⟩ ∧ voltsCmd 16 (33 / 10) = ⟨true, 1, 330⟩ := by
  decide +kernel

/-- X1: MODESEL with the mode button idle. -/
theorem test_modesel_clock :
    ({ small with clock := ⟨34, 12⟩ } : State).modeCmdNow = ⟨false, 0, 1234⟩ := by decide +kernel

/-- P5: a TICK between the two reads, minutes first. -/
theorem test_modesel_torn :
    ({ withInputs { Inputs.quiet with tickRead := .between } with
        clock := ⟨59, 12⟩, tickIn := 1 } : State).modeCmdNow.value
      = 1200 := by decide +kernel

/-- P4, edges 0 to 5: a pressed button resets the clock, and the block passes. -/
theorem test_loop_pressed :
    (programP4.loopStep1.clock, programP4.loopStep1.deb, programP4.loopStep1.host) =
      (⟨0, 0⟩, ⟨.ready, 1, false, true⟩, .waitPass) := by decide

/-- P4, edges 0 to 214: one iteration shows 0000, and the TICK of edge 100 runs on beside it. -/
theorem test_loop_iteration :
    (after (exec .loop programP4)).recv.out = 0xC008 ∧
    (after (exec .loop programP4)).disp.done = true ∧
    (after (exec .loop programP4)).clock = ⟨1, 0⟩ := by decide +kernel

/-- R106: after an iteration LOOP is requested again. -/
theorem test_loop_forever :
    (after (exec .loop small)).pending = [encode 16 .loop] := by decide +kernel

/-! ### Witnesses: states and operands that meet the hypotheses of each statement -/

/-- `small` with requests pending. -/
def requested (ws : List OpWord) : State := { small with pending := ws }

theorem small_noReset : small.NoReset := ⟨rfl, by simp [small, State.reset]⟩
theorem presenting_noReset : presenting.NoReset :=
  ⟨rfl, by simp [presenting, withInputs, small, State.reset]⟩
theorem small_pinsAtRest : small.PinsAtRest := ⟨rfl, rfl⟩

/-- Both clauses: a word that decodes, and one that does not. -/
theorem witness_StepRunsDecodedOperation :
    ((requested [⟨.cmd, 0x5014A⟩, ⟨.bit, 1⟩]).pending = [⟨.cmd, 0x5014A⟩, ⟨.bit, 1⟩] ∧
      decode 16 ⟨.cmd, 0x5014A⟩ = .ok (.render true 1 330)) ∧
    ((requested [⟨.cmd, 0x80000⟩]).pending = [⟨.cmd, 0x80000⟩] ∧
      decode 16 ⟨.cmd, 0x80000⟩ = .error (.reservedBits .cmd)) := by decide

theorem witness_StepWithoutRequestIsClockEdge : small.pending = [] := rfl

/-- The largest value that fits. -/
theorem witness_DecodeInvertsEncode :
    (Instr.render true 3 65535).wellFormed 16 = true ∧ (Instr.showclock 3 16383).wellFormed 14 = true ∧
    Instr.loop.wellFormed 16 = true := by decide

theorem witness_EncodeInvertsDecode :
    decode 16 ⟨.frame, 0xF901⟩ = .ok (.writeframe 0xF9 0x01) := by decide

/-- The bit positions at the ends of the byte. -/
theorem witness_EncodeReturnsSegmentByte : (0 : Nat) < 8 ∧ (7 : Nat) < 8 ∧
small.params.dpBit.val = 7 := by
  decide

theorem witness_DefaultEncodeReturnsItsOwnByte :
    State.reset.params = defaultParams ∧ (OpWord.mk .segb 0x30).fmt = .segb ∧
    decode 16 ⟨.segb, 0x30⟩ = .ok (.encode3 false) := ⟨rfl, rfl, by decide⟩

theorem witness_SegmentBytesPairwiseDistinct :
    smallParams.wellFormed = true ∧ ((0 : Digit), true) ≠ ((0 : Digit), false) ∧
    ((0 : Digit), true) ≠ ((9 : Digit), true) := by decide

theorem witness_DigitsRecomposeModulo10000 : (9999 : Nat) ≤ 9999 := by decide

theorem witness_FrameAssembly :
    smallParams.wellFormed = true ∧ (⟨false, 3, 1234⟩ : Cmd).dpEn = false := by decide

theorem witness_ShiftbitCompletes :
    small.disp.phase = .idle ∧ small.NoReset ∧ small.disp.sclk = false := ⟨rfl, small_noReset, rfl⟩

theorem witness_ShiftbyteCompletes :
    small.disp.phase = .idle ∧ small.NoReset ∧ small.disp.sclk = false := ⟨rfl, small_noReset, rfl⟩

theorem witness_WriteframeCompletes :
    small.disp.phase = .idle ∧ small.NoReset ∧ small.PinsAtRest := ⟨rfl, small_noReset, rfl, rfl⟩

/-- A busy display, a reset edge, a busy display outside its dwell; a blocking debouncer, a ready one, and
each of them at a reset edge. -/
theorem witness_BusyUnitsTurnRequestsAway :
    ((inPhase .dwell 0 3).disp.phase ≠ .idle ∧ (withInputs resetInputs).inp.rst = true ∧
      (inPhase .latchLo 0 0).disp.phase ≠ .idle ∧ (inPhase .latchLo 0 0).disp.phase ≠ .dwell) ∧
    ((blocking 2).deb.phase = .block ∧ (withInputs resetInputs).deb.phase = .ready) ∧
    (small.deb.phase = .ready ∧ ({ blocking 2 with inp := resetInputs } : State).inp.rst = true) := by
  decide

theorem witness_EncodeLightsStandardShape : smallParams.wellFormed = true := by decide

theorem witness_RenderEventCounts :
    small.disp.phase = .idle ∧ small.NoReset ∧ small.PinsAtRest ∧
    1 ≤ small.params.dwellCycles := ⟨rfl, small_noReset, ⟨rfl, rfl⟩, by decide⟩

theorem witness_RenderCompletes :
    small.disp.phase = .idle ∧ small.NoReset ∧ small.PinsAtRest ∧
    1 ≤ small.params.dwellCycles := ⟨rfl, small_noReset, ⟨rfl, rfl⟩, by decide⟩

/-- Both runs answer a next state, for a value above 9999. -/
theorem witness_RenderAliasesModulo10000 :
    exec (.render false 0 12345) small = .next (small.runRender ⟨false, 0, 12345⟩) ∧
    exec (.render false 0 (12345 % 10000)) small
      = .next (small.runRender ⟨false, 0, 12345 % 10000⟩) ∧
    small.disp.phase = .idle ∧ small.inp.rst = false := ⟨rfl, rfl, rfl, rfl⟩

/-- The last position and an earlier one, at the lowest count, and an idle display to which a command is presented. -/
theorem witness_DwellCompletes :
    ((inPhase .dwell 3 1).NoReset ∧ (inPhase .dwell 3 1).disp.phase = .dwell ∧
      1 ≤ (inPhase .dwell 3 1).disp.dwellCnt ∧ (inPhase .dwell 3 1).disp.pos = 3) ∧
    ((inPhase .dwell 2 1).NoReset ∧ (inPhase .dwell 2 1).disp.phase = .dwell ∧
      1 ≤ (inPhase .dwell 2 1).disp.dwellCnt ∧ (inPhase .dwell 2 1).disp.pos ≠ 3) ∧
    (presenting.NoReset ∧ presenting.disp.phase = .idle ∧ 1 ≤ presenting.params.dwellCycles) :=
  ⟨⟨⟨rfl, by simp [inPhase, small, State.reset]⟩, rfl, by decide, rfl⟩,
    ⟨⟨rfl, by simp [inPhase, small, State.reset]⟩, rfl, by decide, by decide⟩,
    presenting_noReset, rfl, by decide⟩

theorem witness_DwellLastsItsCount :
    (inPhase .dwell 0 3).NoReset ∧ (inPhase .dwell 0 3).disp.phase = .dwell ∧
    1 ≤ (inPhase .dwell 0 3).disp.dwellCnt ∧
    exec .dwell (inPhase .dwell 0 3) = .next ((inPhase .dwell 0 3).run 3) ∧
    0 < (inPhase .dwell 0 3).disp.dwellCnt ∧ 2 < (inPhase .dwell 0 3).disp.dwellCnt :=
  ⟨⟨rfl, by simp [inPhase, small, State.reset]⟩, rfl, by decide, rfl, by decide, by decide⟩

/-- A command presented, none presented, a busy display, and the port of another host both ways. -/
theorem witness_CommandAcceptance :
    (presenting.inp.rst = false ∧ presenting.disp.phase = .idle ∧
      presenting.drive.cmd = some ⟨false, 0, 1234⟩) ∧
    (small.inp.rst = false ∧ small.disp.phase = .idle ∧ small.drive.cmd = none) ∧
    ((inPhase .dwell 0 1).inp.rst = false ∧ (inPhase .dwell 0 1).disp.phase ≠ .idle) ∧
    (presenting.host = .off ∧ presenting.inp.cmdValid = true) ∧
    small.host = .off ∧ small.inp.cmdValid = false := by decide

/-- Also at the boundary `n = 0`, with `done` still up. -/
theorem witness_IdleDisplayStaysStill :
    small.NoReset ∧ small.host = .off ∧ small.disp.phase = .idle ∧ small.inp.cmdValid = false ∧
    (∀ i ∈ small.script, i.cmdValid = false) ∧ (small.edges 0).disp = small.disp :=
  ⟨small_noReset, rfl, rfl, rfl, by simp [small, State.reset], rfl⟩

theorem witness_SequencerArms_dwell :
    (inPhase .dwell 3 1).NoReset ∧ (inPhase .dwell 3 1).disp.phase = .dwell ∧
    1 ≤ (inPhase .dwell 3 1).disp.dwellCnt ∧ 0 < (inPhase .dwell 3 1).disp.dwellCnt :=
  ⟨⟨rfl, by simp [inPhase, small, State.reset]⟩, rfl, by decide, by decide⟩

/-- One state for each arm, at the ends of the ranges that tell the arms apart. -/
theorem witness_SequencerArms :
    (small.disp.phase = .idle ∧ small.drive.cmd = none) ∧
    (presenting.disp.phase = .idle ∧ presenting.drive.cmd = some ⟨false, 0, 1234⟩) ∧
    (inPhase .latchLo 0 0).inp.rst = false ∧
    (inPhase .latchLo 0 0).disp.phase = .latchLo ∧ (inPhase .bitData 0 0).disp.phase = .bitData ∧
    (inPhase .bitClkHi 0 0).disp.phase = .bitClkHi ∧
    (let s := inPhase .bitClkLo 0 0
     ({ s with disp := { s.disp with bitcnt := 15 } } : State).disp.bitcnt = 15 ∧ s.disp.bitcnt ≠ 15 ∧
     ({ s with disp := { s.disp with bitcnt := 14 } } : State).disp.bitcnt ≠ 15 ∧
       s.disp.phase = .bitClkLo) ∧
    (inPhase .latchHi 0 0).disp.phase = .latchHi ∧
    (1 < (inPhase .dwell 0 2).disp.dwellCnt ∧ (inPhase .dwell 0 2).disp.phase = .dwell) ∧
    ((inPhase .dwell 3 1).disp.dwellCnt ≤ 1 ∧ (inPhase .dwell 3 1).disp.pos = 3) ∧
    ((inPhase .dwell 2 1).disp.dwellCnt ≤ 1 ∧ (inPhase .dwell 2 1).disp.pos ≠ 3) := by decide

/-- Each side of `done`'s rule at a boundary of the count. -/
theorem witness_StatusOutputs :
    (inPhase .dwell 3 1).clockEdge.disp.done = true ∧ (inPhase .dwell 3 2).clockEdge.disp.done = false ∧
    (inPhase .dwell 2 1).clockEdge.disp.done = false ∧ small.host = .off := by decide

/-- A render that ends, a sample each way by a request and by the host, a block that ends, and a DIGIT
that takes no edge. -/
theorem witness_PulsesLastOneCycle :
    (takesEdges .dwell = true ∧ exec .dwell (inPhase .dwell 3 1)
      = .next ((inPhase .dwell 3 1).run 1) ∧ 1 ≤ (inPhase .dwell 3 1).params.dwellCycles ∧
      (after (exec .dwell (inPhase .dwell 3 1))).disp.done = true) ∧
    ((small.clockEdgeWith ⟨true, none⟩).deb.dbPass = true ∧
      ((withInputs { Inputs.quiet with btnN := false }).clockEdgeWith ⟨true, none⟩).deb.clkReset = true ∧
      ((withInputs { Inputs.quiet with sampleEn := true }).clockEdgeWith
        ⟨false, some ⟨false, 0, 7⟩⟩).deb.dbPass = true) ∧
    (takesEdges .dbwait = true ∧ (after (exec .dbwait (blocking 1))).deb.dbPass = true) ∧
    (takesEdges .digit = false ∧ goesOn (exec .digit pulsing) = true ∧ pulsing.disp.done = true) :=
  ⟨⟨rfl, rfl, by decide⟩, by decide, by decide, by decide⟩

/-- A block longer than the three edges of a SHIFTBIT, and one just as long; a pressed LOOP, of which the
block takes part; and the lowest count of a DWELL. -/
theorem witness_RequestsTakeTheirEdges :
    (takesEdges (.shiftbit true) = true ∧ (blocking 4).params.wellFormed = true ∧
      (blocking 4).disp.phase ≠ .dwell ∧ edgesTaken (.shiftbit true) (blocking 4) = 3 ∧
      (∀ j, j < 3 → ((blocking 4).edges j).inp.rst = false) ∧ (blocking 4).deb.phase = .block ∧
      3 < (blocking 4).deb.cnt ∧ (blocking 4).host = .off) ∧
    (edgesTaken (.shiftbit true) (blocking 3) = (blocking 3).deb.cnt ∧
      (∀ j, j < 3 → ((blocking 3).edges j).inp.rst = false)) ∧
    ((inPhase .dwell 0 1).disp.phase = .dwell ∧ 1 ≤ (inPhase .dwell 0 1).disp.dwellCnt ∧
      edgesTaken .dwell (inPhase .dwell 0 1) = 1) ∧
    edgesTaken .loop (withInputs { Inputs.quiet with btnN := false }) = 5 + 213 := by decide

/-- A reset edge at the first edge, and at the last, of the three. -/
theorem witness_RequestsTakeTheirEdges_reset :
    (takesEdges (.shiftbit true) = true ∧ (withInputs resetInputs).params.wellFormed = true ∧
      0 < edgesTaken (.shiftbit true) (withInputs resetInputs) ∧
      ((withInputs resetInputs).edges 0).inp.rst = true) ∧
    (let s : State := { small with script := [Inputs.quiet, resetInputs] }
     2 < edgesTaken (.shiftbit true) s ∧ (∀ j, j < 2 → (s.edges j).inp.rst = false) ∧
     (s.edges 2).inp.rst = true) := by decide

theorem witness_OnePinChangesPerEdge :
    (inPhase .bitClkLo 0 0).inp.rst = false ∧ (inPhase .bitClkLo 0 0).SclkLevel ∧
    (inPhase .bitClkLo 0 0).disp.sclk = true := ⟨rfl, rfl, rfl⟩

/-- A shifting edge and a committing edge. -/
theorem witness_ReceiverFollowsPins :
    (inPhase .bitClkHi 0 0).inp.rst = false ∧ (inPhase .bitClkHi 0 0).disp.sclk = false ∧
    (inPhase .bitClkHi 0 0).clockEdge.disp.sclk = true ∧ (inPhase .latchHi 0 0).inp.rst = false ∧
    (inPhase .latchHi 0 0).disp.latch = false ∧ (inPhase .latchHi 0 0).clockEdge.disp.latch = true := by
  decide

/-- Two states that differ in everything the display must not look at. -/
theorem witness_BusyDisplaySeesOnlyItself :
    let s := inPhase .bitData 1 0
    let u : State := { s with inp := presenting.inp, clock := ⟨59, 99⟩, deb := ⟨.block, 2, true, false⟩ }
    s.disp.phase ≠ .idle ∧ s.inp.rst = false ∧ u.inp.rst = false ∧ s.params = u.params ∧
    s.disp = u.disp ∧ s.recv = u.recv ∧ s.wire = u.wire ∧ s ≠ u := by
  refine ⟨by decide, rfl, rfl, rfl, rfl, rfl, rfl, fun h => ?_⟩
  have := congrArg State.clock h
  revert this
  decide

theorem witness_RenderCycleTimes :
    presenting.NoReset ∧ presenting.disp.phase = .idle ∧ presenting.PinsAtRest ∧
    1 ≤ presenting.params.dwellCycles ∧ presenting.drive.cmd = some ⟨false, 0, 1234⟩ :=
  ⟨presenting_noReset, rfl, ⟨rfl, rfl⟩, by decide, rfl⟩

/-- M4 and M6 at the ends of the ranges: the first and last bit of the first frame. -/
theorem witness_RenderCycleTimes_bits :
    ((presenting.edges 3).disp.sdata, (presenting.edges 48).disp.sdata) =
      ((frameWord smallParams ⟨false, 0, 1234⟩ 0).getLsbD 15,
        (frameWord smallParams ⟨false, 0, 1234⟩ 0).getLsbD 0) ∧
    (presenting.edges 50).disp.latch = false ∧ (presenting.edges 51).disp.latch = true := by
  decide +kernel

theorem witness_SequencerImplementsRender :
    presenting.NoReset ∧ presenting.disp.phase = .idle ∧ presenting.PinsAtRest ∧
    1 ≤ presenting.params.dwellCycles ∧ presenting.drive.cmd = some ⟨false, 0, 1234⟩ ∧ presenting.host = .off ∧
    exec (.render false 0 1234) presenting = .next (presenting.runRender ⟨false, 0, 1234⟩) :=
  ⟨presenting_noReset, rfl, ⟨rfl, rfl⟩, by decide, rfl, rfl, rfl⟩

theorem witness_ResetEdgeLoadsResetValues : (withInputs resetInputs).inp.rst = true := rfl

/-- Both levels of `latch`. -/
theorem witness_ResetMidFrameCommitsShiftChain :
    ({ inPhase .bitData 0 0 with inp := resetInputs } : State).inp.rst = true ∧
    ({ inPhase .bitData 0 0 with inp := resetInputs } : State).disp.latch = false ∧
    (withInputs resetInputs).inp.rst = true ∧ (withInputs resetInputs).disp.latch = true := by decide

/-- Both levels of the button. -/
theorem witness_DbsampleCompletes :
    small.deb.phase = .ready ∧ small.inp.rst = false ∧ small.inp.btnN = true ∧
    (let s := withInputs { Inputs.quiet with btnN := false }
     s.deb.phase = .ready ∧ s.inp.rst = false ∧ s.inp.btnN = false) := by decide

/-- Both sides of the last count. -/
theorem witness_DbwaitCompletes :
    (blocking 1).deb.phase = .block ∧ (blocking 1).inp.rst = false ∧ ¬ 1 < (blocking 1).deb.cnt ∧
    (blocking 2).deb.phase = .block ∧ (blocking 2).inp.rst = false ∧ 1 < (blocking 2).deb.cnt ∧
    (blocking 2).deb.clkReset = false ∧
    (let s : State := { small with deb := ⟨.block, 4, true, false⟩ }
     s.deb.phase = .block ∧ s.inp.rst = false ∧ s.deb.clkReset = true ∧ 1 < s.tickIn) := by decide

/-- The pressed sample of B2, and both ends of the range of `j`. -/
theorem witness_BlockLastsDebounceCycles :
    let s := withInputs { Inputs.quiet with btnN := false, sampleEn := true }
    s.NoReset ∧ 1 ≤ s.params.debounceCycles ∧ s.deb.phase = .ready ∧ s.drive.sampleEn = true ∧
    s.inp.btnN = false ∧ (1 ≤ 1 ∧ 1 < s.params.debounceCycles) ∧ (1 ≤ 3 ∧
    3 < s.params.debounceCycles) :=
  ⟨⟨rfl, by simp [withInputs, small, State.reset]⟩, by decide, rfl, rfl, rfl, by decide, by decide⟩

/-- One state for each arm, both sides of the last count; in all of them the ports are another host's. -/
theorem witness_DebouncerArms :
    (small.host = .off ∧ small.inp.sampleEn = false ∧
      (withInputs { Inputs.quiet with sampleEn := true }).inp.sampleEn = true) ∧
    (small.inp.rst = false ∧ small.deb.phase = .ready ∧ small.drive.sampleEn = false) ∧
    (let s := withInputs { Inputs.quiet with sampleEn := true }
     s.inp.rst = false ∧ s.deb.phase = .ready ∧ s.drive.sampleEn = true ∧ s.inp.btnN = true) ∧
    (let s := withInputs { Inputs.quiet with sampleEn := true, btnN := false }
     s.inp.rst = false ∧ s.deb.phase = .ready ∧ s.drive.sampleEn = true ∧ s.inp.btnN = false) ∧
    ((blocking 2).inp.rst = false ∧ (blocking 2).deb.phase = .block ∧ 1 < (blocking 2).deb.cnt) ∧
    (blocking 1).inp.rst = false ∧ (blocking 1).deb.phase = .block ∧
      (blocking 1).deb.cnt ≤ 1 := by decide

theorem witness_WaitOutIsEveryDbwait :
    (⟨.block, 4, true, false⟩ : Debouncer).phase = .block ∧
      1 ≤ (⟨.block, 4, true, false⟩ : Debouncer).cnt ∧
    0 < (⟨.block, 4, true, false⟩ : Debouncer).cnt ∧
    3 < (⟨.block, 4, true, false⟩ : Debouncer).cnt := by
  decide

/-- Both sides of the wrap. -/
theorem witness_TickAdvancesClock :
    ({ small with clock := ⟨58, 3⟩ } : State).clock.seconds.val + 1 < 60 ∧
    ({ small with clock := ⟨59, 99⟩ } : State).clock.seconds.val + 1 = 60 := by decide

/-- Every place of the TICK, and the three readings of `between`. -/
theorem witness_ClkresetZeroesClock :
    small.inp.tickReset = .never ∧
    (withInputs { Inputs.quiet with tickReset := .before }).inp.tickReset = .before ∧
    (withInputs { Inputs.quiet with tickReset := .after }).inp.tickReset = .after ∧
    (let s := withInputs { Inputs.quiet with tickReset := .between }
     s.inp.tickReset = .between ∧ s.params.resetAtomic = true ∧
     ({ s.params with resetAtomic := false } : Params).resetAtomic = false ∧
       s.params.resetMinutesFirst = true ∧
     ({ s.params with resetAtomic := false, resetMinutesFirst := false } : Params).resetMinutesFirst = false) := by
  decide

/-- Both ends of the range of the voltage. -/
theorem witness_VoltsValueIsNearestInteger :
    10000 < 2 ^ 14 ∧ (0 : Rat) ≤ 0 ∧ (0 : Rat) ≤ 33 / 10 ∧ (33 / 10 : Rat) ≤ 33 / 10 := by decide +kernel

/-- Both levels of the mode button, `tickIn` at the boundary, every place of the TICK, both orders of the
reads, and `clk_reset` not yet answered. -/
theorem witness_ModeselCompletes :
    (small.disp.phase = .idle ∧ small.deb.phase = .ready ∧ small.NoReset ∧ small.PinsAtRest ∧
      1 ≤ small.params.dwellCycles ∧ small.inp.modeN = true ∧ small.deb.clkReset = false ∧
      1 < small.tickIn ∧ small.inp.tickRead = .never ∧ ({ small with tickIn := 1 } : State).tickIn ≤ 1) ∧
    (withInputs { Inputs.quiet with modeN := false }).inp.modeN = false ∧
    ({ small with deb := ⟨.ready, 0, true, false⟩ } : State).deb.clkReset = true ∧
    (withInputs { Inputs.quiet with tickRead := .after }).inp.tickRead = .after ∧
    (withInputs { Inputs.quiet with tickRead := .before }).inp.tickRead = .before ∧
    (withInputs { Inputs.quiet with tickRead := .between }).inp.tickRead = .between ∧
    smallParams.readMinutesFirst = true ∧
    ({ smallParams with readMinutesFirst := false } : Params).readMinutesFirst = false :=
  ⟨⟨rfl, rfl, small_noReset, ⟨rfl, rfl⟩, by decide, rfl, rfl, by decide, rfl, by decide⟩, rfl, rfl, rfl,
    rfl, rfl, rfl, rfl⟩

/-- Both levels of the reset button. -/
theorem witness_LoopCompletesOneIteration :
    (small.disp.phase = .idle ∧ small.deb.phase = .ready ∧ small.NoReset ∧ small.PinsAtRest ∧
      small.params.wellFormed = true ∧ small.inp.btnN = true) ∧
    (let s := withInputs { Inputs.quiet with btnN := false }
     s.disp.phase = .idle ∧ s.deb.phase = .ready ∧ s.NoReset ∧ s.PinsAtRest ∧
     s.params.wellFormed = true ∧ s.inp.btnN = false) :=
  ⟨⟨rfl, rfl, small_noReset, ⟨rfl, rfl⟩, by decide, rfl⟩, rfl, rfl,
    ⟨rfl, by simp [withInputs, small, State.reset]⟩, ⟨rfl, rfl⟩, by decide, rfl⟩

/-- Each reason to wait. -/
theorem witness_LoopOperationsWaitForBlocks :
    (inPhase .dwell 0 3).disp.phase ≠ .idle ∧ (blocking 2).deb.phase = .block ∧
    (withInputs resetInputs).inp.rst = true := by decide

/-- Each clause, `tickIn` at the boundary, every place of the TICK, and the three readings of `between`. -/
theorem witness_ClockMovesOnlyByTickOrReset :
    (small.deb.clkReset = false ∧ 1 < small.tickIn) ∧
    (({ small with tickIn := 1 } : State).deb.clkReset = false ∧
      ({ small with tickIn := 1 } : State).tickIn ≤ 1) ∧
    (let s : State := { small with deb := ⟨.block, 4, true, false⟩ }
     s.deb.clkReset = true ∧ 1 < s.tickIn ∧ ({ s with tickIn := 1 } : State).deb.clkReset = true ∧
     ({ s with tickIn := 1 } : State).tickIn ≤ 1 ∧ s.inp.tickReset = .never) ∧
    (withInputs { Inputs.quiet with tickReset := .before }).inp.tickReset = .before ∧
    (withInputs { Inputs.quiet with tickReset := .after }).inp.tickReset = .after ∧
    (let s := withInputs { Inputs.quiet with tickReset := .between }
     s.inp.tickReset = .between ∧ s.params.resetAtomic = true ∧
     ({ s.params with resetAtomic := false } : Params).resetAtomic = false ∧
     s.params.resetMinutesFirst = true ∧
     ({ s.params with resetAtomic := false, resetMinutesFirst := false } : Params).resetMinutesFirst
       = false) := by decide

/-- Both clauses at both ends of `k`. -/
theorem witness_TickEveryClockRate :
    1 ≤ small.params.fClkHz ∧ 1 ≤ small.tickIn ∧ 0 < small.tickIn ∧ 1 < small.tickIn ∧
    0 < small.params.fClkHz ∧ 1 < small.params.fClkHz := by decide

/-- The main loop waiting for `done` as `done` comes, and presenting a command. -/
theorem witness_HostKeepsHandshake :
    (let s : State := { small with host := .waitDone, disp := { small.disp with done := true } }
     s.HostInStep ∧ s.PulsesApart ∧ s.inp.rst = false ∧ s.host ≠ .off ∧ s.drive.sampleEn = true) ∧
    (let s : State := { small with host := .present ⟨false, 0, 1234⟩ }
     s.HostInStep ∧ s.PulsesApart ∧ s.inp.rst = false ∧ s.host ≠ .off ∧ s.drive.cmd ≠ none) :=
  ⟨⟨⟨rfl, .inr rfl⟩, ⟨fun _ => rfl, by decide, by decide⟩, rfl, by decide, rfl⟩,
    rfl, ⟨by decide, by decide, by decide⟩, rfl, by decide, by decide⟩

/-- Steps 2 and 3 come at both edges that can bring them: at the edge of `db_pass`, and with the overhead
spent; the mode button both ways, the TICK at every place, with and without `clk_reset`. -/
theorem witness_MainLoopUpdatesAndPresents_forms :
    (let s : State := { small with host := .waitPass, deb := ⟨.ready, 1, false, true⟩ }
     s.host = .waitPass ∧ s.deb.dbPass = true ∧ s.inp.overhead = 0 ∧ s.inp.modeN = true ∧
     s.deb.clkReset = false ∧ 1 < s.tickIn ∧ ({ s with tickIn := 1 } : State).tickIn ≤ 1 ∧
     s.inp.tickRead = .never) ∧
    (let s : State := { withInputs { Inputs.quiet with modeN := false } with host := .work 1 }
     (∃ k, s.host = .work k ∧ k ≤ 1) ∧ s.inp.modeN = false) ∧
    (let s : State := { small with host := .work 1, deb := ⟨.block, 4, true, false⟩ }
     (∃ k, s.host = .work k ∧ k ≤ 1) ∧ s.deb.clkReset = true ∧ 1 < s.tickIn) ∧
    (withInputs { Inputs.quiet with tickRead := .before }).inp.tickRead = .before ∧
    (withInputs { Inputs.quiet with tickRead := .between }).inp.tickRead = .between ∧
    (withInputs { Inputs.quiet with tickRead := .after }).inp.tickRead = .after ∧
    smallParams.readMinutesFirst = true ∧
    ({ smallParams with readMinutesFirst := false } : Params).readMinutesFirst = false :=
  ⟨⟨rfl, rfl, rfl, rfl, rfl, by decide, by decide, rfl⟩, ⟨⟨1, rfl, by decide⟩, rfl⟩,
    ⟨⟨1, rfl, by decide⟩, rfl, by decide⟩, rfl, rfl, rfl, rfl, rfl⟩

/-- One state for each other place of the main loop, at the boundaries of the overhead. -/
theorem witness_MainLoopUpdatesAndPresents_waits :
    State.reset.host = .step1 ∧
    (let s : State := { small with host := .waitPass }
     s.host = .waitPass ∧ s.deb.dbPass = false) ∧
    (let s : State := { withInputs { Inputs.quiet with overhead := 1 } with
        host := .waitPass, deb := ⟨.ready, 1, false, true⟩ }
     s.host = .waitPass ∧ s.deb.dbPass = true ∧ s.inp.overhead ≠ 0) ∧
    ({ small with host := .work 2 } : State).host = .work 2 ∧ 1 < 2 ∧
    ({ small with host := .present ⟨false, 0, 7⟩ } : State).host = .present ⟨false, 0, 7⟩ ∧
    (let s : State := { small with host := .waitDone }
     s.host = .waitDone ∧ s.disp.done = false) ∧
    (let s : State := { small with host := .waitDone, disp := { small.disp with done := true } }
     s.host = .waitDone ∧ s.disp.done = true) ∧
    (small.host = .off ∧ small.inp.cmdValid = false) ∧
    presenting.host = .off ∧ presenting.inp.cmdValid = true := by decide

/-- A well-formed request, and no request. -/
theorem witness_NothingFaults :
    (∀ w, (requested [⟨.bit, 1⟩]).pending.head? = some w → w.wellFormed 16 = true) ∧
    (∀ w, small.pending.head? = some w → w.wellFormed 16 = true) := by
  constructor
  · intro w h
    cases h
    decide
  · intro w h
    cases h

theorem witness_ParametersNeverChange : step small = .next small.clockEdge.advanceInputs := rfl

/-- A state in the middle of a frame, with both invariants. -/
theorem witness_invariants : (inPhase .latchLo 0 0).Inv ∧ (inPhase .latchLo 0 0).InFlight :=
  ⟨⟨by decide, rfl, rfl, ⟨by decide, by decide⟩, ⟨by decide, by decide⟩,
    ⟨by decide, trivial⟩, ⟨by decide, by decide, by decide⟩⟩, by
      show (inPhase .latchLo 0 0).disp.frame = (inPhase .latchLo 0 0).currentFrame
      decide⟩

theorem witness_StepKeepsInvariant :
    (inPhase .latchLo 0 0).Inv ∧
    step (inPhase .latchLo 0 0) = .next (inPhase .latchLo 0 0).clockEdge.advanceInputs :=
  ⟨witness_invariants.1, rfl⟩

theorem witness_StepKeepsFrameInFlight :
    (inPhase .latchLo 0 0).Inv ∧ (inPhase .latchLo 0 0).InFlight ∧
    step (inPhase .latchLo 0 0) = .next (inPhase .latchLo 0 0).clockEdge.advanceInputs :=
  ⟨witness_invariants.1, witness_invariants.2, rfl⟩

end Sys2Proof.Tests
end

section
/-! The build-time parameters (R5, R16, R27, R30) through edges, runs, requests and steps. -/

namespace Sys2Proof.Machine

/-! ### Edges and runs keep the parameters -/

@[simp] theorem clockEdgeWith_params (s : State) (r : Drive) :
    (s.clockEdgeWith r).params = s.params := (clockEdgeWith_frame s r).1

@[simp] theorem nextEdge_params (s : State) : s.nextEdge.params = s.params := edges_params s 1

@[simp] theorem run_params (s : State) (n : Nat) : (s.run n).params = s.params :=
  run_keeps (P := fun u => u.params = s.params) (fun u hu => (nextEdge_params u).trans hu) n rfl

@[simp] theorem runRender_params (s : State) (c : Cmd) : (s.runRender c).params = s.params := by
  simp [State.runRender]

@[simp] theorem runDisplay_params (s : State) (d : Display) (n : Nat) :
    (s.runDisplay d n).params = s.params := by
  simp [State.runDisplay]

@[simp] theorem drivePins_params (s : State) (ph : Phase) (bits : Word) (n : Nat) :
    (s.drivePins ph bits n).params = s.params := runDisplay_params s _ n

@[simp] theorem dwellAlone_params (s : State) : s.dwellAlone.params = s.params :=
  runDisplay_params s _ _

@[simp] theorem loopStep1_params (s : State) : s.loopStep1.params = s.params := by
  simp [State.loopStep1]

@[simp] theorem loopSteps23_params (s : State) : s.loopSteps23.params = s.params :=
  run_params s _

@[simp] theorem loopIteration_params (s : State) : s.loopIteration.params = s.params := by
  cases hp : s.loopStep1.deb.dbPass <;> simp [State.loopIteration, hp]

/-! ### Operations keep the parameters -/

/-- A request of the display unit keeps the parameters, taken (if `f` does) or turned away. -/
theorem ifDisplayFree_params {s t : State} {f : State → State} (hf : (f s).params = s.params)
    (h : ifDisplayFree s f = .next t) : t.params = s.params := by
  rcases ifDisplayFree_next h with ⟨-, rfl⟩ | ⟨-, rfl⟩
  · exact hf
  · exact nextEdge_params s

theorem stalled_params {i : Instr} {s t : State} (h : stalled i s = .next t) :
    t.params = s.params := by
  cases h
  exact nextEdge_params _

theorem execDwell_params {s t : State} (h : execDwell s = .next t) : t.params = s.params := by
  unfold execDwell at h
  split at h
  · cases h
    exact run_params s _
  · exact ifDisplayFree_params (dwellAlone_params s) h

theorem execModesel_params {s t : State} (h : execModesel s = .next t) : t.params = s.params := by
  unfold execModesel at h
  split at h
  · cases h
    exact runRender_params s _
  · exact stalled_params h

theorem execLoop_params {s t : State} (h : execLoop s = .next t) : t.params = s.params := by
  unfold execLoop at h
  split at h
  · cases h
    exact loopIteration_params s
  · exact stalled_params h

/-- No operation writes a parameter (R5, R27). The operations not named in the case split take no edge
and write the clock, the tracker or `result` only. -/
theorem exec_params {i : Instr} {s t : State} (h : exec i s = .next t) : t.params = s.params := by
  cases i
  case render | showclock | showvolts =>
    exact ifDisplayFree_params (f := fun u => u.runRender _) (runRender_params s _) h
  case shiftbit | shiftbyte | writeframe =>
    exact ifDisplayFree_params (f := fun u => u.drivePins _ _ _) (drivePins_params s _ _ _) h
  case dwell => exact execDwell_params h
  case dbsample =>
    cases h
    simp
  case dbwait =>
    cases h
    exact nextEdge_params s
  case modesel => exact execModesel_params h
  case loop => exact execLoop_params h
  all_goals
    cases h
    rfl

/-- Settles O57: a step is one clock edge or the meaning of the requested operation, and neither writes a
parameter. -/
theorem parametersNeverChange : Obligations.ParametersNeverChange := by
  intro s t h
  unfold step at h
  split at h
  · cases h
    exact nextEdge_params s
  · split at h
    · exact (exec_params h).trans rfl
    · cases h

end Sys2Proof.Machine
end

section
/-! The invariant of R28 in its parts: the display unit, the debouncer, and what the main loop holds. -/

namespace Sys2Proof.Machine

/-! ### The invariant in parts -/

/-- What R28 (a) to (d), R12 and R85 say of the display registers alone. -/
structure Display.Sound (ps : Params) (d : Display) : Prop where
  latch : d.latch = !d.phase.shifting
  sclk : d.sclk = decide (d.phase = .bitClkLo)
  dwellLe : d.dwellCnt ≤ ps.dwellCycles
  dwellPos : d.phase = .dwell → 1 ≤ d.dwellCnt
  value : d.valQ < 2 ^ ps.valueWidth
  done : d.done = true → d.phase = .idle

/-- What R18, R91 and R92 say of the debouncer's registers. -/
structure Debouncer.Sound (ps : Params) (d : Debouncer) : Prop where
  cntLe : d.cnt ≤ ps.debounceCycles
  cntPos : d.phase = .block → 1 ≤ d.cnt
  clkReset : d.clkReset = true → d.phase = .block
  dbPass : d.dbPass = true → d.phase = .ready

/-- The invariant without its part about the display: a clock edge keeps it whatever the display does. -/
structure State.SoundBeside (s : State) : Prop where
  params : s.params.wellFormed = true
  deb : s.deb.Sound s.params
  host : s.host.fits s.params.valueWidth

theorem inv_iff {s : State} : s.Inv ↔ s.disp.Sound s.params ∧ s.SoundBeside := by
  constructor
  · rintro ⟨hps, hl, hc, ⟨hd, hd'⟩, ⟨hb, hb'⟩, ⟨hv, hh⟩, hdn, hcr, hdp⟩
    exact ⟨⟨hl, hc, hd, hd', hv, hdn⟩, hps, ⟨hb, hb', hcr, hdp⟩, hh⟩
  · rintro ⟨⟨hl, hc, hd, hd', hv, hdn⟩, hps, ⟨hb, hb', hcr, hdp⟩, hh⟩
    exact ⟨hps, hl, hc, ⟨hd, hd'⟩, ⟨hb, hb'⟩, ⟨hv, hh⟩, hdn, hcr, hdp⟩

/-- The bounds of R5 that a legal parameter set meets. -/
theorem wellFormed_bounds {ps : Params} (h : ps.wellFormed = true) :
    1 ≤ ps.dwellCycles ∧ 1 ≤ ps.debounceCycles ∧ 10000 < 2 ^ ps.valueWidth := by
  simp only [Params.wellFormed, Params.timesPositive, Params.widthHoldsValues, Bool.and_eq_true,
    decide_eq_true_eq] at h
  obtain ⟨⟨-, ⟨hdwell, hdebounce⟩, -⟩, hwidth⟩ := h
  exact ⟨hdwell, hdebounce, hwidth⟩

/-- On an idle display the invariant says that the pins are at rest and the registers in range (R28 (a)). -/
theorem sound_of_idle {ps : Params} {d : Display} (hp : d.phase = .idle) (hl : d.latch = true)
    (hc : d.sclk = false) (hd : d.dwellCnt ≤ ps.dwellCycles) (hv : d.valQ < 2 ^ ps.valueWidth) :
    d.Sound ps :=
  ⟨by rw [hl, hp]; rfl, by rw [hc, hp]; rfl, hd, by rw [hp]; nofun, hv, fun _ => hp⟩

theorem Display.Sound.pins_of_idle {ps : Params} {d : Display} (h : d.Sound ps) (hp : d.phase = .idle) :
    d.latch = true ∧ d.sclk = false := by
  rw [h.latch, h.sclk, hp]
  exact ⟨rfl, rfl⟩

theorem sound_displayReset (ps : Params) : Display.reset.Sound ps :=
  sound_of_idle rfl rfl rfl (Nat.zero_le _) (Nat.two_pow_pos _)

theorem sound_debouncerReset (ps : Params) : Debouncer.reset.Sound ps :=
  ⟨Nat.zero_le _, nofun, nofun, nofun⟩

/-! ### One edge of each unit keeps its part -/

/-- An edge of the sequencer, arm by arm (R83): from each phase to the pin levels of the next. -/
theorem seqEdge_sound {s : State} (h : s.disp.Sound s.params) (hN : 1 ≤ s.params.dwellCycles)
    {cmd : Option Cmd} (hcmd : ∀ c, cmd = some c → c.value < 2 ^ s.params.valueWidth) :
    (s.seqEdge cmd).disp.Sound s.params := by
  obtain ⟨hl, hc, hd, hd', hv, hdn⟩ := h
  cases hp : s.disp.phase <;> rw [hp] at hl hc
  case idle =>
    cases cmd with
    | none =>
      rw [seqEdge_idle_none hp]
      exact sound_of_idle hp hl hc hd hv
    | some c =>
      rw [seqEdge_idle_some hp]
      exact ⟨hl, hc, hd, nofun, hcmd c rfl, nofun⟩
  case latchLo =>
    rw [seqEdge_latchLo hp]
    exact ⟨rfl, hc, hd, nofun, hv, nofun⟩
  case bitData =>
    rw [seqEdge_bitData hp]
    exact ⟨hl, hc, hd, nofun, hv, nofun⟩
  case bitClkHi =>
    rw [seqEdge_bitClkHi hp]
    exact ⟨hl, rfl, hd, nofun, hv, nofun⟩
  case bitClkLo =>
    by_cases hb : s.disp.bitcnt = 15
    · rw [seqEdge_bitClkLo_last hp hb]
      exact ⟨hl, rfl, hd, nofun, hv, nofun⟩
    · rw [seqEdge_bitClkLo_next hp hb]
      exact ⟨hl, rfl, hd, nofun, hv, nofun⟩
  case latchHi =>
    rw [seqEdge_latchHi hp]
    exact ⟨rfl, hc, Nat.le_refl _, fun _ => hN, hv, nofun⟩
  case dwell =>
    by_cases hcnt : 1 < s.disp.dwellCnt
    · rw [seqEdge_dwell_wait hp hcnt]
      exact ⟨by rw [hp]; exact hl, by rw [hp]; exact hc, (Nat.sub_le _ _).trans hd,
        fun _ => Nat.le_sub_one_of_lt hcnt, hv, nofun⟩
    · have hcnt := Nat.not_lt.1 hcnt
      by_cases hpos : s.disp.pos = 3
      · rw [seqEdge_dwell_end hp hcnt hpos]
        exact sound_of_idle rfl hl hc hd hv
      · rw [seqEdge_dwell_next hp hcnt hpos]
        exact ⟨hl, hc, hd, nofun, hv, nofun⟩

/-- An edge of the debouncer (R91, R92, R94). -/
theorem debouncerEdge_sound {ps : Params} {d : Debouncer} (h : d.Sound ps)
    (hD : 1 ≤ ps.debounceCycles) (sampleEn btnN : Bool) : (d.edge ps sampleEn btnN).Sound ps := by
  obtain ⟨hle, hpos, -, -⟩ := h
  unfold Debouncer.edge
  split
  case h_1 hp =>
    have hidle : d.clearPulses.Sound ps := ⟨hle, hpos, nofun, nofun⟩
    split
    · unfold Debouncer.sample
      split
      · exact ⟨Nat.le_refl _, fun _ => hD, fun _ => rfl, nofun⟩
      · exact ⟨hle, hpos, nofun, fun _ => hp⟩
    · exact hidle
  case h_2 hp =>
    unfold Debouncer.wait
    split
    · next hcnt =>
      exact ⟨(Nat.sub_le _ _).trans hle, fun _ => Nat.le_sub_one_of_lt hcnt, nofun, nofun⟩
    · exact ⟨hle, nofun, nofun, fun _ => rfl⟩

/-! ### What the ports and the main loop carry fits VALUE_WIDTH (R10, R105) -/

theorem formedCmd_value_lt {s : State} (h : s.SoundBeside) :
    s.formedCmd.value < 2 ^ s.params.valueWidth :=
  modeCmd_value_lt (wellFormed_bounds h.params).2.2 _ _ _ _

/-- The command a host drives fits: from the inputs through the port, from the main loop as formed. -/
theorem drive_value_lt {s : State} (h : s.SoundBeside) {c : Cmd} (hc : s.drive.cmd = some c) :
    c.value < 2 ^ s.params.valueWidth := by
  have hformed : ∀ b : Bool, (if b then some s.formedCmd else none) = some c →
      c.value < 2 ^ s.params.valueWidth := by
    rintro (_ | _) hb
    · cases hb
    · cases hb
      exact formedCmd_value_lt h
  have hfits := h.host
  unfold State.drive at hc
  split at hc
  case h_1 =>
    cases hv : s.inp.cmdValid <;> rw [hv] at hc <;> cases hc
    exact onPort_value_lt _ _
  case h_2 => cases hc
  case h_3 => exact hformed _ hc
  case h_4 => exact hformed _ hc
  case h_5 c' hh =>
    cases hc
    rw [hh] at hfits
    exact hfits
  case h_6 => cases hc

/-- So does what an edge presents when a request may take the port. -/
theorem over_value_lt {s : State} (h : s.SoundBeside) {r : Drive}
    (hr : ∀ c, r.cmd = some c → c.value < 2 ^ s.params.valueWidth) {c : Cmd}
    (hc : (r.over s.drive).cmd = some c) : c.value < 2 ^ s.params.valueWidth := by
  unfold Drive.over at hc
  cases hrc : r.cmd with
  | none =>
    simp only [hrc] at hc
    exact drive_value_lt h hc
  | some c' =>
    simp only [hrc] at hc
    exact hr c (hrc.trans hc)

theorem presented_fits (s : State) (mine : Bool) {c : Cmd} {vw : Nat} (h : c.value < 2 ^ vw) :
    (s.presented mine c).fits vw := by
  unfold State.presented
  split
  · trivial
  · exact h

theorem hostAfter_fits {s : State} (h : s.SoundBeside) (mine : Bool) :
    (s.hostAfter mine).fits s.params.valueWidth := by
  have hformed := presented_fits s mine (formedCmd_value_lt h)
  have hfits := h.host
  unfold State.hostAfter
  split
  case h_1 => trivial
  case h_2 => trivial
  case h_3 =>
    split
    · exact hformed
    · split <;> trivial
  case h_4 =>
    split
    · exact hformed
    · trivial
  case h_5 c hh =>
    rw [hh] at hfits
    exact presented_fits s mine hfits
  case h_6 => split <;> trivial

/-! ### Clock edges and runs keep the invariant -/

/-- A reset edge is the reset of both blocks, whatever a request drives (R123.1, R140). -/
theorem clockEdgeWith_reset {s : State} (h : s.inp.rst = true) (r : Drive) :
    s.clockEdgeWith r = (s.edgeSurroundings r.cmd.isNone).resetBlocks := by
  simp [State.clockEdgeWith, h]

theorem clockEdgeWith_reset_disp {s : State} (h : s.inp.rst = true) (r : Drive) :
    (s.clockEdgeWith r).disp = Display.reset := by
  rw [clockEdgeWith_reset h, State.resetBlocks_disp]

theorem clockEdgeWith_reset_deb {s : State} (h : s.inp.rst = true) (r : Drive) :
    (s.clockEdgeWith r).deb = Debouncer.reset := by
  rw [clockEdgeWith_reset h, State.resetBlocks_deb]

theorem clockEdgeWith_soundBeside {s : State} (h : s.SoundBeside) (r : Drive) :
    (s.clockEdgeWith r).SoundBeside := by
  obtain ⟨hps, -, -, -, -, -, -, hhost, -⟩ := clockEdgeWith_frame s r
  refine ⟨by rw [hps]; exact h.params, ?_, by rw [hps, hhost]; exact hostAfter_fits h _⟩
  rw [hps]
  cases hr : s.inp.rst with
  | true =>
    rw [clockEdgeWith_reset_deb hr r]
    exact sound_debouncerReset _
  | false =>
    rw [clockEdgeWith_deb hr]
    exact debouncerEdge_sound h.deb (wellFormed_bounds h.params).2.1 _ _

/-- A clock edge keeps the invariant, whatever command that fits a request drives (R28). -/
theorem clockEdgeWith_inv {s : State} (h : s.Inv) {r : Drive}
    (hr : ∀ c, r.cmd = some c → c.value < 2 ^ s.params.valueWidth) : (s.clockEdgeWith r).Inv := by
  obtain ⟨hdisp, hbeside⟩ := inv_iff.1 h
  refine inv_iff.2 ⟨?_, clockEdgeWith_soundBeside hbeside r⟩
  rw [clockEdgeWith_params]
  cases hrst : s.inp.rst with
  | true =>
    rw [clockEdgeWith_reset_disp hrst r]
    exact sound_displayReset _
  | false =>
    rw [(clockEdgeWith_sameDisplay hrst r).disp]
    exact seqEdge_sound hdisp (wellFormed_bounds hbeside.params).1 fun _ => over_value_lt hbeside hr

theorem advanceInputs_soundBeside {s : State} (h : s.SoundBeside) : s.advanceInputs.SoundBeside := by
  obtain ⟨hps, hdeb, hhost⟩ := h
  constructor <;> simpa

theorem advanceInputs_inv {s : State} (h : s.Inv) : s.advanceInputs.Inv := by
  obtain ⟨hdisp, hbeside⟩ := inv_iff.1 h
  exact inv_iff.2 ⟨by simpa using hdisp, advanceInputs_soundBeside hbeside⟩

theorem nextEdge_soundBeside {s : State} (h : s.SoundBeside) : s.nextEdge.SoundBeside :=
  advanceInputs_soundBeside (clockEdgeWith_soundBeside h _)

theorem nextEdge_inv {s : State} (h : s.Inv) : s.nextEdge.Inv :=
  advanceInputs_inv (clockEdgeWith_inv h nofun)

theorem run_inv {s : State} (h : s.Inv) (n : Nat) : (s.run n).Inv :=
  run_keeps (P := State.Inv) (fun _ => nextEdge_inv) n h

theorem run_soundBeside {s : State} (h : s.SoundBeside) (n : Nat) : (s.run n).SoundBeside :=
  run_keeps (P := State.SoundBeside) (fun _ => nextEdge_soundBeside) n h

theorem runRender_inv {s : State} (h : s.Inv) {c : Cmd} (hc : c.value < 2 ^ s.params.valueWidth) :
    (s.runRender c).Inv :=
  run_inv (advanceInputs_inv (clockEdgeWith_inv h fun _ hr => by cases hr; exact hc)) _

end Sys2Proof.Machine
end

section
/-! The operations of the display unit that run phases of their own (R65 to R67, R79), a reset edge in the
middle of them or not: what they leave in the display registers. -/

namespace Sys2Proof.Machine

/-! ### Runs of a busy display -/

/-- After a run in which the sequencer alone would stay busy, the display is as the sequencer alone leaves it,
or a reset edge has ended the run (R82, R140; log 10). -/
theorem run_disp_of_busy : ∀ (n : Nat) {s : State},
    (∀ j, j < n → (seqStep^[j] s).disp.phase ≠ .idle) →
    (s.run n).disp = (seqStep^[n] s).disp ∨ (s.run n).disp = Display.reset := by
  intro n
  induction n with
  | zero => exact fun _ => .inl rfl
  | succ n ih =>
    intro s hb
    unfold State.run
    cases hr : s.inp.rst with
    | true =>
      refine .inr ?_
      rw [if_pos rfl, State.nextEdge, State.advanceInputs_disp]
      exact clockEdgeWith_reset_disp hr _
    | false =>
      have hstep : SameDisplay s.nextEdge (seqStep s) := by
        refine sameDisplay_trans (advanceInputs_sameDisplay _) ?_
        have hedge := clockEdge_sameDisplay hr
        rwa [seqEdge_busy (s := s) (hb 0 (Nat.succ_pos n))] at hedge
      rw [if_neg Bool.false_ne_true, Function.iterate_succ_apply,
        ← (seqStep_iterate_sameDisplay hstep n).disp]
      refine ih fun j hj => ?_
      rw [(seqStep_iterate_sameDisplay hstep j).disp, ← Function.iterate_succ_apply]
      exact hb (j + 1) (Nat.succ_lt_succ hj)

/-- So an operation with phases of its own, set up as in `e`, leaves what the sequencer alone does, in IDLE, or
the reset values. -/
theorem runDisplay_disp_of_busy {s e : State} (he : { s with disp := e.disp } = e) {n : Nat}
    (hb : ∀ j, j < n → (seqStep^[j] e).disp.phase ≠ .idle) :
    (s.runDisplay e.disp n).disp = { (seqStep^[n] e).disp with phase := .idle } ∨
    (s.runDisplay e.disp n).disp = Display.reset := by
  unfold State.runDisplay
  rw [he]
  rcases run_disp_of_busy n hb with h | h
  · exact .inl (by simp only [h])
  · exact .inr (by simp only [h]; rfl)

/-- Such an operation keeps the invariant if the registers it ends with are those of an idle display in range:
in the middle of it they need not be. -/
theorem runDisplay_inv {s e : State} (h : s.SoundBeside) (he : { s with disp := e.disp } = e) {n : Nat}
    (hb : ∀ j, j < n → (seqStep^[j] e).disp.phase ≠ .idle)
    (hend : Display.Sound s.params { (seqStep^[n] e).disp with phase := .idle }) :
    (s.runDisplay e.disp n).Inv := by
  obtain ⟨hps, hdeb, hhost⟩ :=
    run_soundBeside (s := { s with disp := e.disp }) ⟨h.params, h.deb, h.host⟩ n
  refine inv_iff.2 ⟨?_, hps, hdeb, hhost⟩
  rw [runDisplay_params]
  rcases runDisplay_disp_of_busy he hb with heq | heq <;> rw [heq]
  · exact hend
  · exact sound_displayReset _

/-! ### The driver's operations -/

/-- The display at the start of a driver operation (R52, R70). -/
def State.driving (s : State) (ph : Phase) (bits : Word) : State :=
  { s with disp := { s.disp with phase := ph, frame := bits, bitcnt := 0 } }

theorem drivePins_eq (s : State) (ph : Phase) (bits : Word) (n : Nat) :
    s.drivePins ph bits n = s.runDisplay (s.driving ph bits).disp n := rfl

/-- `done` at the start is no matter to the phases that follow (R14). -/
theorem sending_of_clearDone {s : State} {n : Nat}
    (h : ∀ j, j < n → (seqStep^[j] s.clearDone).disp.phase.sending = true) :
    ∀ j, j < n → (seqStep^[j] s).disp.phase.sending = true := by
  intro j hj
  rcases Nat.eq_zero_or_pos j with rfl | hpos
  · exact h 0 hj
  · rw [← seqStep_clearDone s hpos]
    exact h j hj

theorem driving_bits_sending (s : State) (w : Word) {k : Nat} (hk : k ≤ 15) :
    ∀ j, j < 3 * k → (seqStep^[j] (s.driving .bitData w)).disp.phase.sending = true :=
  sending_of_clearDone (seqStep_bits (s := (s.driving .bitData w).clearDone) rfl rfl k
    ((Nat.zero_add k).le.trans hk)).2

theorem driving_frame_sending (s : State) (w : Word) :
    ∀ j, j < 50 → (seqStep^[j] (s.driving .latchLo w)).disp.phase.sending = true := by
  obtain ⟨hend, hbits⟩ := seqStep_word (s := seqStep (s.driving .latchLo w)) rfl rfl rfl
  intro j hj
  cases j with
  | zero => rfl
  | succ i =>
    rw [Function.iterate_succ_apply]
    rcases Nat.lt_or_ge i 48 with hi | hi
    · exact hbits i hi
    · rw [show i = 48 by omega, hend]
      rfl

/-- Bits sent from an idle display: `latch`, the counters and the operands stay, `sclk` is low again (R65). -/
theorem driving_bits_disp {s : State} (hc : s.disp.sclk = false) (w : Word) {k : Nat} (hk : 1 ≤ k)
    (hk' : k ≤ 15) :
    (seqStep^[3 * k] (s.driving .bitData w)).disp =
      { s.disp with
        sdata := (wireBitsOf w k).getLastD s.disp.sdata, frame := w <<< k
        bitcnt := BitVec.ofNat 4 k, done := false, phase := .bitData } := by
  have hbits := (seqStep_bits (s := (s.driving .bitData w).clearDone) rfl rfl k
    ((Nat.zero_add k).le.trans hk')).1
  rw [← seqStep_clearDone _ (by omega), hbits]
  simp only [shiftBits_spec (s := (s.driving .bitData w).clearDone) _ hc]
  simp [State.driving]

/-- A frame sent from an idle display: the pins are at rest again, `dwell_cnt` is loaded, the operands stay
(R67). -/
theorem driving_frame_disp {s : State} (hp : s.PinsAtRest) (w : Word) :
    (seqStep^[50] (s.driving .latchLo w)).disp =
      { s.disp with
        latch := true, sdata := w.getLsbD 0, frame := 0, bitcnt := 15
        dwellCnt := s.params.dwellCycles, done := false, phase := .dwell } := by
  have hrest : (s.driving .latchLo w).clearDone.PinsAtRest := hp
  rw [← seqStep_clearDone _ (by decide), (seqStep_frame rfl rfl hrest).1, sendFrame_spec hrest]
  rfl

/-- No driver operation ends with `done` (R85): each of its edges is one of a frame being sent. -/
theorem drivePins_done {s : State} {ph : Phase} {bits : Word} {n : Nat} (hn : 1 ≤ n)
    (hs : ∀ j, j < n → (seqStep^[j] (s.driving ph bits)).disp.phase.sending = true) :
    (s.drivePins ph bits n).disp.done = false := by
  rw [drivePins_eq]
  rcases runDisplay_disp_of_busy rfl fun j hj => (Phase.sending_ne (hs j hj)).1 with
    heq | heq <;> rw [heq]
  · obtain ⟨m, rfl⟩ : ∃ m, n = m + 1 := ⟨n - 1, by omega⟩
    rw [Function.iterate_succ_apply']
    exact seqStep_done (Phase.sending_ne (hs m (Nat.lt_succ_self m))).2
  · rfl

theorem drivePins_bits_inv {s : State} (h : s.Inv) (hi : s.disp.phase = .idle) (w : Word) {k : Nat}
    (hk : 1 ≤ k) (hk' : k ≤ 15) : (s.drivePins .bitData w (3 * k)).Inv := by
  obtain ⟨hdisp, hbeside⟩ := inv_iff.1 h
  obtain ⟨hl, hc⟩ := hdisp.pins_of_idle hi
  have hs := driving_bits_sending s w hk'
  refine runDisplay_inv hbeside rfl (fun j hj => (Phase.sending_ne (hs j hj)).1) ?_
  rw [driving_bits_disp hc w hk hk']
  exact sound_of_idle rfl hl hc hdisp.dwellLe hdisp.value

theorem drivePins_frame_inv {s : State} (h : s.Inv) (hi : s.disp.phase = .idle) (w : Word) :
    (s.drivePins .latchLo w 50).Inv := by
  obtain ⟨hdisp, hbeside⟩ := inv_iff.1 h
  obtain ⟨hl, hc⟩ := hdisp.pins_of_idle hi
  have hs := driving_frame_sending s w
  refine runDisplay_inv hbeside rfl (fun j hj => (Phase.sending_ne (hs j hj)).1) ?_
  rw [driving_frame_disp ⟨hl, hc⟩ w]
  exact sound_of_idle rfl rfl hc (Nat.le_refl _) hdisp.value

/-! ### DWELL on an idle display -/

theorem dwellAlone_eq (s : State) :
    s.dwellAlone =
      s.runDisplay (s.displayBusy s.params.dwellCycles).disp s.params.dwellCycles := rfl

theorem displayBusy_busy (s : State) (n : Nat) {j : Nat} (hj : j < n) :
    (seqStep^[j] (s.displayBusy n)).disp.phase ≠ .idle := by
  rw [(displayBusy_steps s n j (Nat.le_of_lt hj)).1]
  exact Phase.noConfusion

/-- The last edge of a dwell of its own leaves 1 in `dwell_cnt`, and the rest as before (R79, log 21). -/
theorem displayBusy_disp (s : State) {n : Nat} (hn : 1 ≤ n) :
    (seqStep^[n] (s.displayBusy n)).disp = { s.disp with phase := .dwell, dwellCnt := 1, done := false } := by
  rw [displayBusy_iterate s n n hn (Nat.le_refl n), Nat.add_sub_cancel_left]

theorem dwellAlone_done {s : State} (hN : 1 ≤ s.params.dwellCycles) : s.dwellAlone.disp.done = false := by
  rw [dwellAlone_eq]
  rcases runDisplay_disp_of_busy rfl fun j => displayBusy_busy s s.params.dwellCycles with
    heq | heq <;> rw [heq]
  · rw [displayBusy_disp s hN]
  · rfl

theorem dwellAlone_inv {s : State} (h : s.Inv) (hi : s.disp.phase = .idle) : s.dwellAlone.Inv := by
  obtain ⟨hdisp, hbeside⟩ := inv_iff.1 h
  obtain ⟨hl, hc⟩ := hdisp.pins_of_idle hi
  have hN := (wellFormed_bounds hbeside.params).1
  refine runDisplay_inv hbeside rfl (fun j => displayBusy_busy s s.params.dwellCycles) ?_
  rw [displayBusy_disp s hN]
  exact sound_of_idle rfl hl hc hN hdisp.value

end Sys2Proof.Machine
end

section
/-! The invariant of R28 through every operation and every step, and after reset. -/

namespace Sys2Proof.Machine

/-! ### What a step can be -/

/-- The decoder answers only operations whose `value` fits (R45, R55). -/
theorem decode_wellFormed {vw : Nat} {w : OpWord} {i : Instr} (h : decode vw w = .ok i) :
    i.wellFormed vw = true := by
  obtain ⟨fmt, word⟩ := w
  have hv := decide_eq_true (cmdValue_lt vw word)
  unfold decode at h
  split at h
  case isFalse => cases h
  case isTrue =>
    unfold decodeBits at h
    cases fmt <;> simp only at h
    case cmd =>
      cases h
      exact hv
    case showclock =>
      split at h <;> cases h
      exact hv
    case showvolts =>
      split at h <;> cases h
      exact hv
    case segb | selb | env =>
      simp only [decodeSegment, decodeSelect, decodeEnv] at h
      repeat' split at h
      all_goals cases h
      all_goals rfl
    case seq =>
      cases h
      unfold decodeSeq
      repeat' split
      all_goals rfl
    all_goals
      cases h
      rfl

/-- A step that answers is one clock edge, or the meaning of an operation that fits VALUE_WIDTH on the state
with its request taken off (R58). -/
theorem step_next {s t : State} (h : step s = .next t) :
    t = s.nextEdge ∨ ∃ i rest, i.wellFormed s.params.valueWidth = true ∧
      exec i { s with pending := rest } = .next t := by
  unfold step at h
  split at h
  · cases h
    exact .inl rfl
  · split at h
    · next hd => exact .inr ⟨_, _, decode_wellFormed hd, h⟩
    · cases h

/-! ### Every operation keeps the invariant -/

/-- The requests still to come are no part of the invariant. -/
theorem inv_setPending {s : State} (h : s.Inv) (l : List OpWord) : { s with pending := l }.Inv :=
  ⟨h.params, h.latch, h.sclk, h.dwell, h.debounce, h.value, h.pulses⟩

theorem ifDisplayFree_inv {s t : State} {f : State → State} (h : s.Inv)
    (hf : s.disp.phase = .idle → (f s).Inv) (ht : ifDisplayFree s f = .next t) : t.Inv := by
  rcases ifDisplayFree_next ht with ⟨hfree, rfl⟩ | ⟨-, rfl⟩
  · exact hf (displayFree_iff.1 hfree).1
  · exact nextEdge_inv h

theorem stalled_inv {i : Instr} {s t : State} (h : s.Inv) (ht : stalled i s = .next t) : t.Inv := by
  cases ht
  exact nextEdge_inv (inv_setPending h _)

theorem execDwell_inv {s t : State} (h : s.Inv) (ht : execDwell s = .next t) : t.Inv := by
  unfold execDwell at ht
  split at ht
  · cases ht
    exact run_inv h _
  · exact ifDisplayFree_inv h (dwellAlone_inv h) ht

theorem execModesel_inv {s t : State} (h : s.Inv) (ht : execModesel s = .next t) : t.Inv := by
  unfold execModesel at ht
  split at ht
  · cases ht
    exact runRender_inv h (modeCmd_value_lt (wellFormed_bounds h.params).2.2 _ _ _ _)
  · exact stalled_inv h ht

theorem loopIteration_inv {s : State} (h : s.Inv) : s.loopIteration.Inv := by
  obtain ⟨hdisp, hps, hdeb, -⟩ := inv_iff.1 h
  have hstart : { s with host := .step1 }.Inv := inv_iff.2 ⟨hdisp, hps, hdeb, trivial⟩
  have hsampled : s.loopStep1.Inv := run_inv (nextEdge_inv hstart) _
  unfold State.loopIteration
  dsimp only
  split
  · exact run_inv hsampled _
  · exact hsampled

theorem execLoop_inv {s t : State} (h : s.Inv) (ht : execLoop s = .next t) : t.Inv := by
  unfold execLoop at ht
  split at ht
  · cases ht
    exact inv_setPending (loopIteration_inv h) _
  · exact stalled_inv h ht

/-- Every operation keeps the invariant. Those not named in the case split take no edge and write the clock,
the tracker or `result` only. -/
theorem exec_inv {i : Instr} {s t : State} (h : s.Inv) (hi : i.wellFormed s.params.valueWidth = true)
    (ht : exec i s = .next t) : t.Inv := by
  cases i
  case render | showclock | showvolts =>
    exact ifDisplayFree_inv (f := fun u => u.runRender _) h
      (fun _ => runRender_inv h (by exact of_decide_eq_true hi)) ht
  case shiftbit =>
    exact ifDisplayFree_inv (f := fun u => u.drivePins _ _ _) h
      (fun hp => drivePins_bits_inv h hp _ (k := 1) (by decide) (by decide)) ht
  case shiftbyte =>
    exact ifDisplayFree_inv (f := fun u => u.drivePins _ _ _) h
      (fun hp => drivePins_bits_inv h hp _ (k := 8) (by decide) (by decide)) ht
  case writeframe =>
    exact ifDisplayFree_inv (f := fun u => u.drivePins _ _ _) h (fun hp => drivePins_frame_inv h hp _) ht
  case dwell => exact execDwell_inv h ht
  case dbsample =>
    cases ht
    exact advanceInputs_inv (clockEdgeWith_inv h nofun)
  case dbwait =>
    cases ht
    exact nextEdge_inv h
  case modesel => exact execModesel_inv h ht
  case loop => exact execLoop_inv h ht
  all_goals
    cases ht
    exact ⟨h.params, h.latch, h.sclk, h.dwell, h.debounce, h.value, h.pulses⟩

/-- Settles O59: a step is one clock edge or an operation that fits VALUE_WIDTH, and both keep the
invariant. -/
theorem stepKeepsInvariant : Obligations.StepKeepsInvariant := by
  intro s t h ht
  rcases step_next ht with rfl | ⟨i, rest, hi, hexec⟩
  · exact nextEdge_inv h
  · exact exec_inv (inv_setPending h rest) hi hexec

/-- Settles O58: both blocks are at their reset values, the default parameters are legal, and no frame is in
flight in IDLE. -/
theorem resetMeetsInvariant : Obligations.ResetMeetsInvariant :=
  ⟨inv_iff.2 ⟨sound_displayReset _, by decide, sound_debouncerReset _, trivial⟩, trivial⟩

end Sys2Proof.Machine
end

section
/-! The pulses `done`, `clk_reset` and `db_pass` (R14, R85, R91, R92, R94), at an edge and over an
operation. -/

namespace Sys2Proof.Machine

/-! ### The pulses after one edge -/

/-- Only the last edge of the fourth dwell raises `done` (R14, R85). -/
theorem seqEdge_done_iff (s : State) (cmd : Option Cmd) :
    (s.seqEdge cmd).disp.done = true ↔
      s.disp.phase = .dwell ∧ s.disp.dwellCnt ≤ 1 ∧ s.disp.pos = 3 := by
  by_cases hp : s.disp.phase = .dwell
  · by_cases hc : s.disp.dwellCnt ≤ 1
    · by_cases hpos : s.disp.pos = 3
      · simp [seqEdge_dwell_end hp hc hpos, hp, hc, hpos]
      · rw [seqEdge_dwell_next hp hc hpos]
        exact iff_of_false Bool.false_ne_true fun h => hpos h.2.2
    · simp [seqEdge_dwell_wait hp (Nat.lt_of_not_le hc), hc]
  · have hdown : (s.seqEdge cmd).disp.done = false := by
      by_cases hi : s.disp.phase = .idle
      · cases cmd with
        | none => rw [seqEdge_idle_none hi]
        | some c => rw [seqEdge_idle_some hi]; rfl
      · rw [seqEdge_busy hi]
        exact seqStep_done hp
    simp [hdown, hp]

theorem clockEdgeWith_done_iff (s : State) (r : Drive) :
    (s.clockEdgeWith r).disp.done = true ↔
      s.inp.rst = false ∧ s.disp.phase = .dwell ∧ s.disp.dwellCnt ≤ 1 ∧ s.disp.pos = 3 := by
  cases hr : s.inp.rst with
  | true => simp [clockEdgeWith_reset_disp hr r, Display.reset]
  | false => simp [(clockEdgeWith_sameDisplay hr r).disp, seqEdge_done_iff]

theorem nextEdge_done_iff (s : State) :
    s.nextEdge.disp.done = true ↔
      s.inp.rst = false ∧ s.disp.phase = .dwell ∧ s.disp.dwellCnt ≤ 1 ∧ s.disp.pos = 3 := by
  rw [State.nextEdge, State.advanceInputs_disp]
  exact clockEdgeWith_done_iff s _

/-- `clk_reset` is up after an edge exactly when a ready debouncer sampled a pressed button (R91, R94). -/
theorem debouncerEdge_clkReset_iff (d : Debouncer) (ps : Params) (sampleEn btnN : Bool) :
    (d.edge ps sampleEn btnN).clkReset = true ↔
      (d.phase = .ready ∧ sampleEn = true) ∧ btnN = false := by
  cases hp : d.phase with
  | ready =>
    cases sampleEn <;> cases btnN <;>
      simp [Debouncer.edge, hp, Debouncer.sample, Debouncer.clearPulses, pressed]
  | block =>
    by_cases hc : 1 < d.cnt <;> simp [Debouncer.edge, hp, Debouncer.wait, Debouncer.clearPulses, hc]

/-- `db_pass` is up after an edge exactly when a ready debouncer sampled an idle button or the edge ended a
block (R91, R92, R94). -/
theorem debouncerEdge_dbPass_iff (d : Debouncer) (ps : Params) (sampleEn btnN : Bool) :
    (d.edge ps sampleEn btnN).dbPass = true ↔
      ((d.phase = .ready ∧ sampleEn = true) ∧ btnN = true) ∨ (d.phase = .block ∧ d.cnt ≤ 1) := by
  cases hp : d.phase with
  | ready =>
    cases sampleEn <;> cases btnN <;>
      simp [Debouncer.edge, hp, Debouncer.sample, Debouncer.clearPulses, pressed]
  | block =>
    by_cases hc : 1 < d.cnt
    · simp [Debouncer.edge, hp, Debouncer.wait, Debouncer.clearPulses, hc]
    · simp [Debouncer.edge, hp, Debouncer.wait, Debouncer.clearPulses, hc, Nat.not_lt.1 hc]

theorem clockEdgeWith_clkReset_iff (s : State) (r : Drive) :
    (s.clockEdgeWith r).deb.clkReset = true ↔
      s.inp.rst = false ∧
        (s.deb.phase = .ready ∧ (r.sampleEn = true ∨ s.drive.sampleEn = true)) ∧ s.inp.btnN = false := by
  cases hr : s.inp.rst with
  | true => simp [clockEdgeWith_reset_deb hr r, Debouncer.reset]
  | false => simp [clockEdgeWith_deb hr r, debouncerEdge_clkReset_iff]

theorem clockEdgeWith_dbPass_iff (s : State) (r : Drive) :
    (s.clockEdgeWith r).deb.dbPass = true ↔
      s.inp.rst = false ∧
        (((s.deb.phase = .ready ∧ (r.sampleEn = true ∨ s.drive.sampleEn = true)) ∧ s.inp.btnN = true) ∨
          (s.deb.phase = .block ∧ s.deb.cnt ≤ 1)) := by
  cases hr : s.inp.rst with
  | true => simp [clockEdgeWith_reset_deb hr r, Debouncer.reset]
  | false => simp [clockEdgeWith_deb hr r, debouncerEdge_dbPass_iff]

/-! ### `done` after an operation -/

/-- The operation can end with `done`: a dwell of position 3 is in progress, and no reset is due (R85). -/
def State.InLastDwell (s : State) : Prop :=
  s.disp.phase = .dwell ∧ s.disp.pos = 3 ∧ s.inp.rst = false

theorem nextEdge_inLastDwell {s : State} (h : s.nextEdge.disp.done = true) : s.InLastDwell := by
  obtain ⟨hr, hp, -, hpos⟩ := (nextEdge_done_iff s).1 h
  exact ⟨hp, hpos, hr⟩

/-- The rest of a dwell ends with `done` only after position 3: until then each of its edges waits. -/
theorem run_dwell_inLastDwell : ∀ (n : Nat) {s : State}, s.disp.phase = .dwell → 1 ≤ n →
    n ≤ max s.disp.dwellCnt 1 → (s.run n).disp.done = true → s.InLastDwell := by
  intro n
  induction n with
  | zero => exact fun _ h => absurd h (by decide)
  | succ n ih =>
    intro s hp _ hn h
    unfold State.run at h
    split at h
    · exact nextEdge_inLastDwell h
    · next hr =>
      have hr := Bool.eq_false_of_not_eq_true hr
      rcases Nat.eq_zero_or_pos n with rfl | hpos
      · exact nextEdge_inLastDwell h
      · have hdisp : s.nextEdge.disp = { s.disp with dwellCnt := s.disp.dwellCnt - 1, done := false } := by
          rw [State.nextEdge, State.advanceInputs_disp, (clockEdge_sameDisplay hr).disp,
            seqEdge_dwell_wait hp (by omega)]
        obtain ⟨-, hpos3, -⟩ := ih (s := s.nextEdge) (by rw [hdisp]; exact hp) hpos
          (by rw [hdisp]; show n ≤ max (s.disp.dwellCnt - 1) 1; omega) h
        rw [hdisp] at hpos3
        exact ⟨hp, hpos3, hr⟩

theorem ifDisplayFree_done {s t : State} {f : State → State} (hf : (f s).disp.done = false)
    (ht : ifDisplayFree s f = .next t) (hd : t.disp.done = true) : s.InLastDwell := by
  rcases ifDisplayFree_next ht with ⟨-, rfl⟩ | ⟨-, rfl⟩
  · rw [hf] at hd
    cases hd
  · exact nextEdge_inLastDwell hd

theorem execDwell_done {s t : State} (hN : 1 ≤ s.params.dwellCycles) (ht : execDwell s = .next t)
    (hd : t.disp.done = true) : s.InLastDwell := by
  unfold execDwell at ht
  split at ht
  · next hp =>
    cases ht
    exact run_dwell_inLastDwell _ hp (Nat.le_max_right _ _) (Nat.le_refl _) hd
  · exact ifDisplayFree_done (dwellAlone_done hN) ht hd

theorem stalled_done {i : Instr} {s t : State} (ht : stalled i s = .next t) (hd : t.disp.done = true) :
    s.InLastDwell := by
  cases ht
  exact nextEdge_inLastDwell (s := { s with pending := encode s.params.valueWidth i :: s.pending }) hd

/-- A request of a whole render was taken by an idle display, or an ordinary edge passed. -/
theorem ifDisplayFree_idle_or_done {s t : State} {f : State → State} (ht : ifDisplayFree s f = .next t)
    (hd : t.disp.done = true) : (s.disp.phase = .idle ∧ s.inp.rst = false) ∨ s.InLastDwell := by
  rcases ifDisplayFree_next ht with ⟨hfree, -⟩ | ⟨-, rfl⟩
  · exact .inl (displayFree_iff.1 hfree)
  · exact .inr (nextEdge_inLastDwell hd)

/-- The same of a blocking operation of the main loop, which waits for both blocks (R107). -/
theorem hostMayProceed_idle_or_done {i : Instr} {s t u : State}
    (ht : (if s.hostMayProceed then .next u else stalled i s) = Host.Outcome.next t)
    (hd : t.disp.done = true) : (s.disp.phase = .idle ∧ s.inp.rst = false) ∨ s.InLastDwell := by
  split at ht
  · next hm => exact .inl (displayFree_iff.1 (Bool.and_eq_true_iff.1 hm).1)
  · exact .inr (stalled_done ht hd)

/-- After an operation that takes clock edges `done` is up only if it was a whole render taken by an idle
display or began in the dwell of position 3 (R14, R85). -/
theorem exec_done {i : Instr} {s t : State} (hi : takesEdges i = true) (hN : 1 ≤ s.params.dwellCycles)
    (ht : exec i s = .next t) (hd : t.disp.done = true) :
    (rendersWhole i = true ∧ s.disp.phase = .idle ∧ s.inp.rst = false) ∨ s.InLastDwell := by
  cases i
  case render | showclock | showvolts =>
    exact (ifDisplayFree_idle_or_done (f := fun u => u.runRender _) ht hd).imp_left fun h => ⟨rfl, h⟩
  case modesel | loop =>
    exact (hostMayProceed_idle_or_done ht hd).imp_left fun h => ⟨rfl, h⟩
  case shiftbit =>
    exact .inr (ifDisplayFree_done (f := fun u => u.drivePins _ _ _)
      (drivePins_done (by decide) (driving_bits_sending s _ (k := 1) (by decide))) ht hd)
  case shiftbyte =>
    exact .inr (ifDisplayFree_done (f := fun u => u.drivePins _ _ _)
      (drivePins_done (by decide) (driving_bits_sending s _ (k := 8) (by decide))) ht hd)
  case writeframe =>
    exact .inr (ifDisplayFree_done (f := fun u => u.drivePins _ _ _)
      (drivePins_done (by decide) (driving_frame_sending s _)) ht hd)
  case dwell => exact .inr (execDwell_done hN ht hd)
  case dbsample =>
    cases ht
    rw [State.advanceInputs_disp] at hd
    obtain ⟨hr, hp, -, hpos⟩ := (clockEdgeWith_done_iff s _).1 hd
    exact .inr ⟨hp, hpos, hr⟩
  case dbwait =>
    cases ht
    exact .inr (nextEdge_inLastDwell hd)
  all_goals cases hi

/-- An operation that takes no clock edge writes the clock, the tracker or `result` only (R60, R76, R77, R100,
R101, R103; log 5). -/
theorem exec_noEdge {i : Instr} {s t : State} (hi : takesEdges i = false) (ht : exec i s = .next t) :
    t.disp = s.disp ∧ t.recv = s.recv ∧ t.deb = s.deb ∧ t.host = s.host ∧ t.tickIn = s.tickIn ∧
      t.inp = s.inp ∧ t.script = s.script ∧ t.wire = s.wire := by
  cases i
  case render | showclock | showvolts | shiftbit | shiftbyte | writeframe | dwell | dbsample | dbwait |
      modesel | loop => cases hi
  all_goals
    cases ht
    exact ⟨rfl, rfl, rfl, rfl, rfl, rfl, rfl, rfl⟩

/-- Settles O29: the three pulses at an edge, `done` after an operation that takes edges, and what an operation
that takes none leaves alone. -/
theorem pulsesLastOneCycle : Obligations.PulsesLastOneCycle :=
  ⟨fun s r => ⟨clockEdgeWith_done_iff s r, clockEdgeWith_clkReset_iff s r, clockEdgeWith_dbPass_iff s r⟩,
    fun _ _ _ => exec_done, fun _ _ _ => exec_noEdge⟩

/-! ### `done` is read by no rule of the block (R14) -/

/-- The same state with `done` at another level. -/
def State.setDone (s : State) (b : Bool) : State := { s with disp := { s.disp with done := b } }

/-- The main loop that waits for `done` samples with it (R107 step 4); no command depends on it. -/
theorem drive_cmd_setDone (s : State) (b : Bool) : (s.setDone b).drive.cmd = s.drive.cmd := by
  obtain ⟨_, _, _, _, _, _, host, _, _, _, _, _, _⟩ := s
  cases host <;> rfl

theorem clockEdge_display_setDone (s : State) (b : Bool) :
    (s.setDone b).clockEdge.disp = s.clockEdge.disp ∧
      (s.setDone b).clockEdge.recv = s.clockEdge.recv := by
  cases hr : s.inp.rst with
  | true =>
    rw [State.clockEdge, State.clockEdge, clockEdgeWith_reset hr,
      clockEdgeWith_reset (s := s.setDone b) hr]
    exact ⟨rfl, rfl⟩
  | false =>
    have hs := clockEdge_sameDisplay hr
    have hu := clockEdge_sameDisplay (s := s.setDone b) hr
    rw [drive_cmd_setDone, State.setDone, seqEdge_setDone] at hu
    exact ⟨hu.disp.trans hs.disp.symm, hu.recv.trans hs.recv.symm⟩

/-- Another host drives the debouncer through the inputs, whatever `done` is (R107). -/
theorem clockEdge_deb_setDone {s : State} (h : s.host = .off) (b : Bool) :
    (s.setDone b).clockEdge.deb = s.clockEdge.deb := by
  cases hr : s.inp.rst with
  | true =>
    exact (clockEdgeWith_reset_deb (s := s.setDone b) hr _).trans (clockEdgeWith_reset_deb hr _).symm
  | false =>
    rw [clockEdge_deb hr, clockEdge_deb (s := s.setDone b) hr]
    simp only [State.drive, h, show (s.setDone b).host = .off from h]
    rfl

/-- Settles O28: `busy` and `cmd_ready` are read off the phase, `done` is what the last edge of a render leaves,
and it is neither a command nor read by the sequencer. -/
theorem statusOutputs : Obligations.StatusOutputs := by
  refine ⟨fun s => ⟨?_, ?_, clockEdgeWith_done_iff s _⟩, rfl, fun s b => ?_⟩
  · simp [State.busy]
  · simp [State.cmdReady]
  · obtain ⟨hdisp, hrecv⟩ := clockEdge_display_setDone s b
    exact ⟨hdisp, hrecv, fun h => clockEdge_deb_setDone h b⟩

end Sys2Proof.Machine
end

section
/-! The pins and the display controller at an edge (R33, R40, R68), and what a busy display looks at (R42,
R123.4). -/

namespace Sys2Proof.Machine

/-! ### An edge of the sequencer writes at most one pin -/

/-- Two sets of display registers have their pins at the same levels (R13). -/
structure Display.SamePins (d e : Display) : Prop where
  latch : d.latch = e.latch
  sclk : d.sclk = e.sclk
  sdata : d.sdata = e.sdata

/-- At an edge of the sequencer the pins and the display controller stay, or one pin is written and the
display controller sees it (R33, R70, R83). -/
theorem seqEdge_stays_or_writesPin (s : State) (cmd : Option Cmd) :
    ((s.seqEdge cmd).disp.SamePins s.disp ∧ (s.seqEdge cmd).recv = s.recv) ∨
    ∃ line level, (s.seqEdge cmd).disp.SamePins (s.disp.setPin line level) ∧
      (s.seqEdge cmd).recv = s.recv.observe s.disp (s.disp.setPin line level) := by
  cases hp : s.disp.phase
  case idle =>
    left
    cases cmd with
    | none =>
      rw [seqEdge_idle_none hp]
      exact ⟨⟨rfl, rfl, rfl⟩, rfl⟩
    | some c =>
      rw [seqEdge_idle_some hp]
      exact ⟨⟨rfl, rfl, rfl⟩, rfl⟩
  case latchLo =>
    rw [seqEdge_latchLo hp]
    exact .inr ⟨.latch, false, ⟨rfl, rfl, rfl⟩, by simp [Receiver.observe]⟩
  case bitData =>
    rw [seqEdge_bitData hp]
    exact .inr ⟨.sdata, s.disp.frame.getLsbD 15, ⟨rfl, rfl, rfl⟩, by simp [Receiver.observe]⟩
  case bitClkHi =>
    rw [seqEdge_bitClkHi hp]
    exact .inr ⟨.sclk, true, ⟨rfl, rfl, rfl⟩, by cases hc : s.disp.sclk <;> simp [Receiver.observe, hc]⟩
  case bitClkLo =>
    refine .inr ⟨.sclk, false, ?_⟩
    by_cases hb : s.disp.bitcnt = 15
    · rw [seqEdge_bitClkLo_last hp hb]
      exact ⟨⟨rfl, rfl, rfl⟩, by simp [Receiver.observe]⟩
    · rw [seqEdge_bitClkLo_next hp hb]
      exact ⟨⟨rfl, rfl, rfl⟩, by simp [Receiver.observe]⟩
  case latchHi =>
    rw [seqEdge_latchHi hp]
    exact .inr ⟨.latch, true, ⟨rfl, rfl, rfl⟩, by cases hl : s.disp.latch <;> simp [Receiver.observe, hl]⟩
  case dwell =>
    left
    by_cases hcnt : 1 < s.disp.dwellCnt
    · rw [seqEdge_dwell_wait hp hcnt]
      exact ⟨⟨rfl, rfl, rfl⟩, rfl⟩
    · by_cases hpos : s.disp.pos = 3
      · rw [seqEdge_dwell_end hp (Nat.not_lt.1 hcnt) hpos]
        exact ⟨⟨rfl, rfl, rfl⟩, rfl⟩
      · rw [seqEdge_dwell_next hp (Nat.not_lt.1 hcnt) hpos]
        exact ⟨⟨rfl, rfl, rfl⟩, rfl⟩

/-- At least two of the three pins are at the same level before and after (R40). -/
def Display.OnePinApart (old new : Display) : Prop :=
  (new.latch = old.latch ∧ new.sclk = old.sclk) ∨ (new.latch = old.latch ∧ new.sdata = old.sdata) ∨
    (new.sclk = old.sclk ∧ new.sdata = old.sdata)

theorem seqEdge_onePinApart (s : State) (cmd : Option Cmd) :
    s.disp.OnePinApart (s.seqEdge cmd).disp := by
  obtain ⟨⟨hl, hc, -⟩, -⟩ | ⟨line, level, ⟨hl, hc, hd⟩, -⟩ := seqEdge_stays_or_writesPin s cmd
  · exact .inl ⟨hl, hc⟩
  · cases line with
    | latch => exact .inr (.inr ⟨hc, hd⟩)
    | sclk => exact .inr (.inl ⟨hl, hd⟩)
    | sdata => exact .inl ⟨hl, hc⟩

/-- The edge that lowers `sclk` leaves `sdata` (R65, R83). -/
theorem seqEdge_bitClkLo_sdata {s : State} (hp : s.disp.phase = .bitClkLo) (cmd : Option Cmd) :
    (s.seqEdge cmd).disp.sdata = s.disp.sdata := by
  by_cases hb : s.disp.bitcnt = 15
  · rw [seqEdge_bitClkLo_last hp hb]
  · rw [seqEdge_bitClkLo_next hp hb]

/-- Where `sclk` is high the sequencer is in BIT_CLK_LO (R28). -/
theorem State.SclkLevel.bitClkLo {s : State} (h : s.SclkLevel) (hc : s.disp.sclk = true) :
    s.disp.phase = .bitClkLo :=
  of_decide_eq_true (h.symm.trans hc)

/-- Settles O31: an edge without reset is one edge of the sequencer, which writes at most one pin, and not
`sdata` in the one phase in which `sclk` is high. -/
theorem onePinChangesPerEdge : Obligations.OnePinChangesPerEdge := by
  intro s hr
  dsimp only
  rw [(clockEdge_sameDisplay hr).disp]
  exact ⟨seqEdge_onePinApart s _, fun hlevel hc => seqEdge_bitClkLo_sdata (hlevel.bitClkLo hc) _⟩

/-! ### The display controller at an edge -/

/-- Of the registers after an edge the display controller sees the pins only (R33). -/
theorem observe_samePins {d e : Display} (h : d.SamePins e) (r : Receiver) (old : Display) :
    r.observe old d = r.observe old e := by
  simp only [Receiver.observe, h.latch, h.sclk, h.sdata]

/-- While no pin moves the display controller stays as it is (R33). -/
theorem observe_self (r : Receiver) (d : Display) : r.observe d d = r := by
  simp [Receiver.observe]

/-- The display controller after an edge of the sequencer is what it makes of the pins before and after
(R33). -/
theorem seqEdge_recv (s : State) (cmd : Option Cmd) :
    (s.seqEdge cmd).recv = s.recv.observe s.disp (s.seqEdge cmd).disp := by
  obtain ⟨hpins, hrecv⟩ | ⟨line, level, hpins, hrecv⟩ := seqEdge_stays_or_writesPin s cmd
  · rw [observe_samePins hpins, observe_self, hrecv]
  · rw [observe_samePins hpins, hrecv]

/-- At a rising `sclk` the chain moves up by one and takes the bit in below (R33). -/
theorem concat_eq_append (w : Word) (b : Bool) :
    (w.setWidth 15).concat b = w.extractLsb' 0 15 ++ BitVec.ofBool b := by
  rw [BitVec.setWidth_eq_extractLsb' (by decide)]
  rfl

/-- Where at most one pin moves, the display controller shifts at a rising `sclk` and commits at a rising
`latch`, and never both (R33). -/
theorem observe_of_onePinApart {old new : Display} (h : old.OnePinApart new) (r : Receiver) :
    (r.observe old new).sr = (if old.sclk = false ∧ new.sclk = true
      then r.sr.extractLsb' 0 15 ++ BitVec.ofBool new.sdata else r.sr) ∧
    (r.observe old new).out = if old.latch = false ∧ new.latch = true then r.sr else r.out := by
  have hsr : (r.observe old new).sr = if old.sclk = false ∧ new.sclk = true
      then r.sr.extractLsb' 0 15 ++ BitVec.ofBool new.sdata else r.sr := by
    simp [Receiver.observe, concat_eq_append]
  refine ⟨hsr, ?_⟩
  have hout : (r.observe old new).out =
      if old.latch = false ∧ new.latch = true then (r.observe old new).sr else r.out := by
    simp [Receiver.observe]
  rw [hout]
  split
  · next hrise =>
    have hmoved : new.latch ≠ old.latch := by rw [hrise.1, hrise.2]; decide
    have hstays : new.sclk = old.sclk := by
      obtain ⟨hl, -⟩ | ⟨hl, -⟩ | ⟨hc, -⟩ := h
      · exact absurd hl hmoved
      · exact absurd hl hmoved
      · exact hc
    rw [hsr, hstays, if_neg (by simp)]
  · rfl

/-- Settles O32: the receiver makes of an edge what it makes of the pins around it, of which at most one
moves. -/
theorem receiverFollowsPins : Obligations.ReceiverFollowsPins := by
  intro s hr
  dsimp only
  have hedge := clockEdge_sameDisplay hr
  rw [hedge.recv, hedge.disp, seqEdge_recv]
  exact observe_of_onePinApart (seqEdge_onePinApart s _) s.recv

/-! ### A busy display -/

/-- A clock edge of a busy display is, for the display unit, an edge of a sequencer to which no command is
presented (R82, R123.4). -/
theorem clockEdge_sameDisplay_seqStep {s : State} (hb : s.disp.phase ≠ .idle) (hr : s.inp.rst = false) :
    SameDisplay s.clockEdge (seqStep s) := by
  have hedge := clockEdge_sameDisplay hr
  rwa [seqEdge_busy hb] at hedge

/-- Settles O33: both displays take the edge of a sequencer without a command, which reads the display unit
only. -/
theorem busyDisplaySeesOnlyItself : Obligations.BusyDisplaySeesOnlyItself := by
  intro s u hb hs hu hps hd hrecv hwire
  have hsame : SameDisplay (seqStep s) (seqStep u) := seqEdge_sameDisplay ⟨hps, hd, hrecv, hwire⟩ none
  have hes := clockEdge_sameDisplay_seqStep hb hs
  have heu := clockEdge_sameDisplay_seqStep (hd ▸ hb) hu
  obtain ⟨-, hdisp, hrecv, hwire⟩ := sameDisplay_trans hes (sameDisplay_trans hsame (sameDisplay_symm heu))
  exact ⟨hdisp, hrecv, hwire⟩

end Sys2Proof.Machine
end

section
/-! The frame in flight (R33, R35, R43, R51, R86): what is still in `frame` and what is already in the shift
chain, through edges, operations and steps. -/

namespace Sys2Proof.Machine

/-! ### A frame on its way into the shift chain -/

/-- Before the first bit the chain may hold anything. -/
theorem hasShifted_zero (r : Receiver) (f : Word) : r.HasShifted f 0 :=
  fun _ hj => absurd hj (Nat.not_lt_zero _)

/-- A rising `sclk` takes the next wire bit into the chain (R33, R35). -/
theorem hasShifted_succ {r : Receiver} {f : Word} {k : Nat} (h : r.HasShifted f k) (hk : k < 16)
    (out : Word) :
    Receiver.HasShifted ⟨(r.sr.setWidth 15).concat (f.getLsbD (15 - k)), out⟩ f (k + 1) := by
  intro j hj
  show ((r.sr.setWidth 15).concat (f.getLsbD (15 - k))).getLsbD j = _
  cases j with
  | zero => rw [BitVec.getLsbD_concat_zero, show 16 - (k + 1) + 0 = 15 - k by omega]
  | succ j =>
    have hj' : j < k := Nat.lt_of_succ_lt_succ hj
    rw [BitVec.getLsbD_concat_succ, BitVec.getLsbD_setWidth, h j hj',
      show 16 - (k + 1) + (j + 1) = 16 - k + j by omega]
    simp [show j < 15 by omega]

/-- After sixteen bits the chain is the frame (R35). -/
theorem sr_eq_of_hasShifted {r : Receiver} {f : Word} (h : r.HasShifted f 16) : r.sr = f := by
  apply BitVec.eq_of_getLsbD_eq
  intro j hj
  rw [h j hj, Nat.sub_self, Nat.zero_add]

/-- The top bit of `frame` after `k` shifts is the next wire bit (R35). -/
theorem getLsbD_shiftLeft_top (f : Word) {k : Nat} (hk : k < 16) :
    (f <<< k).getLsbD 15 = f.getLsbD (15 - k) := by
  rw [BitVec.getLsbD_shiftLeft]
  simp [show ¬ 15 < k by omega]

/-! ### What is in flight in each phase -/

section
variable {s : State}

theorem inFlight_idle (h : s.disp.phase = .idle) : s.InFlight := by
  rw [State.InFlight, h]
  trivial

theorem inFlight_latchLo (h : s.disp.phase = .latchLo) :
    s.InFlight ↔ s.disp.frame = s.currentFrame := by
  rw [State.InFlight, h]

theorem inFlight_bitData (h : s.disp.phase = .bitData) :
    s.InFlight ↔ s.disp.frame = s.currentFrame <<< s.disp.bitcnt.toNat ∧
      s.recv.HasShifted s.currentFrame s.disp.bitcnt.toNat := by
  rw [State.InFlight, h]

theorem inFlight_bitClkHi (h : s.disp.phase = .bitClkHi) :
    s.InFlight ↔ s.disp.frame = s.currentFrame <<< s.disp.bitcnt.toNat ∧
      s.recv.HasShifted s.currentFrame s.disp.bitcnt.toNat ∧
      s.disp.sdata = s.disp.frame.getLsbD 15 := by
  rw [State.InFlight, h]

theorem inFlight_bitClkLo (h : s.disp.phase = .bitClkLo) :
    s.InFlight ↔ s.disp.frame = s.currentFrame <<< s.disp.bitcnt.toNat ∧
      s.recv.HasShifted s.currentFrame (s.disp.bitcnt.toNat + 1) := by
  rw [State.InFlight, h]

theorem inFlight_latchHi (h : s.disp.phase = .latchHi) :
    s.InFlight ↔ s.recv.sr = s.currentFrame := by
  rw [State.InFlight, h]

theorem inFlight_dwell (h : s.disp.phase = .dwell) :
    s.InFlight ↔ s.recv.sr = s.currentFrame ∧ s.recv.out = s.currentFrame := by
  rw [State.InFlight, h]

end

/-- What is in flight is a matter of the display unit only. -/
theorem inFlight_congr {s t : State} (h : SameDisplay s t) : s.InFlight ↔ t.InFlight := by
  obtain ⟨hps, hd, hr, -⟩ := h
  simp only [State.InFlight, State.currentFrame, hps, hd, hr]

/-! ### Edges keep the frame whole -/

/-- An edge of the sequencer, arm by arm (R83): a bit leaves `frame` where it has entered the chain. The pin
levels of R28 make the edges of BIT_CLK_HI and LATCH_HI rising ones. -/
theorem seqEdge_inFlight {s : State} (hs : s.disp.Sound s.params) (h : s.InFlight) (cmd : Option Cmd) :
    (s.seqEdge cmd).InFlight := by
  have hb16 : s.disp.bitcnt.toNat < 16 := s.disp.bitcnt.isLt
  have hlatch := hs.latch
  have hsclk := hs.sclk
  cases hp : s.disp.phase <;> rw [hp] at hlatch hsclk
  case idle =>
    cases cmd with
    | none =>
      rw [seqEdge_idle_none hp]
      exact inFlight_idle hp
    | some c =>
      rw [seqEdge_idle_some hp]
      exact (inFlight_latchLo rfl).2 rfl
  case latchLo =>
    have hframe := (inFlight_latchLo hp).1 h
    rw [seqEdge_latchLo hp]
    exact (inFlight_bitData rfl).2 ⟨hframe.trans (BitVec.shiftLeft_zero _).symm, hasShifted_zero _ _⟩
  case bitData =>
    obtain ⟨hframe, hchain⟩ := (inFlight_bitData hp).1 h
    rw [seqEdge_bitData hp]
    exact (inFlight_bitClkHi rfl).2 ⟨hframe, hchain, rfl⟩
  case bitClkHi =>
    obtain ⟨hframe, hchain, hsdata⟩ := (inFlight_bitClkHi hp).1 h
    have hbit : s.disp.sdata = s.currentFrame.getLsbD (15 - s.disp.bitcnt.toNat) := by
      rw [hsdata, hframe, getLsbD_shiftLeft_top _ hb16]
    rw [seqEdge_bitClkHi hp, hsclk, hbit]
    exact (inFlight_bitClkLo rfl).2 ⟨hframe, hasShifted_succ hchain hb16 _⟩
  case bitClkLo =>
    obtain ⟨hframe, hchain⟩ := (inFlight_bitClkLo hp).1 h
    by_cases hb : s.disp.bitcnt = 15
    · rw [hb] at hchain
      rw [seqEdge_bitClkLo_last hp hb]
      exact (inFlight_latchHi rfl).2 (sr_eq_of_hasShifted hchain)
    · have hnext : (s.disp.bitcnt + 1).toNat = s.disp.bitcnt.toNat + 1 := by bv_omega
      rw [seqEdge_bitClkLo_next hp hb, hframe, ← BitVec.shiftLeft_add, ← hnext]
      exact (inFlight_bitData rfl).2 ⟨rfl, by rw [← hnext] at hchain; exact hchain⟩
  case latchHi =>
    have hchain := (inFlight_latchHi hp).1 h
    rw [seqEdge_latchHi hp, hlatch]
    exact (inFlight_dwell rfl).2 ⟨hchain, hchain⟩
  case dwell =>
    by_cases hcnt : 1 < s.disp.dwellCnt
    · rw [seqEdge_dwell_wait hp hcnt]
      exact (inFlight_dwell hp).2 ((inFlight_dwell hp).1 h)
    · by_cases hpos : s.disp.pos = 3
      · rw [seqEdge_dwell_end hp (Nat.not_lt.1 hcnt) hpos]
        exact inFlight_idle rfl
      · rw [seqEdge_dwell_next hp (Nat.not_lt.1 hcnt) hpos]
        exact (inFlight_latchLo rfl).2 rfl

/-- Both invariants: the pins and counters of R28, and the frame in flight. -/
structure State.Whole (s : State) : Prop where
  inv : s.Inv
  inFlight : s.InFlight

theorem clockEdgeWith_inFlight {s : State} (h : s.Whole) (r : Drive) : (s.clockEdgeWith r).InFlight := by
  cases hr : s.inp.rst with
  | true => exact inFlight_idle (by rw [clockEdgeWith_reset_disp hr]; rfl)
  | false =>
    exact (inFlight_congr (clockEdgeWith_sameDisplay hr r)).2
      (seqEdge_inFlight (inv_iff.1 h.inv).1 h.inFlight _)

/-- A clock edge keeps both invariants, whatever command that fits a request drives. -/
theorem clockEdgeWith_whole {s : State} (h : s.Whole) {r : Drive}
    (hr : ∀ c, r.cmd = some c → c.value < 2 ^ s.params.valueWidth) :
    (s.clockEdgeWith r).advanceInputs.Whole :=
  ⟨advanceInputs_inv (clockEdgeWith_inv h.inv hr),
    (inFlight_congr (advanceInputs_sameDisplay _)).2 (clockEdgeWith_inFlight h r)⟩

theorem nextEdge_whole {s : State} (h : s.Whole) : s.nextEdge.Whole :=
  clockEdgeWith_whole h nofun

theorem run_whole {s : State} (h : s.Whole) (n : Nat) : (s.run n).Whole :=
  run_keeps (P := State.Whole) (fun _ => nextEdge_whole) n h

theorem runRender_whole {s : State} (h : s.Whole) {c : Cmd} (hc : c.value < 2 ^ s.params.valueWidth) :
    (s.runRender c).Whole :=
  run_whole (clockEdgeWith_whole h fun _ hr => by cases hr; exact hc) _

/-! ### Operations and steps keep the frame whole -/

/-- The requests still to come are no part of the invariants. -/
theorem whole_setPending {s : State} (h : s.Whole) (l : List OpWord) : { s with pending := l }.Whole :=
  ⟨inv_setPending h.inv l, (inFlight_congr ⟨rfl, rfl, rfl, rfl⟩).2 h.inFlight⟩

/-- An operation with phases of its own leaves IDLE, where no frame is in flight (R65 to R67, R79). -/
theorem runDisplay_inFlight (s : State) (d : Display) (n : Nat) : (s.runDisplay d n).InFlight :=
  inFlight_idle rfl

theorem ifDisplayFree_inFlight {s t : State} {f : State → State} (h : s.Whole) (hf : (f s).InFlight)
    (ht : ifDisplayFree s f = .next t) : t.InFlight := by
  rcases ifDisplayFree_next ht with ⟨-, rfl⟩ | ⟨-, rfl⟩
  · exact hf
  · exact (nextEdge_whole h).inFlight

theorem stalled_inFlight {i : Instr} {s t : State} (h : s.Whole) (ht : stalled i s = .next t) :
    t.InFlight := by
  cases ht
  exact (nextEdge_whole (whole_setPending h _)).inFlight

/-- The rest of a dwell is edges of the render; a dwell on an idle display is an operation of its own (log
21). -/
theorem execDwell_inFlight {s t : State} (h : s.Whole) (ht : execDwell s = .next t) : t.InFlight := by
  unfold execDwell at ht
  split at ht
  · cases ht
    exact (run_whole h _).inFlight
  · exact ifDisplayFree_inFlight h (runDisplay_inFlight s _ _) ht

theorem execModesel_inFlight {s t : State} (h : s.Whole) (ht : execModesel s = .next t) : t.InFlight := by
  unfold execModesel at ht
  split at ht
  · cases ht
    exact (runRender_whole h (modeCmd_value_lt (wellFormed_bounds h.inv.params).2.2 _ _ _ _)).inFlight
  · exact stalled_inFlight h ht

theorem loopIteration_whole {s : State} (h : s.Whole) : s.loopIteration.Whole := by
  obtain ⟨hdisp, hps, hdeb, -⟩ := inv_iff.1 h.inv
  have hstart : { s with host := .step1 }.Whole :=
    ⟨inv_iff.2 ⟨hdisp, hps, hdeb, trivial⟩, (inFlight_congr ⟨rfl, rfl, rfl, rfl⟩).2 h.inFlight⟩
  have hsampled : s.loopStep1.Whole := run_whole (nextEdge_whole hstart) _
  unfold State.loopIteration
  dsimp only
  split
  · exact run_whole hsampled _
  · exact hsampled

theorem execLoop_inFlight {s t : State} (h : s.Whole) (ht : execLoop s = .next t) : t.InFlight := by
  unfold execLoop at ht
  split at ht
  · cases ht
    exact (whole_setPending (loopIteration_whole h) _).inFlight
  · exact stalled_inFlight h ht

/-- Every operation keeps the frame in flight whole. Those not named in the case split take no edge and leave
the display unit alone. -/
theorem exec_inFlight {i : Instr} {s t : State} (h : s.Whole)
    (hi : i.wellFormed s.params.valueWidth = true) (ht : exec i s = .next t) : t.InFlight := by
  cases i
  case render | showclock | showvolts =>
    exact ifDisplayFree_inFlight (f := fun u => u.runRender _) h
      (runRender_whole h (by exact of_decide_eq_true hi)).inFlight ht
  case shiftbit | shiftbyte | writeframe =>
    exact ifDisplayFree_inFlight (f := fun u => u.drivePins _ _ _) h (runDisplay_inFlight s _ _) ht
  case dwell => exact execDwell_inFlight h ht
  case dbsample =>
    cases ht
    exact (clockEdgeWith_whole h (r := ⟨true, none⟩) nofun).inFlight
  case dbwait =>
    cases ht
    exact (nextEdge_whole h).inFlight
  case modesel => exact execModesel_inFlight h ht
  case loop => exact execLoop_inFlight h ht
  all_goals
    cases ht
    exact (inFlight_congr ⟨rfl, rfl, rfl, rfl⟩).2 h.inFlight

/-- Settles O60: a step is one clock edge or an operation that fits VALUE_WIDTH, and both keep the frame in
flight whole. -/
theorem stepKeepsFrameInFlight : Obligations.StepKeepsFrameInFlight := by
  intro s t hinv hflight ht
  have h : s.Whole := ⟨hinv, hflight⟩
  rcases step_next ht with rfl | ⟨i, rest, hi, hexec⟩
  · exact (nextEdge_whole h).inFlight
  · exact exec_inFlight (whole_setPending h rest) hi hexec

end Sys2Proof.Machine
end

section
/-! Words and operations (spec/30_encoding.md R45 to R48, R52): the two directions of the round trip, and
which words there are. -/

namespace Sys2Proof

/-! ### Rows of a table and their codes -/

/-- The row ENCODE.d has the `d`-th pattern as its fixed bits (R46, R60). -/
theorem encode_encodeRow (vw : Nat) (d : Digit) (s : Bool) :
    encode vw (encodeRow d s) = ⟨.segb, segbWord s (segbPatterns.get d)⟩ := by
  fin_cases d <;> rfl

theorem decodeSegment_pattern (d : Digit) (s : Bool) :
    decodeSegment (segbPatterns.get d) s = .ok (encodeRow d s) := by
  fin_cases d <;> rfl

theorem decodeSegment_of_not_mem {low : BitVec 7} (h : low ∉ segbPatterns) (s : Bool) :
    decodeSegment low s = .error .notASegmentByte := by
  simp_all [segbPatterns, decodeSegment]

/-- The decoder takes exactly the ten patterns, each for its digit's row. -/
theorem decodeSegment_eq_ok_iff {low : BitVec 7} {s : Bool} {i : Instr} :
    decodeSegment low s = .ok i ↔ ∃ d : Digit, low = segbPatterns.get d ∧ i = encodeRow d s := by
  constructor
  · intro h
    by_cases hmem : low ∈ segbPatterns
    · obtain ⟨d, rfl⟩ : ∃ d : Digit, segbPatterns.get d = low := List.get_of_mem hmem
      rw [decodeSegment_pattern] at h
      exact ⟨d, rfl, (Except.ok.inj h).symm⟩
    · rw [decodeSegment_of_not_mem hmem] at h
      cases h
  · rintro ⟨d, rfl, rfl⟩
    exact decodeSegment_pattern d s

theorem encode_of_decodeSelect {vw b : Nat} {i : Instr} (h : decodeSelect b = .ok i) :
    encode vw i = ⟨.selb, b⟩ := by
  unfold decodeSelect at h
  repeat' split at h
  all_goals cases h
  all_goals
    subst b
    rfl

theorem encode_decodeSeq {vw k : Nat} (h : k < 4) : encode vw (decodeSeq k) = ⟨.seq, k⟩ := by
  interval_cases k <;> rfl

theorem encode_of_decodeEnv {vw k : Nat} {i : Instr} (h : decodeEnv k = .ok i) :
    encode vw i = ⟨.env, k⟩ := by
  unfold decodeEnv at h
  repeat' split at h
  all_goals cases h
  all_goals
    subst k
    rfl

/-! ### Fields of a word and the word of its fields -/

theorem ofNat_segbWord (s : Bool) (low : BitVec 7) : BitVec.ofNat 7 (segbWord s low) = low := by
  apply BitVec.eq_of_toNat_eq
  have hlow := low.isLt
  rw [BitVec.toNat_ofNat, segbWord]
  omega

theorem segbWord_div (s : Bool) (low : BitVec 7) : decide (segbWord s low / 128 % 2 = 1) = s := by
  have hlow := low.isLt
  rw [segbWord]
  cases s <;> simp <;> omega

theorem segbWord_fields {w : Nat} (h : w < 256) :
    segbWord (decide (w / 128 % 2 = 1)) (BitVec.ofNat 7 w) = w := by
  rw [segbWord, BitVec.toNat_ofNat]
  by_cases hs : w / 128 % 2 = 1 <;> simp [hs] <;> omega

/-- SHOWCLOCK's fixed bit is `dp_en` clear (R59). -/
theorem cmdDpEn_eq_false_iff (vw w : Nat) : cmdDpEn vw w = false ↔ cmdTop vw w / 4 % 2 = 0 := by
  rw [cmdDpEn, decide_eq_false_iff_not]
  omega

/-- SHOWVOLTS's fixed bits are `dp_en` set and `dp_idx` 1 (R59). -/
theorem cmdDpEn_and_cmdDpIdx_iff (vw w : Nat) :
    (cmdDpEn vw w = true ∧ cmdDpIdx vw w = 1) ↔ cmdTop vw w % 8 = 5 := by
  have hidx : cmdDpIdx vw w = 1 ↔ cmdTop vw w % 4 = 1 := by
    rw [cmdDpIdx, ← BitVec.toNat_inj, BitVec.toNat_ofNat]
    rfl
  rw [hidx, cmdDpEn, decide_eq_true_eq]
  omega

/-! ### Decoding an encoded operation -/

/-- The laws of Laws/PerInstr.lean as one: the encoder answers words of their format. -/
theorem encode_wellFormed {vw : Nat} {i : Instr} (h : i.wellFormed vw = true) :
    (encode vw i).wellFormed vw = true :=
  match i with
  | .render e x v => Laws.Words.render e x v vw h
  | .showclock x v => Laws.Words.showclock x v vw h
  | .showvolts v => Laws.Words.showvolts v vw h
  | .encode0 s => Laws.Words.encode0 s vw h
  | .encode1 s => Laws.Words.encode1 s vw h
  | .encode2 s => Laws.Words.encode2 s vw h
  | .encode3 s => Laws.Words.encode3 s vw h
  | .encode4 s => Laws.Words.encode4 s vw h
  | .encode5 s => Laws.Words.encode5 s vw h
  | .encode6 s => Laws.Words.encode6 s vw h
  | .encode7 s => Laws.Words.encode7 s vw h
  | .encode8 s => Laws.Words.encode8 s vw h
  | .encode9 s => Laws.Words.encode9 s vw h
  | .digitsel0 => Laws.Words.digitsel0 vw h
  | .digitsel1 => Laws.Words.digitsel1 vw h
  | .digitsel2 => Laws.Words.digitsel2 vw h
  | .digitsel3 => Laws.Words.digitsel3 vw h
  | .writeframe seg sel => Laws.Words.writeframe seg sel vw h
  | .shiftbyte b => Laws.Words.shiftbyte b vw h
  | .shiftbit b => Laws.Words.shiftbit b vw h
  | .digit => Laws.Words.digit vw h
  | .dwell => Laws.Words.dwell vw h
  | .dbsample => Laws.Words.dbsample vw h
  | .dbwait => Laws.Words.dbwait vw h
  | .tick => Laws.Words.tick vw h
  | .clkreset => Laws.Words.clkreset vw h
  | .vupdate => Laws.Words.vupdate vw h
  | .modesel => Laws.Words.modesel vw h
  | .loop => Laws.Words.loop vw h

theorem OpWord.wellFormed_iff {vw : Nat} {w : OpWord} :
    w.wellFormed vw = true ↔ w.word < 2 ^ w.fmt.width vw ∧ w.fixedBits vw = true := by
  rw [OpWord.wellFormed, OpWord.inWidth, Bool.and_eq_true, decide_eq_true_eq]

theorem decode_eq_ok_iff {vw : Nat} {w : OpWord} {i : Instr} :
    decode vw w = .ok i ↔ w.word < 2 ^ w.fmt.width vw ∧ decodeBits vw w.fmt w.word = .ok i := by
  unfold decode
  split <;> simp [*]

theorem decodeBits_segbWord (vw : Nat) (s : Bool) (low : BitVec 7) :
    decodeBits vw .segb (segbWord s low) = decodeSegment low s := by
  rw [decodeBits, ofNat_segbWord, segbWord_div]

/-- The fields of the encoder's word are the operands (R45 to R48). -/
theorem decodeBits_encode {vw : Nat} {i : Instr} (h : i.wellFormed vw = true) :
    decodeBits vw (encode vw i).fmt (encode vw i).word = .ok i := by
  cases i
  case render _ _ value | showclock _ value | showvolts value =>
    have hv : value < 2 ^ vw := of_decide_eq_true h
    simp [encode, decodeBits, hv]
  case encode0 s | encode1 s | encode2 s | encode3 s | encode4 s | encode5 s | encode6 s | encode7 s |
      encode8 s | encode9 s =>
    exact decodeBits_segbWord vw s _
  case writeframe seg sel =>
    have hseg : (256 * seg.toNat + sel.toNat) / 256 = seg.toNat := by
      have := sel.isLt
      omega
    have hsel : BitVec.ofNat 8 (256 * seg.toNat + sel.toNat) = sel := by
      apply BitVec.eq_of_toNat_eq
      have := sel.isLt
      rw [BitVec.toNat_ofNat]
      omega
    simp [encode, decodeBits, hseg, hsel]
  case shiftbyte byte => simp [encode, decodeBits]
  case shiftbit bit => cases bit <;> rfl
  all_goals rfl

/-- Settles O3: the encoder's word has its format's width, and its fields are the operands. -/
theorem decodeInvertsEncode : Obligations.DecodeInvertsEncode := by
  intro vw i h
  obtain ⟨hwidth, -⟩ := OpWord.wellFormed_iff.mp (encode_wellFormed h)
  exact decode_eq_ok_iff.mpr ⟨hwidth, decodeBits_encode h⟩

/-! ### Encoding a decoded word -/

/-- The fields of a word are all of it: none of its bits is dropped (R45 to R48). -/
theorem encode_of_decodeBits {vw : Nat} {fmt : Format} {w : Nat} {i : Instr}
    (hw : w < 2 ^ fmt.width vw) (h : decodeBits vw fmt w = .ok i) : encode vw i = ⟨fmt, w⟩ := by
  cases fmt
  case cmd =>
    cases h
    rw [encode, cmdWord_fields hw]
  case showclock =>
    simp only [decodeBits] at h
    split at h <;> cases h
    next hdp =>
      have hfields := cmdWord_fields hw
      rw [Bool.eq_false_iff.mpr hdp] at hfields
      rw [encode, hfields]
  case showvolts =>
    simp only [decodeBits] at h
    split at h <;> cases h
    next hdp =>
      obtain ⟨hen, hidx⟩ := hdp
      have hfields := cmdWord_fields hw
      rw [hen, hidx] at hfields
      rw [encode, hfields]
  case segb =>
    obtain ⟨d, hlow, rfl⟩ := decodeSegment_eq_ok_iff.mp h
    rw [encode_encodeRow, ← hlow, segbWord_fields hw]
  case selb => exact encode_of_decodeSelect h
  case frame =>
    have hlt : w < 65536 := hw
    have hbytes : 256 * (w / 256 % 2 ^ 8) + w % 2 ^ 8 = w := by omega
    cases h
    rw [encode, BitVec.toNat_ofNat, BitVec.toNat_ofNat, hbytes]
  case byte =>
    have hlt : w < 2 ^ 8 := hw
    cases h
    rw [encode, BitVec.toNat_ofNat, Nat.mod_eq_of_lt hlt]
  case bit =>
    have hlt : w < 2 := hw
    cases h
    interval_cases w <;> rfl
  case seq =>
    cases h
    exact encode_decodeSeq hw
  case env => exact encode_of_decodeEnv h

/-- Settles O4: format by format, the decoder drops no bit of a word. -/
theorem encodeInvertsDecode : Obligations.EncodeInvertsDecode := by
  intro vw w i h
  obtain ⟨hw, hbits⟩ := decode_eq_ok_iff.mp h
  exact ⟨encode_of_decodeBits hw hbits, Machine.decode_wellFormed h⟩

/-! ### Which words there are -/

/-- Beyond the width, the fixed bits are all that the decoder asks of a word. -/
theorem exists_decodeBits_of_fixedBits {vw : Nat} {fmt : Format} {w : Nat}
    (h : OpWord.fixedBits vw ⟨fmt, w⟩ = true) : ∃ i, decodeBits vw fmt w = .ok i := by
  cases fmt
  case showclock =>
    have hdp := (cmdDpEn_eq_false_iff vw w).mpr (of_decide_eq_true h)
    exact ⟨_, by simp only [decodeBits, hdp]; rfl⟩
  case showvolts =>
    have hdp := (cmdDpEn_and_cmdDpIdx_iff vw w).mpr (of_decide_eq_true h)
    exact ⟨_, if_pos hdp⟩
  case segb =>
    obtain ⟨d, hd⟩ := List.get_of_mem (List.contains_iff_mem.mp h)
    exact ⟨_, decodeSegment_eq_ok_iff.mpr ⟨d, hd.symm, rfl⟩⟩
  case selb =>
    have hmem : w = 1 ∨ w = 2 ∨ w = 4 ∨ w = 8 := by simpa [OpWord.fixedBits] using h
    rcases hmem with rfl | rfl | rfl | rfl <;> exact ⟨_, rfl⟩
  case env =>
    have hrow : w < 5 := of_decide_eq_true h
    interval_cases w <;> exact ⟨_, rfl⟩
  all_goals exact ⟨_, rfl⟩

/-- Settles O5: a word that decodes is the encoder's, so it is well formed; a well-formed word has all that
the decoder asks for. -/
theorem decodeAcceptsExactlyWellFormed : Obligations.DecodeAcceptsExactlyWellFormed := by
  intro vw w
  constructor
  · rintro ⟨i, h⟩
    obtain ⟨rfl, hi⟩ := encodeInvertsDecode vw w i h
    exact encode_wellFormed hi
  · intro h
    obtain ⟨hwidth, hfixed⟩ := OpWord.wellFormed_iff.mp h
    obtain ⟨i, hi⟩ := exists_decodeBits_of_fixedBits hfixed
    exact ⟨i, decode_eq_ok_iff.mpr ⟨hwidth, hi⟩⟩

/-- Settles O6, word by word. -/
theorem tableWordsDecode : Obligations.TableWordsDecode :=
  ⟨rfl, rfl, rfl, rfl, rfl, rfl, rfl, rfl, rfl⟩

end Sys2Proof
end

section
/-! Operands and combinational results (spec/30_encoding.md R49 to R51, R54, R55, R59): digits, the decimal
point, the frame; and what a step makes of a request (R58). -/

namespace Sys2Proof.Machine

/-! ### Digits -/

theorem digitAt_le (v : Nat) (p : Position) : (digitAt v p).val ≤ 9 := Nat.le_of_lt_succ (digitAt v p).isLt

theorem digitAt_zero (v : Nat) : (digitAt v 0).val = v / 1000 % 10 := rfl
theorem digitAt_one (v : Nat) : (digitAt v 1).val = v / 100 % 10 := rfl
theorem digitAt_two (v : Nat) : (digitAt v 2).val = v / 10 % 10 := rfl
theorem digitAt_three (v : Nat) : (digitAt v 3).val = v / 1 % 10 := rfl

/-- Settles O14: the four digits by position, recomposed by linear arithmetic. -/
theorem digitsRecomposeModulo10000 : Obligations.DigitsRecomposeModulo10000 := by
  intro v d
  have h0 : d 0 = v / 1000 % 10 := digitAt_zero v
  have h1 : d 1 = v / 100 % 10 := digitAt_one v
  have h2 : d 2 = v / 10 % 10 := digitAt_two v
  have h3 : d 3 = v / 1 % 10 := digitAt_three v
  have hsum : d 0 * 1000 + d 1 * 100 + d 2 * 10 + d 3 = v % 10000 := by omega
  exact ⟨h0, h1, h2, h3, digitAt_le v, hsum, fun hv => hsum.trans (Nat.mod_eq_of_lt (by omega))⟩

/-- The digit of each of the four positions (R49). -/
theorem digitAt_val (v : Nat) (p : Position) :
    (digitAt v p).val = if p = 0 then v / 1000 % 10 else if p = 1 then v / 100 % 10
      else if p = 2 then v / 10 % 10 else v % 10 := by
  have hp : p = 0 ∨ p = 1 ∨ p = 2 ∨ p = 3 := by decide +revert
  rcases hp with rfl | rfl | rfl | rfl
  · exact digitAt_zero v
  · exact digitAt_one v
  · exact digitAt_two v
  · exact (digitAt_three v).trans (by rw [Nat.div_one]; rfl)

/-- Settles O13: the byte is the digit, which fits it. -/
theorem digitReturnsDecimalDigit : Obligations.DigitReturnsDecimalDigit := by
  intro s
  refine ⟨_, rfl, ?_⟩
  have hd := digitAt_le s.disp.valQ s.disp.pos
  rw [BitVec.toNat_ofNat, Nat.mod_eq_of_lt (by omega), digitAt_val]

/-! ### The decimal point and the frame -/

/-- The point is on at `dp_idx` alone, and only with `dp_en` set (R50, R54). -/
theorem showDecimal_eq (dpEn : Bool) (dpIdx p : Position) :
    showDecimal dpEn dpIdx p = decide (dpEn = true ∧ dpIdx = p) := by
  cases dpEn <;> simp [showDecimal, beq_eq_decide]

/-- With `dp_en` clear, `dp_idx` is ignored (R54). -/
theorem showDecimal_false (dpIdx p : Position) : showDecimal false dpIdx p = false := rfl

theorem memReadSeg_dpBit {ps : Params} (h : ps.pointsOff = true) (d : Digit) :
    (memReadSeg ps d).getLsbD ps.dpBit.val = true :=
  List.all_eq_true.mp h _ (by simp [memReadSeg])

/-- In a table with the points off, the overlay clears DP_BIT exactly when the point is on (R60, R61 (c)). -/
theorem encodeDigit_dpBit {ps : Params} (h : ps.pointsOff = true) (d : Digit) (point : Bool) :
    (encodeDigit ps d point).getLsbD ps.dpBit.val = !point := by
  cases point
  · exact memReadSeg_dpBit h d
  · simp [encodeDigit, ps.dpBit.isLt]

theorem frameWord_dpBit {ps : Params} (h : ps.pointsOff = true) (c : Cmd) (p : Position) :
    (frameWord ps c p).getLsbD (8 + ps.dpBit.val) = !showDecimal c.dpEn c.dpIdx p := by
  rw [← encodeDigit_dpBit h (digitAt c.value p), ← frameWord_high, BitVec.getLsbD_extractLsb']
  simp [ps.dpBit.isLt]

/-- A legal table has the points off (R61 (c)). -/
theorem wellFormed_pointsOff {ps : Params} (h : ps.wellFormed = true) : ps.pointsOff = true := by
  simp only [Params.wellFormed, Bool.and_eq_true] at h
  obtain ⟨⟨⟨⟨⟨-, hpoints⟩, -⟩, -⟩, -⟩, -⟩ := h
  exact hpoints

/-- Settles O15, from the two bytes of the frame and the one bit the point overlays. -/
theorem frameAssembly : Obligations.FrameAssembly := by
  intro ps c p h
  refine ⟨?_, frameWord_low ps c p, ?_, ?_⟩
  · rw [frameWord_high, showDecimal_eq]
  · rw [frameWord_dpBit (wellFormed_pointsOff h), showDecimal_eq, Bool.not_eq_false', decide_eq_true_eq]
  · intro hdp idx
    simp only [frameWord, hdp, showDecimal_false]

/-! ### Requests -/

/-- Settles O1: a step with a request is a case split on what the word decodes to. -/
theorem stepRunsDecodedOperation : Obligations.StepRunsDecodedOperation := by
  intro s w rest hs
  constructor
  · intro i hi
    simp only [step, hs, hi]
  · intro e he
    simp only [step, hs, he]

/-- Settles O7: the three operations share one word form and one meaning. -/
theorem showOperationsAreOneRender : Obligations.ShowOperationsAreOneRender :=
  ⟨fun _ _ _ _ => ⟨rfl, rfl⟩, fun _ _ _ => ⟨rfl, rfl⟩⟩

end Sys2Proof.Machine
end

section
/-! The segment encoder (spec/40_segment_encoder.md R60 to R64, spec/30_encoding.md R46): the byte of an
ENCODE row bit by bit, what a legal table makes of it, and the default table against the SEGB words. -/

namespace Sys2Proof.Machine

/-! ### The rows and the bits of their byte -/

/-- The row ENCODE.d returns the byte of `d`, with the point on when `s` is clear (R60). -/
theorem exec_encodeRow (d : Digit) (pointOff : Bool) (s : State) :
    exec (encodeRow d pointOff) s = .next (s.returns (encodeDigit s.params d (!pointOff))) := by
  fin_cases d <;> rfl

/-- The overlay clears DP_BIT of the table's byte when the point is on, and nothing else (R60). -/
theorem encodeDigit_getLsbD (ps : Params) (d : Digit) (point : Bool) {j : Nat} (hj : j < 8) :
    (encodeDigit ps d point).getLsbD j =
      ((memReadSeg ps d).getLsbD j && (!point || decide (j ≠ ps.dpBit.val))) := by
  cases point
  · simp [encodeDigit]
  · have hbit : (1#8 <<< ps.dpBit.val).getLsbD j = decide (j = ps.dpBit.val) := by
      rw [← BitVec.twoPow_eq, BitVec.getLsbD_twoPow]
      simp [eq_comm]
    rw [encodeDigit, if_pos rfl, BitVec.getLsbD_and, BitVec.getLsbD_not, hbit]
    simp [hj]

/-- Away from DP_BIT the byte is the table's. -/
theorem encodeDigit_getLsbD_of_ne {ps : Params} {j : Nat} (hj : j < 8) (hne : j ≠ ps.dpBit.val)
    (d : Digit) (point : Bool) :
    (encodeDigit ps d point).getLsbD j = (memReadSeg ps d).getLsbD j := by
  simp [encodeDigit_getLsbD ps d point hj, hne]

/-- Settles O8: the ten rows return one function of the digit and the point, known bit by bit. -/
theorem encodeReturnsSegmentByte : Obligations.EncodeReturnsSegmentByte := by
  intro d pointOff s
  refine ⟨_, exec_encodeRow d pointOff s, fun j hj => ?_⟩
  rw [encodeDigit_getLsbD s.params d _ hj, Bool.not_not, memReadSeg]

/-! ### The default table and the SEGB words -/

/-- With the default table the byte of a digit is the word of its row (R62, R46). -/
theorem encodeDigit_default (d : Digit) (pointOff : Bool) :
    encodeDigit defaultParams d (!pointOff) =
      BitVec.ofNat 8 (segbWord pointOff (segbPatterns.get d)) := by
  decide +revert

/-- The SEGB words are those of the ENCODE rows. -/
theorem exists_encodeRow_of_decode_segb {vw w : Nat} {i : Instr} (h : decode vw ⟨.segb, w⟩ = .ok i) :
    w < 256 ∧ ∃ (d : Digit) (pointOff : Bool),
      i = encodeRow d pointOff ∧ w = segbWord pointOff (segbPatterns.get d) := by
  obtain ⟨hw, hbits⟩ := decode_eq_ok_iff.mp h
  obtain ⟨d, hlow, hi⟩ := decodeSegment_eq_ok_iff.mp hbits
  exact ⟨hw, d, _, hi, by rw [← hlow, segbWord_fields hw]⟩

/-- Settles O9: a SEGB word is the word of an ENCODE row, which is that row's default byte. -/
theorem defaultEncodeReturnsItsOwnByte : Obligations.DefaultEncodeReturnsItsOwnByte := by
  rintro s ⟨fmt, w⟩ i hparams rfl h
  obtain ⟨hw, d, pointOff, rfl, rfl⟩ := exists_encodeRow_of_decode_segb h
  have hbyte := encodeDigit_default d pointOff
  rw [← hparams] at hbyte
  exact ⟨hw, by rw [exec_encodeRow, hbyte, State.returns]⟩

/-! ### Legal tables -/

/-- What of a legal parameter set concerns the segment bytes (R46, R61). -/
theorem wellFormed_segments {ps : Params} (h : ps.wellFormed = true) :
    ps.patternsDistinct = true ∧ ps.linesDistinct = true ∧ ps.shapesStandard = true := by
  simp only [Params.wellFormed, Bool.and_eq_true] at h
  obtain ⟨⟨⟨⟨⟨hpatterns, -⟩, hlines⟩, hshapes⟩, -⟩, -⟩ := h
  exact ⟨hpatterns, hlines, hshapes⟩

/-- R61 (b): two digits have two table entries. -/
theorem memReadSeg_injective {ps : Params} (h : ps.patternsDistinct = true) :
    Function.Injective (memReadSeg ps) := by
  intro d d' heq
  have hnodup : ps.segTable.toList.Nodup := of_decide_eq_true h
  have hentries : ps.segTable.toList[d.val]'(by simp) = ps.segTable.toList[d'.val]'(by simp) := by
    simpa [memReadSeg] using heq
  exact Fin.ext (hnodup.getElem_inj_iff.mp hentries)

/-- R46: no segment line is the line of the decimal point. -/
theorem segLine_ne_dpBit {ps : Params} (h : ps.linesDistinct = true) (k : Fin 7) :
    ps.segLine[k.val].val ≠ ps.dpBit.val := by
  have hnodup : (ps.dpBit :: ps.segLine.toList).Nodup := of_decide_eq_true h
  obtain ⟨hnotLine, -⟩ := List.nodup_cons.mp hnodup
  intro heq
  rw [← Fin.ext heq] at hnotLine
  simp at hnotLine

/-- R61 (d), (e): the entry of a digit lights one of its standard shapes, active-low. -/
theorem exists_standardShape {ps : Params} (h : ps.shapesStandard = true) (d : Digit) :
    ∃ shape ∈ standardShapes[d.val], ∀ k : Fin 7,
      (memReadSeg ps d).getLsbD ps.segLine[k.val].val = !shape.getLsbD k.val := by
  obtain ⟨shape, hmem, hlights⟩ := List.any_eq_true.mp (List.all_eq_true.mp h d (List.mem_finRange d))
  exact ⟨shape, hmem, fun k => eq_of_beq (List.all_eq_true.mp hlights k (List.mem_finRange k))⟩

/-- In a table with the points off, the overlay loses no entry: DP_BIT was set, and the other bits stay. -/
theorem memReadSeg_eq_of_encodeDigit_eq {ps : Params} (h : ps.pointsOff = true) {d d' : Digit}
    {point : Bool} (heq : encodeDigit ps d point = encodeDigit ps d' point) :
    memReadSeg ps d = memReadSeg ps d' := by
  refine BitVec.eq_of_getLsbD_eq fun j hj => ?_
  by_cases hdp : j = ps.dpBit.val
  · rw [hdp, memReadSeg_dpBit h, memReadSeg_dpBit h]
  · rw [← encodeDigit_getLsbD_of_ne hj hdp d point, heq, encodeDigit_getLsbD_of_ne hj hdp]

/-- The point is read off DP_BIT and the digit off the other bits (R64). -/
theorem encodeDigit_eq_iff {ps : Params} (h : ps.wellFormed = true) {d d' : Digit} {b b' : Bool} :
    encodeDigit ps d b = encodeDigit ps d' b' ↔ d = d' ∧ b = b' := by
  have hpoints := wellFormed_pointsOff h
  obtain ⟨hpatterns, -, -⟩ := wellFormed_segments h
  constructor
  · intro heq
    obtain rfl : b = b' := by
      rw [← Bool.not_inj_iff, ← encodeDigit_dpBit hpoints d b, heq, encodeDigit_dpBit hpoints]
    exact ⟨memReadSeg_injective hpatterns (memReadSeg_eq_of_encodeDigit_eq hpoints heq), rfl⟩
  · rintro ⟨rfl, rfl⟩
    rfl

/-- Settles O10: the byte of a legal table determines the digit and the point; the default bytes are
listed. -/
theorem segmentBytesPairwiseDistinct : Obligations.SegmentBytesPairwiseDistinct := by
  refine ⟨fun ps h => ⟨fun d => ⟨rfl, ?_⟩, fun d d' b b' hne => ?_⟩, fun d => rfl, rfl⟩
  · simp [encodeDigit_eq_iff h]
  · rwa [ne_eq, encodeDigit_eq_iff h, ← Prod.mk_inj]

/-- Settles O11: the overlay sets the point's bit alone, and the segment lines are others, which the table
lights in a standard shape. -/
theorem encodeLightsStandardShape : Obligations.EncodeLightsStandardShape := by
  intro ps d point h
  obtain ⟨-, hlines, hshapes⟩ := wellFormed_segments h
  obtain ⟨shape, hmem, hshape⟩ := exists_standardShape hshapes d
  refine ⟨encodeDigit_dpBit (wellFormed_pointsOff h) d point, shape, hmem, fun k => ?_⟩
  rw [encodeDigit_getLsbD_of_ne (Fin.isLt _) (segLine_ne_dpBit hlines k), hshape]

end Sys2Proof.Machine
end

section
/-! The operations of the shift-register driver on an idle display (spec/41_shift_register_driver.md R65 to R67,
R70): what they leave on the pins, in the display controller and on the wire when no reset cuts them short. -/

namespace Sys2Proof.Machine

/-! ### Requests on an idle display -/

/-- A request of the display unit is taken on an idle display at an edge without reset (R71, R82). -/
theorem ifDisplayFree_idle {s : State} (hs : s.NoReset) (hi : s.disp.phase = .idle) (f : State → State) :
    ifDisplayFree s f = .next (f s) :=
  ifDisplayFree_free (displayFree_iff.2 ⟨hi, hs.1⟩) f

theorem exec_shiftbit_idle {s : State} (hs : s.NoReset) (hi : s.disp.phase = .idle) (b : Bool) :
    exec (.shiftbit b) s = .next (s.drivePins .bitData (BitVec.ofBool b ++ 0#15) 3) :=
  ifDisplayFree_idle hs hi fun t => t.drivePins .bitData (BitVec.ofBool b ++ 0#15) 3

theorem exec_shiftbyte_idle {s : State} (hs : s.NoReset) (hi : s.disp.phase = .idle) (b : Byte) :
    exec (.shiftbyte b) s = .next (s.drivePins .bitData (b ++ 0#8) 24) :=
  ifDisplayFree_idle hs hi fun t => t.drivePins .bitData (b ++ 0#8) 24

theorem exec_writeframe_idle {s : State} (hs : s.NoReset) (hi : s.disp.phase = .idle) (seg sel : Byte) :
    exec (.writeframe seg sel) s = .next (s.drivePins .latchLo (seg ++ sel) 50) :=
  ifDisplayFree_idle hs hi fun t => t.drivePins .latchLo (seg ++ sel) 50

/-- What the sequencer alone leaves in the display unit, a driver operation leaves, in IDLE (R70). -/
theorem drivePins_of_driving {s : State} (hs : s.NoReset) {ph : Phase} {w : Word} {n : Nat}
    (hb : ∀ j, j < n → (seqStep^[j] (s.driving ph w)).disp.phase.sending = true) {d : Display}
    {r : Receiver} {es : List WireEvent} (hd : (seqStep^[n] (s.driving ph w)).disp = d)
    (hr : (seqStep^[n] (s.driving ph w)).recv = r) (hw : (seqStep^[n] (s.driving ph w)).wire = es) :
    (s.drivePins ph w n).disp = { d with phase := .idle } ∧ (s.drivePins ph w n).recv = r ∧
    (s.drivePins ph w n).wire = es ∧ SameRest (s.drivePins ph w n) ((s.displayBusy n).edges n) := by
  subst hd hr hw
  exact drivePins_spec hs ph w n hb

/-! ### Bits -/

/-- The shift chain `sr` once the bits have gone in, the first of them first (R33). -/
def shiftIn (sr : Word) (bits : List Bool) : Word := bits.foldl (fun a b => (a.setWidth 15).concat b) sr

/-- The pin-write events of SHIFTBITs in a row, in time order (R65). -/
def bitEvents (bits : List Bool) : List WireEvent :=
  bits.flatMap fun b => [.pin .sdata b, .pin .sclk true, .pin .sclk false]

/-- Bits sent from an idle display reach the shift chain and the wire in order, and commit nothing (R33,
R65). -/
theorem driving_bits_recv_wire {s : State} (hc : s.disp.sclk = false) (w : Word) {k : Nat} (hk : 1 ≤ k)
    (hk' : k ≤ 15) :
    (seqStep^[3 * k] (s.driving .bitData w)).recv = ⟨shiftIn s.recv.sr (wireBitsOf w k), s.recv.out⟩ ∧
    (seqStep^[3 * k] (s.driving .bitData w)).wire = (bitEvents (wireBitsOf w k)).reverse ++ s.wire := by
  have hbits := (seqStep_bits (s := (s.driving .bitData w).clearDone) rfl rfl k
    ((Nat.zero_add k).le.trans hk')).1
  rw [← seqStep_clearDone _ (by omega), hbits]
  simp only [shiftBits_spec (s := (s.driving .bitData w).clearDone) _ hc]
  exact ⟨rfl, rfl⟩

/-- `k` bits sent by request, with more room in `frame`: the whole effect (R65, R70). -/
theorem drivePins_bits_spec {s : State} (hs : s.NoReset) (hi : s.disp.phase = .idle)
    (hc : s.disp.sclk = false) (w : Word) {k : Nat} (hk : 1 ≤ k) (hk' : k ≤ 15) :
    let t := s.drivePins .bitData w (3 * k)
    t.disp =
      { s.disp with
        sdata := (wireBitsOf w k).getLastD s.disp.sdata, sclk := false, frame := w <<< k
        bitcnt := BitVec.ofNat 4 k, done := false } ∧
    t.recv = ⟨shiftIn s.recv.sr (wireBitsOf w k), s.recv.out⟩ ∧
    t.wire = (bitEvents (wireBitsOf w k)).reverse ++ s.wire ∧
    SameRest t ((s.displayBusy (3 * k)).edges (3 * k)) := by
  obtain ⟨hchain, hevents⟩ := driving_bits_recv_wire hc w hk hk'
  obtain ⟨hdisp, hrest⟩ :=
    drivePins_of_driving hs (driving_bits_sending s w hk') (driving_bits_disp hc w hk hk') hchain hevents
  refine ⟨hdisp.trans ?_, hrest⟩
  simp only [hi, hc]

/-- The one bit of a SHIFTBIT stands at the top of `frame` (R65). -/
theorem wireBitsOf_bit (b : Bool) : wireBitsOf (BitVec.ofBool b ++ 0#15) 1 = [b] := by
  cases b <;> rfl

/-- The bit has left `frame` after one shift (R65, R83). -/
theorem bit_shiftLeft (b : Bool) : (BitVec.ofBool b ++ 0#15 : Word) <<< 1 = 0 := by
  cases b <;> rfl

theorem shiftIn_bit (sr : Word) (b : Bool) : shiftIn sr [b] = sr.extractLsb' 0 15 ++ BitVec.ofBool b :=
  concat_eq_append sr b

/-- Settles O16: one bit sent from the top of `frame`. -/
theorem shiftbitCompletes : Obligations.ShiftbitCompletes := by
  intro b s hi hs hc
  obtain ⟨hdisp, hrecv, hwire, hrest⟩ :=
    drivePins_bits_spec hs hi hc (BitVec.ofBool b ++ 0#15) (k := 1) (by decide) (by decide)
  rw [wireBitsOf_bit, bit_shiftLeft] at hdisp
  rw [wireBitsOf_bit, shiftIn_bit] at hrecv
  rw [wireBitsOf_bit] at hwire
  exact ⟨_, exec_shiftbit_idle hs hi b, hdisp, hrecv, hwire, hrest⟩

/-! ### A byte -/

/-- The eight bits of a SHIFTBYTE are the upper half of `frame`, bit 7 first (R34, R66). -/
theorem wireBitsOf_byte (b : Byte) : wireBitsOf (b ++ 0#8) 8 = Byte.wireBits b := by
  simp [wireBitsOf, Byte.wireBits, word_getLsbD, List.range_succ]

/-- The byte has left `frame` after eight shifts (R66, R83). -/
theorem byte_shiftLeft (b : Byte) : (b ++ 0#8 : Word) <<< 8 = 0 := by
  apply BitVec.eq_of_getLsbD_eq
  intro i hi
  rw [BitVec.getLsbD_shiftLeft, word_getLsbD]
  simp [show i - 8 < 8 by omega]

theorem shiftIn_wireBits (sr : Word) (b : Byte) :
    shiftIn sr (Byte.wireBits b) = sr.extractLsb' 0 8 ++ b :=
  shift_in_byte sr b

/-- The events of a byte, counted from bit 7 (R34, R66). -/
theorem bitEvents_wireBits (b : Byte) :
    bitEvents (Byte.wireBits b) = (List.range 8).flatMap fun k =>
      [.pin .sdata (b.getLsbD (7 - k)), .pin .sclk true, .pin .sclk false] := by
  simp [bitEvents, Byte.wireBits, List.range_succ]

/-- Settles O17: eight bits sent from the upper half of `frame`. -/
theorem shiftbyteCompletes : Obligations.ShiftbyteCompletes := by
  intro b s hi hs hc
  obtain ⟨hdisp, hrecv, hwire, hrest⟩ :=
    drivePins_bits_spec hs hi hc (b ++ 0#8) (k := 8) (by decide) (by decide)
  rw [wireBitsOf_byte, byte_shiftLeft] at hdisp
  rw [wireBitsOf_byte, shiftIn_wireBits] at hrecv
  rw [wireBitsOf_byte, bitEvents_wireBits] at hwire
  exact ⟨_, exec_shiftbyte_idle hs hi b, hdisp, hrecv, hwire, hrest⟩

/-! ### A frame -/

/-- A frame sent from an idle display is committed whole and stands on the wire (R32, R35, R67). -/
theorem driving_frame_recv_wire {s : State} (hp : s.PinsAtRest) (w : Word) :
    (seqStep^[50] (s.driving .latchLo w)).recv = ⟨w, w⟩ ∧
    (seqStep^[50] (s.driving .latchLo w)).wire = (frameEvents w).reverse ++ s.wire := by
  have hrest : (s.driving .latchLo w).clearDone.PinsAtRest := hp
  rw [← seqStep_clearDone _ (by decide), (seqStep_frame rfl rfl hrest).1, sendFrame_spec hrest]
  exact ⟨rfl, rfl⟩

/-- Settles O18: the fifty edges from LATCH_LO are the frame at the event level. -/
theorem writeframeCompletes : Obligations.WriteframeCompletes := by
  intro seg sel s hi hs hp
  obtain ⟨hshown, hevents⟩ := driving_frame_recv_wire hp (seg ++ sel)
  obtain ⟨hdisp, hrest⟩ :=
    drivePins_of_driving hs (driving_frame_sending s _) (driving_frame_disp hp _) hshown hevents
  refine ⟨frameEvents_length _, _, exec_writeframe_idle hs hi seg sel, hdisp.trans ?_, hrest⟩
  rw [word_getLsbD, ← hi, ← hp.2]
  rfl

end Sys2Proof.Machine
end

section
/-! Steps without a request, the select bytes, and requests that a busy unit turns away
(spec/42_display_multiplexer.md R77, R82, spec/41_shift_register_driver.md R71,
spec/43_button_debouncer.md R91, R92, R94). -/

namespace Sys2Proof.Machine

/-- Settles O2: with no word at its head, `pending` selects the clock edge. -/
theorem stepWithoutRequestIsClockEdge : Obligations.StepWithoutRequestIsClockEdge := by
  intro s h
  simp only [step, h]
  rfl

/-! ### Select bytes -/

/-- The four rows DIGITSEL.p return one function of the position (R77). -/
theorem exec_digitselRow (p : Position) (s : State) :
    exec (digitselRow p) s = .next (s.returns (digitSel p)) := by
  have hp : p = 0 ∨ p = 1 ∨ p = 2 ∨ p = 3 := by decide +revert
  rcases hp with rfl | rfl | rfl | rfl <;> rfl

/-- The select byte has the bit of its position alone set (R47, R77). -/
theorem digitSel_getLsbD (p : Position) (j : Nat) : (digitSel p).getLsbD j = decide (j = p.toNat) := by
  have hp : p.toNat < 8 := by omega
  rw [digitSel, ← BitVec.twoPow_eq, BitVec.getLsbD_twoPow]
  simp [hp, eq_comm]

theorem digitSel_high (p : Position) : (digitSel p).extractLsb' 4 4 = 0 := by
  decide +revert

/-- Settles O12: the byte of a row is the select byte of its position, known bit by bit. -/
theorem digitselReturnsOneHotByte : Obligations.DigitselReturnsOneHotByte :=
  ⟨fun p s => ⟨digitSel p, exec_digitselRow p s, digitSel_getLsbD p, digitSel_high p⟩,
    fun s => ⟨exec_digitselRow 0 s, exec_digitselRow 1 s, exec_digitselRow 2 s, exec_digitselRow 3 s⟩⟩

/-! ### Requests turned away -/

/-- A request of a display that is busy or at a reset edge is an ordinary clock edge (R71, R82; log 6). -/
theorem ifDisplayFree_turnedAway {s : State} (h : s.disp.phase ≠ .idle ∨ s.inp.rst = true)
    (f : State → State) : ifDisplayFree s f = .next s.clockEdge.advanceInputs := by
  refine ifDisplayFree_not_free (Bool.eq_false_iff.2 fun hfree => ?_) f
  obtain ⟨hidle, hrst⟩ := displayFree_iff.1 hfree
  rcases h with hbusy | hreset
  · exact hbusy hidle
  · rw [hrst] at hreset
    cases hreset

/-- A reset edge is the last of a run (log 10). -/
theorem run_reset {s : State} (h : s.inp.rst = true) {n : Nat} (hn : 1 ≤ n) : s.run n = s.nextEdge := by
  obtain ⟨k, rfl⟩ : ∃ k, n = k + 1 := ⟨n - 1, by omega⟩
  rw [State.run, if_pos h]

/-- A DWELL outside the dwell, or at a reset edge, is an ordinary clock edge (log 21). -/
theorem execDwell_turnedAway {s : State} (h : s.disp.phase ≠ .idle ∨ s.inp.rst = true)
    (hd : s.disp.phase ≠ .dwell ∨ s.inp.rst = true) :
    execDwell s = .next s.clockEdge.advanceInputs := by
  unfold execDwell
  split
  · next hdwell =>
    have hreset := hd.resolve_left fun hne => hne hdwell
    rw [run_reset hreset (Nat.le_max_right _ _), State.nextEdge]
  · exact ifDisplayFree_turnedAway h _

/-- While it blocks the debouncer does not look at `sample_en` (R94). -/
theorem debouncerEdge_block {d : Debouncer} (h : d.phase = .block) (ps : Params) (en en' btnN : Bool) :
    d.edge ps en btnN = d.edge ps en' btnN := by
  simp only [Debouncer.edge, h]

/-- An edge without reset is an edge of each agent (R83, R94, R123). -/
theorem clockEdgeWith_running {s : State} (h : s.inp.rst = false) (r : Drive) :
    s.clockEdgeWith r =
      { (s.edgeSurroundings r.cmd.isNone).seqEdge (r.over s.drive).cmd with
        deb := s.deb.edge s.params (r.sampleEn || s.drive.sampleEn) s.inp.btnN } := by
  simp [State.clockEdgeWith, h, Drive.over]

/-- A sample asked of a debouncer that blocks, or at a reset edge, changes nothing of the edge (R91, R94). -/
theorem clockEdgeWith_sample_ignored {s : State} (h : s.deb.phase = .block ∨ s.inp.rst = true) :
    s.clockEdgeWith ⟨true, none⟩ = s.clockEdge := by
  rw [State.clockEdge]
  cases hrst : s.inp.rst with
  | true => rw [clockEdgeWith_reset hrst, clockEdgeWith_reset hrst]
  | false =>
    have hblock := h.resolve_right (Bool.eq_false_iff.1 hrst)
    rw [clockEdgeWith_running hrst, clockEdgeWith_running hrst,
      debouncerEdge_block hblock s.params _ (false || s.drive.sampleEn)]
    rfl

/-- Settles O19: the requests of the display unit find it not free, the sample is ignored, and a DBWAIT is a
clock edge in any case. -/
theorem busyUnitsTurnRequestsAway : Obligations.BusyUnitsTurnRequestsAway := by
  intro s
  constructor
  · intro h
    have hrender (c : Cmd) := ifDisplayFree_turnedAway h fun t => t.runRender c
    have hdrive (ph : Phase) (w : Word) (n : Nat) := ifDisplayFree_turnedAway h fun t => t.drivePins ph w n
    exact ⟨fun _ _ _ => hrender _, fun _ _ => hrender _, fun _ => hrender _, fun _ _ => hdrive _ _ _,
      fun _ => hdrive _ _ _, fun _ => hdrive _ _ _, execDwell_turnedAway h⟩
  · refine ⟨fun h => ?_, fun _ => rfl⟩
    rw [← clockEdgeWith_sample_ignored h]
    rfl

end Sys2Proof.Machine
end

section
/-! The arms of the sequencer at a clock edge of the whole machine, command acceptance, and the dwell
(spec/42_display_multiplexer.md R79, R82, R83, R87). -/

namespace Sys2Proof.Machine

/-! ### The arms (R82, R83) -/

section
variable {s : State}

/-- A clock edge of an idle display to which no command is presented. -/
theorem clockEdge_idle_none (hr : s.inp.rst = false) (hp : s.disp.phase = .idle)
    (hc : s.drive.cmd = none) :
    SameDisplay s.clockEdge { s with disp := { s.disp with done := false } } := by
  have h := clockEdge_sameDisplay hr
  rwa [hc, seqEdge_idle_none hp] at h

/-- A clock edge of an idle display that accepts a command. -/
theorem clockEdge_idle_some (hr : s.inp.rst = false) (hp : s.disp.phase = .idle) {c : Cmd}
    (hc : s.drive.cmd = some c) : SameDisplay s.clockEdge (s.accept c) := by
  have h := clockEdge_sameDisplay hr
  rwa [hc, seqEdge_idle_some hp] at h

end

/-- What another host presents is on the port exactly with `cmd_valid` (R10, R107). -/
theorem drive_cmd_off {s : State} (h : s.host = .off) :
    s.drive.cmd = if s.inp.cmdValid then some (s.inp.cmd.onPort s.params.valueWidth) else none := by
  simp only [State.drive, h]

/-- Settles O25: the two arms of an idle display; a busy one sees only itself. -/
theorem commandAcceptance : Obligations.CommandAcceptance := by
  refine ⟨fun s c hr hp hc => ?_, fun s hr hp hc => ?_, fun s valid c hr hp => ?_,
    fun s hoff hr hp => ⟨fun hv => ?_, fun hv => ?_⟩⟩
  · obtain ⟨-, hdisp, hrecv, hwire⟩ := clockEdge_idle_some hr hp hc
    exact ⟨hdisp, hrecv, hwire⟩
  · obtain ⟨-, hdisp, hrecv, hwire⟩ := clockEdge_idle_none hr hp hc
    exact ⟨hdisp, hrecv, hwire⟩
  · exact (busyDisplaySeesOnlyItself { s with inp := { s.inp with cmdValid := valid, cmd := c } } s hp hr hr
      rfl rfl rfl rfl).1
  · have hc := drive_cmd_off hoff
    rw [hv, if_pos rfl] at hc
    rw [(clockEdge_idle_some hr hp hc).disp]
    exact ⟨rfl, rfl, rfl, rfl, rfl, rfl⟩
  · have hc := drive_cmd_off hoff
    rw [hv, if_neg Bool.false_ne_true] at hc
    exact (clockEdge_idle_none hr hp hc).disp

/-! ### Between renders (R87) -/

/-- Another host has the ports and presents no command, now or in the inputs given. -/
structure State.NoCommand (s : State) : Prop where
  off : s.host = .off
  now : s.inp.cmdValid = false
  later : ∀ i ∈ s.script, i.cmdValid = false

theorem State.NoCommand.drive_cmd {s : State} (h : s.NoCommand) : s.drive.cmd = none := by
  rw [drive_cmd_off h.off, h.now, if_neg Bool.false_ne_true]

theorem State.NoCommand.advanceInputs {s : State} (h : s.NoCommand) : s.advanceInputs.NoCommand := by
  unfold State.advanceInputs
  split
  · exact h
  · next i rest hs =>
    have hl := h.later
    rw [hs, List.forall_mem_cons] at hl
    exact ⟨h.off, hl.1, hl.2⟩

theorem State.NoCommand.edges {s : State} (h : s.NoCommand) (n : Nat) : (s.edges n).NoCommand := by
  induction n with
  | zero => exact h
  | succ n ih =>
    obtain ⟨-, hinp, hscript, -, -, -, -, hhost, -⟩ := clockEdge_frame (s.edges n)
    refine State.NoCommand.advanceInputs ⟨?_, by rw [hinp]; exact ih.now, by rw [hscript]; exact ih.later⟩
    rw [hhost, State.hostAfter, ih.off]

/-- Settles O26: every edge of the run is one of an idle display to which no command is presented. -/
theorem idleDisplayStaysStill : Obligations.IdleDisplayStaysStill := by
  intro s n hs hoff hp hv hscript
  have hquiet : s.NoCommand := ⟨hoff, hv, hscript⟩
  induction n with
  | zero => exact ⟨rfl, rfl, rfl⟩
  | succ n ih =>
    obtain ⟨hdisp, hrecv, hwire⟩ := ih
    have hpn : (s.edges n).disp.phase = .idle := by rw [hdisp]; exact hp
    have hedge := sameDisplay_trans (advanceInputs_sameDisplay _)
      (clockEdge_idle_none (NoReset_edges hs n).1 hpn (hquiet.edges n).drive_cmd)
    rw [edges_succ]
    exact ⟨hedge.disp.trans (by rw [hdisp]; rfl), hedge.recv.trans hrecv, hedge.wire.trans hwire⟩

/-! ### The edges of a dwell (R79, R83) -/

/-- A display in the phase DWELL is one made busy for one edge less than its count. -/
theorem displayBusy_self {s : State} (hp : s.disp.phase = .dwell) (hc : 1 ≤ s.disp.dwellCnt) :
    s.displayBusy (s.disp.dwellCnt - 1) = s := by
  rw [State.displayBusy, Nat.sub_add_cancel hc, ← hp]

/-- `s` when its count is waited out, before the sequencer goes on (R79, R83). -/
def State.dwelt (s : State) : State :=
  { s with
    disp := { s.disp with dwellCnt := 1, done := false }
    wire := addWait s.disp.dwellCnt s.wire }

/-- At the end of a dwell no pin moves (R83). -/
theorem leaveDwell_recv_wire (s : State) : s.leaveDwell.recv = s.recv ∧ s.leaveDwell.wire = s.wire := by
  unfold State.leaveDwell
  split <;> exact ⟨rfl, rfl⟩

/-- After position 3 a dwell ends the render (R83). -/
theorem dwelt_leaveDwell_last {s : State} (h : s.disp.pos = 3) :
    s.dwelt.leaveDwell.disp = { s.disp with phase := .idle, done := true, dwellCnt := 1 } := by
  rw [State.leaveDwell, if_pos (show s.dwelt.disp.pos = 3 from h), State.dwelt]

/-- After another position the next frame is loaded (R83). -/
theorem dwelt_leaveDwell_next {s : State} (h : s.disp.pos ≠ 3) :
    s.dwelt.leaveDwell.disp =
      { s.disp with
        phase := .latchLo, pos := s.disp.pos + 1, done := false, dwellCnt := 1
        frame := frameWord s.params s.disp.latched (s.disp.pos + 1) } := by
  rw [State.leaveDwell, if_neg (show ¬ s.dwelt.disp.pos = 3 from h)]
  rfl

section
variable {s : State} (hp : s.disp.phase = .dwell) (hc : 1 ≤ s.disp.dwellCnt)
include hp hc

/-- Until its count is over a dwell counts down and waits (R83). -/
theorem seqStep_inDwell {j : Nat} (hj : j < s.disp.dwellCnt) (hj' : 1 ≤ j) :
    seqStep^[j] s =
      { s with
        disp := { s.disp with dwellCnt := s.disp.dwellCnt - j, done := false }
        wire := addWait j s.wire } := by
  have h := displayBusy_iterate s (s.disp.dwellCnt - 1) j hj' (by omega)
  rwa [displayBusy_self hp hc, Nat.sub_add_cancel hc, ← hp] at h

/-- The whole of a dwell (R79, R83): its count is waited out, and the last edge goes on. -/
theorem seqStep_dwellWhole :
    seqStep^[s.disp.dwellCnt] s = s.dwelt.leaveDwell ∧
    ∀ j, j < s.disp.dwellCnt → (seqStep^[j] s).disp.phase = .dwell := by
  constructor
  · have hheld : s.clearDone.holdDwell = s.dwelt := by
      simp only [State.holdDwell, State.holdWire, State.clearDone, State.dwelt, Nat.min_eq_right hc,
        Nat.max_eq_left hc]
    rw [← seqStep_clearDone s hc, ← hheld]
    exact (seqStep_dwell _ (s := s.clearDone) hp rfl rfl hc).1
  · intro j hj
    rcases Nat.eq_zero_or_pos j with rfl | hj'
    · exact hp
    · rw [seqStep_inDwell hp hc hj hj']
      exact hp

variable (hs : s.NoReset)
include hs

/-- Clock edges of the dwell are edges of the sequencer alone (R82, R123.4). -/
theorem edges_dwell {j : Nat} (hj : j ≤ s.disp.dwellCnt) : SameDisplay (s.edges j) (seqStep^[j] s) := by
  refine edges_busy hs j fun i hi => ?_
  rw [(seqStep_dwellWhole hp hc).2 i (by omega)]
  exact Phase.noConfusion

/-- At each edge of a dwell but the last the registers stay, but for the count and `done` (R83). -/
theorem edges_inDwell {j : Nat} (hj : j < s.disp.dwellCnt) :
    (s.edges j).disp =
      { s.disp with
        dwellCnt := s.disp.dwellCnt - j, done := if j = 0 then s.disp.done else false } ∧
    (s.edges j).recv = s.recv := by
  rcases Nat.eq_zero_or_pos j with rfl | hj'
  · exact ⟨rfl, rfl⟩
  · have h := edges_dwell hp hc hs (Nat.le_of_lt hj)
    rw [seqStep_inDwell hp hc hj hj'] at h
    rw [if_neg (Nat.ne_of_gt hj')]
    exact ⟨h.disp, h.recv⟩

/-- After its count a dwell has been one wait, and the sequencer has gone on (R79, R83). -/
theorem edges_dwellWhole : SameDisplay (s.edges s.disp.dwellCnt) s.dwelt.leaveDwell := by
  rw [← (seqStep_dwellWhole hp hc).1]
  exact edges_dwell hp hc hs (Nat.le_refl _)

/-- A requested DWELL in the phase DWELL is the edges of the count that remains (log 21). -/
theorem exec_dwell_inDwell : exec .dwell s = .next (s.edges s.disp.dwellCnt) := by
  show execDwell s = _
  rw [execDwell, if_pos hp, Nat.max_eq_left hc, run_noReset _ hs]

end

/-- Settles O24: the edges of the dwell one by one, and the request that is all of them. -/
theorem dwellLastsItsCount : Obligations.DwellLastsItsCount := by
  intro s t hs hp hc ht
  rw [exec_dwell_inDwell hp hc hs] at ht
  refine ⟨fun j hj => ?_, by cases ht; rfl⟩
  obtain ⟨hdisp, hrecv⟩ := edges_inDwell hp hc hs hj
  rw [hdisp]
  exact ⟨hp, rfl, rfl, rfl, hrecv⟩

/-- Settles O23: in the phase DWELL the rest of the dwell, else a dwell of its own. -/
theorem dwellCompletes : Obligations.DwellCompletes := by
  intro s hs
  constructor
  · intro hp hc
    obtain ⟨-, hdisp, hrecv, hwire⟩ := edges_dwellWhole hp hc hs
    obtain ⟨hrecv', hwire'⟩ := leaveDwell_recv_wire s.dwelt
    exact ⟨exec_dwell_inDwell hp hc hs, hrecv.trans hrecv', hwire.trans hwire',
      fun hpos => hdisp.trans (dwelt_leaveDwell_last hpos),
      fun hpos => hdisp.trans (dwelt_leaveDwell_next hpos)⟩
  · intro hp hN
    obtain ⟨hdisp, hrecv, hwire, hrest⟩ := dwellAlone_spec hs hN
    refine ⟨s.dwellAlone, ?_, ?_, hrecv, hwire, hrest⟩
    · show execDwell s = _
      rw [execDwell, if_neg (by rw [hp]; exact Phase.noConfusion), ifDisplayFree_idle hs hp]
    · rw [hdisp, ← hp]

/-- Settles O27: the dwell edge by edge, and the arms of R83 one by one. -/
theorem sequencerArms : Obligations.SequencerArms := by
  constructor
  · intro s hs hp hc
    refine ⟨fun j hj => ?_, ?_⟩
    · rw [(edges_inDwell hp hc hs hj).1]
      exact ⟨hp, rfl⟩
    · rw [(edges_dwellWhole hp hc hs).disp]
      by_cases hpos : s.disp.pos = 3
      · rw [dwelt_leaveDwell_last hpos]
        exact Phase.noConfusion
      · rw [dwelt_leaveDwell_next hpos]
        exact Phase.noConfusion
  · intro s hr
    have hedge := (clockEdge_sameDisplay hr).disp
    dsimp only
    refine ⟨fun hp hc => (clockEdge_idle_none hr hp hc).disp,
      fun c hp hc => (clockEdge_idle_some hr hp hc).disp, fun hp => ?_, fun hp => ?_, fun hp => ?_,
      fun hp hb => ?_, fun hp hb => ?_, fun hp => ?_, fun hp hc => ?_, fun hp hc hpos => ?_,
      fun hp hc hpos => ?_⟩ <;> rw [hedge]
    · rw [seqEdge_latchLo hp]
    · rw [seqEdge_bitData hp]
    · rw [seqEdge_bitClkHi hp]
    · rw [seqEdge_bitClkLo_last hp hb]
    · rw [seqEdge_bitClkLo_next hp hb]
    · rw [seqEdge_latchHi hp]
    · rw [seqEdge_dwell_wait hp hc]
    · rw [seqEdge_dwell_end hp hc hpos]
    · rw [seqEdge_dwell_next hp hc hpos]
      rfl

end Sys2Proof.Machine
end

section
/-! RENDER on an idle display (spec/42_display_multiplexer.md R75, R80, R82, R84): the operation, the clock
edges of a render and the event level. -/

namespace Sys2Proof.Machine

/-! ### The operation is its clock edges -/

@[simp] theorem edges_pending (s : State) (n : Nat) : (s.edges n).pending = s.pending := by
  induction n with
  | zero => rfl
  | succ n ih =>
    obtain ⟨-, -, -, hpending, -⟩ := clockEdge_frame (s.edges n)
    rw [edges_succ, State.advanceInputs_pending, hpending, ih]

@[simp] theorem edges_result (s : State) (n : Nat) : (s.edges n).result = s.result := by
  induction n with
  | zero => rfl
  | succ n ih =>
    obtain ⟨-, -, -, -, hresult, -⟩ := clockEdge_frame (s.edges n)
    rw [edges_succ, State.advanceInputs_result, hresult, ih]

/-- `s` when a requested RENDER of `c` that no reset cuts short is over: the accepting edge and the edges of the
render (R82, R84, R156). -/
def State.afterRender (s : State) (c : Cmd) : State :=
  (s.clockEdgeWith ⟨false, some c⟩).advanceInputs.edges (4 * (50 + s.params.dwellCycles))

section
variable {s : State}

theorem ifDisplayFree_runRender (hs : s.NoReset) (hi : s.disp.phase = .idle) (c : Cmd) :
    ifDisplayFree s (fun t => t.runRender c) = .next (s.afterRender c) := by
  rw [ifDisplayFree_idle hs hi, runRender_spec hs]
  rfl

theorem exec_render_idle (hs : s.NoReset) (hi : s.disp.phase = .idle) (e : Bool) (idx : Position) (v : Nat) :
    exec (.render e idx v) s = .next (s.afterRender ⟨e, idx, v⟩) :=
  ifDisplayFree_runRender hs hi _

variable (hi : s.disp.phase = .idle) (hs : s.NoReset) (hp : s.PinsAtRest) (hN : 1 ≤ s.params.dwellCycles)
include hi hs hp hN

/-- A requested RENDER leaves in the display unit what RENDER does at the event level (R75). -/
theorem afterRender_sameDisplay (c : Cmd) : SameDisplay (s.afterRender c) (s.render c) :=
  render_edges hs hi hp hN rfl

/-- So do the edges of a render that a host presents (R75, R82). -/
theorem edges_sameDisplay_render {c : Cmd} (hc : s.drive.cmd = some c) :
    SameDisplay (s.edges (1 + 4 * (50 + s.params.dwellCycles))) (s.render c) := by
  rw [Nat.add_comm, edges_succ_left]
  exact render_edges (r := ⟨false, none⟩) hs hi hp hN hc

end

/-- With another host than the main loop a request that drives what the host presents changes nothing of the
edge (R107; log 5). -/
theorem clockEdgeWith_off {s : State} (hr : s.inp.rst = false) (hoff : s.host = .off) {c : Cmd}
    (hc : s.drive.cmd = some c) : s.clockEdgeWith ⟨false, some c⟩ = s.clockEdge := by
  have hbeside : s.edgeSurroundings false = s.edgeSurroundings true := by
    simp only [State.edgeSurroundings, State.hostAfter, hoff]
  rw [State.clockEdge, clockEdgeWith_running hr, clockEdgeWith_running hr]
  simp only [Drive.over, hc, Option.isNone_some, Option.isNone_none, hbeside]

/-- Settles O35: both runs of edges are the RENDER of the event level, and with another host they are the same
edges. -/
theorem sequencerImplementsRender : Obligations.SequencerImplementsRender := by
  intro s t c hs hi hp hN ht
  rw [exec_render_idle hs hi] at ht
  cases ht
  have hop := afterRender_sameDisplay hi hs hp hN c
  refine ⟨fun hc => ?_, hop.disp, hop.recv, hop.wire⟩
  obtain ⟨-, hdisp, hrecv, hwire⟩ :=
    sameDisplay_trans (edges_sameDisplay_render hi hs hp hN hc) (sameDisplay_symm hop)
  refine ⟨hdisp, hrecv, hwire, fun hoff => ?_⟩
  rw [Nat.add_comm, edges_succ_left, State.afterRender, clockEdgeWith_off hs.1 hoff hc]

/-- Settles O20: the three operations are the same edges, which are the RENDER of the event level. -/
theorem renderCompletes : Obligations.RenderCompletes := by
  intro s hi hs hp hN
  refine ⟨fun _ _ _ => ifDisplayFree_runRender hs hi _, fun _ _ => ifDisplayFree_runRender hs hi _,
    fun _ => ifDisplayFree_runRender hs hi _, fun c => ?_⟩
  obtain ⟨-, hdisp, hrecv, hwire⟩ := afterRender_sameDisplay hi hs hp hN c
  rw [render_spec hp hN] at hdisp hrecv hwire
  obtain ⟨hparams, -, -, hpending, hresult, -⟩ := clockEdgeWith_frame s ⟨false, some c⟩
  exact ⟨hdisp, hrecv, hwire, by simp, by simpa using hpending, by simpa using hresult⟩

/-! ### The events of a render, counted -/

/-- A frame is pin writes and nothing else, so a filter that keeps those keeps it (R67). -/
theorem filter_frameEvents {keeps : WireEvent → Bool} (h : ∀ line level, keeps (.pin line level) = true)
    (w : Word) : (frameEvents w).filter keeps = frameEvents w := by
  refine List.filter_eq_self.2 fun x hx => ?_
  have hpin := List.filter_eq_self.1 (frameEvents_pins w) x hx
  cases x with
  | pin line level => exact h line level
  | wait n => cases hpin
  | reset => cases hpin

theorem renderEvents_length (ps : Params) (c : Cmd) : (renderEvents ps c).length = 204 := by
  simp [renderEvents]

/-- Of the events of a render the four waits alone write no pin (R75, R80). -/
theorem filter_renderEvents_length {keeps : WireEvent → Bool}
    (hpin : ∀ line level, keeps (.pin line level) = true) (hwait : ∀ n, keeps (.wait n) = false)
    (ps : Params) (c : Cmd) : ((renderEvents ps c).filter keeps).length = 200 := by
  simp [renderEvents, filter_frameEvents hpin, hwait]

theorem renderEvents_count_wait (ps : Params) (c : Cmd) :
    (renderEvents ps c).count (.wait ps.dwellCycles) = 4 := by
  simp [renderEvents]

theorem renderEvents_count_latch (ps : Params) (c : Cmd) (b : Bool) :
    (renderEvents ps c).count (.pin .latch b) = 4 := by
  simp [renderEvents]

theorem renderEvents_count_sclk (ps : Params) (c : Cmd) (b : Bool) :
    (renderEvents ps c).count (.pin .sclk b) = 64 := by
  simp [renderEvents]

/-- The four words that a render commits have the four select bytes (R77, R80). -/
theorem commits_renderEvents_selects (sr : Word) (d : Bool) (ps : Params) (c : Cmd) :
    ((commits sr d (renderEvents ps c)).map fun w => w.extractLsb' 0 8) = [0x01, 0x02, 0x04, 0x08] := by
  simp only [commits_renderEvents, List.map_cons, List.map_nil, frameWord_low]
  rfl

/-- Settles O21: the events are those of four frames with a wait each. -/
theorem renderEventCounts : Obligations.RenderEventCounts := by
  intro s e idx v hi hs hp hN
  have hwire := (afterRender_sameDisplay hi hs hp hN ⟨e, idx, v⟩).wire
  rw [render_spec hp hN] at hwire
  exact ⟨s.afterRender ⟨e, idx, v⟩, renderEvents s.params ⟨e, idx, v⟩, exec_render_idle hs hi e idx v,
    hwire,
    renderEvents_length _ _, filter_renderEvents_length (fun _ _ => rfl) (fun _ => rfl) _ _,
    renderEvents_count_wait _ _, renderEvents_count_latch _ _ _, renderEvents_count_latch _ _ _,
    renderEvents_count_sclk _ _ _, renderEvents_count_sclk _ _ _, commits_renderEvents _ _ _ _,
    commits_renderEvents_selects _ _ _ _⟩

end Sys2Proof.Machine
end

section
/-! The edges of one render, edge by edge (spec/42_display_multiplexer.md R84, R85,
spec/41_shift_register_driver.md R70). -/

namespace Sys2Proof.Machine

/-! ### The pins while a bit is sent (R65, R70) -/

/-- In BIT_CLK_LO the clock falls, whichever bit it was (R83). -/
theorem seqEdge_bitClkLo_sclk {s : State} (hp : s.disp.phase = .bitClkLo) (cmd : Option Cmd) :
    (s.seqEdge cmd).disp.sclk = false := by
  by_cases hb : s.disp.bitcnt = 15
  · rw [seqEdge_bitClkLo_last hp hb]
  · rw [seqEdge_bitClkLo_next hp hb]

/-- The three edges of a bit: `sdata` takes it, the clock rises, the clock falls. -/
theorem seqStep_bit_pins {s : State} (hp : s.disp.phase = .bitData) :
    ((seqStep s).disp.sdata = s.disp.frame.getLsbD 15 ∧ (seqStep s).disp.sclk = s.disp.sclk) ∧
    (seqStep (seqStep s)).disp.sclk = true ∧ (seqStep (seqStep (seqStep s))).disp.sclk = false := by
  have hdata : seqStep s = _ := seqEdge_bitData hp none
  have hrise : seqStep (seqStep s) = _ := seqEdge_bitClkHi (s := seqStep s) (by rw [hdata]) none
  have hfall := seqEdge_bitClkLo_sclk (s := seqStep (seqStep s)) (by rw [hrise]) none
  exact ⟨by rw [hdata]; exact ⟨rfl, rfl⟩, by rw [hrise], hfall⟩

/-- Before bit `k` of a frame the sequencer is in BIT_DATA with the clock low, and wire bit `k` is at the top of
`frame` (R35). -/
theorem seqStep_beforeBit {s : State} (hp : s.disp.phase = .bitData) (hd : s.disp.done = false)
    (hb : s.disp.bitcnt = 0) (hc : s.disp.sclk = false) {k : Nat} (hk : k < 16) :
    (seqStep^[3 * k] s).disp.phase = .bitData ∧ (seqStep^[3 * k] s).disp.sclk = false ∧
    (seqStep^[3 * k] s).disp.frame.getLsbD 15 = s.disp.frame.getLsbD (15 - k) := by
  obtain ⟨hbits, -⟩ := seqStep_bits hp hd k (by rw [hb]; show 0 + k ≤ 15; omega)
  rw [hbits, shiftBits_spec _ hc]
  exact ⟨rfl, hc, getLsbD_shiftLeft_top _ hk⟩

/-! ### One position (R84) -/

/-- The render of `c` is about to send the frame of position `p`. -/
structure State.AtFrame (s : State) (ps : Params) (c : Cmd) (p : Position) : Prop where
  params : s.params = ps
  phase : s.disp.phase = .latchLo
  done : s.disp.done = false
  pins : s.PinsAtRest
  pos : s.disp.pos = p
  latched : s.disp.latched = c
  frame : s.disp.frame = frameWord ps c p

section
variable {s : State} {ps : Params} {c : Cmd} {p : Position} (h : s.AtFrame ps c p)
include h

/-- The edge of LATCH_LO lowers `latch` (R83). -/
theorem seqStep_atFrame : seqStep s =
    { s with
      disp := { s.disp with latch := false, bitcnt := 0, phase := .bitData, done := false }
      wire := .pin .latch false :: s.wire } :=
  seqEdge_latchLo h.phase none

/-- The three edges of wire bit `k` (R70, R84). -/
theorem atFrame_bit {k : Nat} (hk : k < 16) :
    (seqStep^[2 + 3 * k] s).disp.sdata = (frameWord ps c p).getLsbD (15 - k) ∧
    (seqStep^[2 + 3 * k] s).disp.sclk = false ∧ (seqStep^[3 + 3 * k] s).disp.sclk = true ∧
    (seqStep^[4 + 3 * k] s).disp.sclk = false := by
  have hlow := seqStep_atFrame h
  obtain ⟨hp, hc, hf⟩ := seqStep_beforeBit (s := seqStep s) (by rw [hlow]) (by rw [hlow]) (by rw [hlow])
    (by rw [hlow]; exact h.pins.2) hk
  obtain ⟨⟨hdata, hstay⟩, hrise, hfall⟩ := seqStep_bit_pins hp
  have hframe : (seqStep s).disp.frame = frameWord ps c p := by rw [hlow]; exact h.frame
  simp only [← Function.iterate_succ_apply' seqStep, ← Function.iterate_succ_apply seqStep]
    at hdata hstay hrise hfall hc hf
  rw [show 2 + 3 * k = 3 * k + 1 + 1 by omega, show 3 + 3 * k = 3 * k + 1 + 1 + 1 by omega,
    show 4 + 3 * k = 3 * k + 1 + 1 + 1 + 1 by omega]
  exact ⟨by rw [hdata, hf, hframe], hstay.trans hc, hrise, hfall⟩

/-- `latch` is low from the first edge to the one that commits the frame (R70, R84). -/
theorem atFrame_latch :
    (s.disp.latch = true ∧ (seqStep^[1] s).disp.latch = false) ∧
    (seqStep^[49] s).disp.latch = false ∧ (seqStep^[50] s).disp.latch = true ∧
    (seqStep^[50] s).recv.out = frameWord ps c p := by
  have hlow := seqStep_atFrame h
  obtain ⟨hword, -⟩ := seqStep_word (s := seqStep s) (by rw [hlow]) (by rw [hlow]) (by rw [hlow])
  refine ⟨⟨h.pins.1, ?_⟩, ?_, ?_⟩
  · rw [Function.iterate_one, hlow]
  · rw [Function.iterate_succ_apply, hword, shiftBits_spec _ (by rw [hlow]; exact h.pins.2), hlow]
  · rw [(seqStep_frame h.phase h.done h.pins).1, sendFrame_spec h.pins]
    exact ⟨rfl, h.frame⟩

/-- The dwell ends with the position (R83, R84). -/
theorem atFrame_dwell (hN : 1 ≤ ps.dwellCycles) :
    (seqStep^[49 + ps.dwellCycles] s).disp.phase = .dwell ∧
    (seqStep^[50 + ps.dwellCycles] s).disp.phase ≠ .dwell := by
  obtain rfl := h.params
  have hsent := sendFrame_spec h.pins
  have hcount : s.sendFrame.disp.dwellCnt = s.params.dwellCycles := by rw [hsent]
  constructor
  · rw [show 49 + s.params.dwellCycles = s.params.dwellCycles - 1 + 50 by omega,
      Function.iterate_add_apply, (seqStep_frame h.phase h.done h.pins).1]
    exact (seqStep_dwellWhole (by rw [hsent]) (by omega)).2 _ (by omega)
  · rw [(seqStep_position h.phase h.done h.pins hN).1, renderPosition_spec h.pins hN]
    show (if s.disp.pos = 3 then Phase.idle else Phase.latchLo) ≠ .dwell
    split <;> exact Phase.noConfusion

/-- After its dwell the next position's frame is about to be sent (R75, R83). -/
theorem atFrame_next (hN : 1 ≤ ps.dwellCycles) (hne : p ≠ 3) :
    (seqStep^[50 + ps.dwellCycles] s).AtFrame ps c (p + 1) := by
  obtain ⟨rfl, hphase, hdone, hpins, rfl, rfl, -⟩ := h
  rw [(seqStep_position hphase hdone hpins hN).1, renderPosition_spec hpins hN]
  simp only [if_neg hne]
  exact ⟨rfl, rfl, decide_eq_false hne, ⟨rfl, rfl⟩, rfl, rfl, rfl⟩

end

/-! ### The four positions -/

/-- Position `k` of a render begins `k * (50 + DWELL_CYCLES)` edges after the accepting one (R80, R84). -/
theorem seqStep_atFrame_nth {s : State} (hp : s.PinsAtRest) (hN : 1 ≤ s.params.dwellCycles) (c : Cmd) :
    ∀ k, k < 4 → (seqStep^[k * (50 + s.params.dwellCycles)] (s.accept c)).AtFrame s.params c
      (BitVec.ofNat 2 k) := by
  intro k
  induction k with
  | zero =>
    intro _
    rw [Nat.zero_mul]
    exact ⟨rfl, rfl, rfl, hp, rfl, rfl, rfl⟩
  | succ k ih =>
    intro hk
    have hne : BitVec.ofNat 2 k ≠ 3 := by
      have : k = 0 ∨ k = 1 ∨ k = 2 := by omega
      rcases this with rfl | rfl | rfl <;> decide
    rw [Nat.succ_mul, Nat.add_comm, Function.iterate_add_apply, BitVec.ofNat_add]
    exact atFrame_next (ih (by omega)) hN hne

/-- An edge of the sequencer that raises `done` goes to IDLE (R83, R85). -/
theorem seqStep_done_of_ne_idle {s : State} (h : (seqStep s).disp.phase ≠ .idle) :
    (seqStep s).disp.done = false := by
  refine Bool.eq_false_iff.2 fun hd => h ?_
  obtain ⟨hp, hc, hpos⟩ := (seqEdge_done_iff s none).1 hd
  rw [seqStep, seqEdge_dwell_end hp hc hpos]

/-- Until its last edge a render is busy, without `done` (R84, R85). -/
theorem seqStep_render_done {s : State} (hp : s.PinsAtRest) (hN : 1 ≤ s.params.dwellCycles) (c : Cmd)
    {n : Nat} (hn : n < renderCycles s.params) :
    (seqStep^[n] (s.accept c)).disp.phase ≠ .idle ∧ (seqStep^[n] (s.accept c)).disp.done = false := by
  have hbusy := (seqStep_render hp hN c).2 n hn
  refine ⟨hbusy, ?_⟩
  cases n with
  | zero => rfl
  | succ n =>
    rw [Function.iterate_succ_apply'] at hbusy ⊢
    exact seqStep_done_of_ne_idle hbusy

/-! ### Clock edges -/

section
variable {s : State} {c : Cmd} (hs : s.NoReset) (hi : s.disp.phase = .idle) (hp : s.PinsAtRest)
  (hN : 1 ≤ s.params.dwellCycles) (hc : s.drive.cmd = some c)
include hs hi hp hN hc

/-- After the edge that accepts a command, the edges of the render are edges of the sequencer alone (R82,
R123.4). -/
theorem edges_render {n : Nat} (hn : n ≤ renderCycles s.params) :
    SameDisplay (s.edges (n + 1)) (seqStep^[n] (s.accept c)) := by
  rw [edges_succ_next]
  exact edges_sameDisplay (NoReset_edges hs 1) (clockEdgeWith_accepts (r := ⟨false, none⟩) hs.1 hi hc)
    fun j hj => (seqStep_render hp hN c).2 j (Nat.lt_of_lt_of_le hj hn)

/-- Edge `n` of a render, counted from the start of a position (R84). -/
theorem edges_position (p : Position) {n j : Nat} (hj : j ≤ 50 + s.params.dwellCycles)
    (hn : n = p.toNat * (50 + s.params.dwellCycles) + j) :
    SameDisplay (s.edges (n + 1))
      (seqStep^[j] (seqStep^[p.toNat * (50 + s.params.dwellCycles)] (s.accept c))) := by
  have hlast : p.toNat * (50 + s.params.dwellCycles) ≤ 3 * (50 + s.params.dwellCycles) :=
    Nat.mul_le_mul_right _ (by omega)
  rw [← Function.iterate_add_apply, Nat.add_comm j, ← hn]
  refine edges_render hs hi hp hN hc ?_
  rw [renderCycles]
  omega

end

/-- Settles O34: each position from its start, and the end of the render at the event level. -/
theorem renderCycleTimes : Obligations.RenderCycleTimes := by
  intro s c hs hi hp hN hc
  dsimp only
  refine ⟨fun p => ?_, fun n hn => ?_, ?_⟩
  · have hstart := seqStep_atFrame_nth hp hN c p.toNat p.isLt
    rw [BitVec.ofNat_toNat, BitVec.setWidth_eq] at hstart
    have hedge {n j : Nat} := edges_position hs hi hp hN hc p (n := n) (j := j)
    obtain ⟨⟨hhigh, hlow⟩, hstill, hrise, hshown⟩ := atFrame_latch hstart
    obtain ⟨hdwell, hover⟩ := atFrame_dwell hstart hN
    refine ⟨⟨?_, ?_⟩, fun k hk => ?_, ⟨?_, ?_, ?_⟩, ?_, ?_⟩
    · rw [(hedge (j := 0) (by omega) (by omega)).disp]; exact hhigh
    · rw [(hedge (j := 1) (by omega) (by omega)).disp]; exact hlow
    · rw [(hedge (j := 2 + 3 * k) (by omega) (by omega)).disp,
        (hedge (j := 3 + 3 * k) (by omega) (by omega)).disp,
        (hedge (j := 4 + 3 * k) (by omega) (by omega)).disp]
      exact atFrame_bit hstart hk
    · rw [(hedge (j := 49) (by omega) (by omega)).disp]; exact hstill
    · rw [(hedge (j := 50) (by omega) (by omega)).disp]; exact hrise
    · rw [(hedge (j := 50) (by omega) (by omega)).recv]; exact hshown
    · rw [(hedge (j := 49 + s.params.dwellCycles) (by omega) (by omega)).disp]; exact hdwell
    · rw [(hedge (j := 50 + s.params.dwellCycles) (by omega) (by omega)).disp]; exact hover
  · rw [(edges_render hs hi hp hN hc (Nat.le_of_lt hn)).disp]
    exact seqStep_render_done hp hN c hn
  · have hend := edges_render hs hi hp hN hc (Nat.le_refl _)
    rw [(seqStep_render hp hN c).1, render_spec hp hN, renderCycles] at hend
    rw [hend.disp]
    exact ⟨rfl, rfl⟩

end Sys2Proof.Machine
end

section
/-! RENDER of a value and of the value modulo 10000 (spec/42_display_multiplexer.md R81): two machines that differ
in `val_q` alone, with the same digits, stay so at every clock edge. -/

namespace Sys2Proof.Machine

/-- No digit is taken of what lies above 9999 (R49, R81). -/
theorem digitAt_mod (v : Nat) (p : Position) : digitAt (v % 10000) p = digitAt v p := by
  apply Fin.ext
  rw [digitAt_val, digitAt_val]
  split
  · omega
  · split
    · omega
    · split <;> omega

/-- Two values that show the same digits. -/
def SameDigits (v w : Nat) : Prop := ∀ p, digitAt v p = digitAt w p

theorem frameWord_congr {v w : Nat} (h : SameDigits v w) (ps : Params) (e : Bool) (idx p : Position) :
    frameWord ps ⟨e, idx, v⟩ p = frameWord ps ⟨e, idx, w⟩ p := by
  simp only [frameWord, h p]

/-- The same machine with another value latched. -/
def State.withValue (s : State) (v : Nat) : State := { s with disp := { s.disp with valQ := v } }

/-- `t` is `s` but for the value latched, which shows the same digits. -/
def State.SameButValue (s t : State) : Prop := ∃ v, SameDigits v s.disp.valQ ∧ t = s.withValue v

theorem State.SameButValue.refl (s : State) : s.SameButValue s := ⟨s.disp.valQ, fun _ => rfl, rfl⟩

/-- A command and one that shows the same digits are accepted alike (R82). -/
theorem accept_sameButValue {v w : Nat} (h : SameDigits w v) (s : State) (e : Bool) (idx : Position) :
    (s.accept ⟨e, idx, v⟩).SameButValue (s.accept ⟨e, idx, w⟩) := by
  refine ⟨w, h, ?_⟩
  simp only [State.accept, frameWord_congr h]
  rfl

/-- The sequencer reads of the value its digits only (R76, R83). -/
theorem seqEdge_sameButValue {s t : State} (h : s.SameButValue t) (cmd : Option Cmd) :
    (s.seqEdge cmd).SameButValue (t.seqEdge cmd) := by
  obtain ⟨v, hv, rfl⟩ := h
  cases hp : s.disp.phase
  case idle =>
    cases cmd with
    | none =>
      rw [seqEdge_idle_none hp, seqEdge_idle_none (s := s.withValue v) hp]
      exact ⟨v, hv, rfl⟩
    | some c =>
      rw [seqEdge_idle_some hp, seqEdge_idle_some (s := s.withValue v) hp]
      exact .refl _
  case latchLo =>
    rw [seqEdge_latchLo hp, seqEdge_latchLo (s := s.withValue v) hp]
    exact ⟨v, hv, rfl⟩
  case bitData =>
    rw [seqEdge_bitData hp, seqEdge_bitData (s := s.withValue v) hp]
    exact ⟨v, hv, rfl⟩
  case bitClkHi =>
    rw [seqEdge_bitClkHi hp, seqEdge_bitClkHi (s := s.withValue v) hp]
    exact ⟨v, hv, rfl⟩
  case bitClkLo =>
    by_cases hb : s.disp.bitcnt = 15
    · rw [seqEdge_bitClkLo_last hp hb, seqEdge_bitClkLo_last (s := s.withValue v) hp hb]
      exact ⟨v, hv, rfl⟩
    · rw [seqEdge_bitClkLo_next hp hb, seqEdge_bitClkLo_next (s := s.withValue v) hp hb]
      exact ⟨v, hv, rfl⟩
  case latchHi =>
    rw [seqEdge_latchHi hp, seqEdge_latchHi (s := s.withValue v) hp]
    exact ⟨v, hv, rfl⟩
  case dwell =>
    by_cases hcnt : 1 < s.disp.dwellCnt
    · rw [seqEdge_dwell_wait hp hcnt, seqEdge_dwell_wait (s := s.withValue v) hp hcnt]
      exact ⟨v, hv, rfl⟩
    · have hcnt := Nat.not_lt.1 hcnt
      by_cases hpos : s.disp.pos = 3
      · rw [seqEdge_dwell_end hp hcnt hpos, seqEdge_dwell_end (s := s.withValue v) hp hcnt hpos]
        exact ⟨v, hv, rfl⟩
      · rw [seqEdge_dwell_next hp hcnt hpos, seqEdge_dwell_next (s := s.withValue v) hp hcnt hpos]
        refine ⟨v, hv, ?_⟩
        rw [show frameWord (s.withValue v).params (s.withValue v).disp.latched ((s.withValue v).disp.pos + 1) =
          frameWord s.params s.disp.latched (s.disp.pos + 1) from frameWord_congr hv _ _ _ _]
        rfl

theorem setDeb_sameButValue {s t : State} (h : s.SameButValue t) (d : Debouncer) :
    { s with deb := d }.SameButValue { t with deb := d } := by
  obtain ⟨v, hv, rfl⟩ := h
  exact ⟨v, hv, rfl⟩

theorem advanceInputs_sameButValue {s t : State} (h : s.SameButValue t) :
    s.advanceInputs.SameButValue t.advanceInputs := by
  obtain ⟨v, hv, rfl⟩ := h
  refine ⟨v, by rwa [State.advanceInputs_disp], ?_⟩
  unfold State.advanceInputs
  rw [show (s.withValue v).script = s.script from rfl]
  split <;> rfl

/-- No other agent reads the value latched (R123.4, R130). -/
theorem nextEdge_sameButValue {s t : State} (h : s.SameButValue t) : s.nextEdge.SameButValue t.nextEdge := by
  obtain ⟨v, hv, rfl⟩ := h
  refine advanceInputs_sameButValue ?_
  rw [State.clockEdge, State.clockEdge]
  cases hr : s.inp.rst with
  | true =>
    rw [clockEdgeWith_reset hr, clockEdgeWith_reset (s := s.withValue v) hr]
    exact .refl _
  | false =>
    rw [clockEdgeWith_running hr, clockEdgeWith_running (s := s.withValue v) hr]
    have hbeside : (s.edgeSurroundings true).SameButValue ((s.withValue v).edgeSurroundings true) :=
      ⟨v, hv, rfl⟩
    exact setDeb_sameButValue (seqEdge_sameButValue hbeside _) _

theorem run_sameButValue : ∀ (n : Nat) {s t : State}, s.SameButValue t → (s.run n).SameButValue (t.run n) := by
  intro n
  induction n with
  | zero => exact fun h => h
  | succ n ih =>
    intro s t h
    have hrst : s.inp.rst = t.inp.rst := by
      obtain ⟨v, -, rfl⟩ := h
      rfl
    simp only [State.run, hrst]
    split
    · exact nextEdge_sameButValue h
    · exact ih (nextEdge_sameButValue h)

/-- Two RENDERs of the same digits, accepted by the same machine, leave the same but for the value latched
(R81). -/
theorem runRender_sameButValue {s : State} (hi : s.disp.phase = .idle) (hr : s.inp.rst = false) {v w : Nat}
    (h : SameDigits w v) (e : Bool) (idx : Position) :
    (s.runRender ⟨e, idx, v⟩).SameButValue (s.runRender ⟨e, idx, w⟩) := by
  refine run_sameButValue _ (advanceInputs_sameButValue ?_)
  have haccept (c : Cmd) : (s.edgeSurroundings false).seqEdge (some c) =
      (s.edgeSurroundings false).accept c :=
    seqEdge_idle_some (s := s.edgeSurroundings false) hi c
  rw [clockEdgeWith_running hr, clockEdgeWith_running hr]
  simp only [Drive.over, Option.isNone_some, haccept]
  exact setDeb_sameButValue (accept_sameButValue h _ e idx) _

/-- Settles O22: the two commands latch values of the same digits. -/
theorem renderAliasesModulo10000 : Obligations.RenderAliasesModulo10000 := by
  refine ⟨fun s t u e idx v ht hu hi hr => ?_, by decide⟩
  have hfree : s.displayFree = true := displayFree_iff.2 ⟨hi, hr⟩
  have hrun (c : Cmd) : exec (.render c.dpEn c.dpIdx c.value) s = .next (s.runRender c) :=
    ifDisplayFree_free hfree fun x => x.runRender c
  obtain ⟨w, -, heq⟩ := runRender_sameButValue hi hr (digitAt_mod v) e idx
  rw [hrun ⟨e, idx, v⟩] at ht
  rw [hrun ⟨e, idx, v % 10000⟩, heq] at hu
  cases ht
  cases hu
  exact ⟨rfl, rfl⟩

end Sys2Proof.Machine
end

section
/-! The reset debouncer (spec/43_button_debouncer.md R90 to R95): the arms of its edge, a block from its first
edge to its last, and the operations DBSAMPLE and DBWAIT. -/

namespace Sys2Proof.Machine

/-! ### The arms of one edge (R91, R92, R94) -/

section
variable {d : Debouncer} {ps : Params} {en btnN : Bool}

theorem debouncerEdge_unsampled (h : d.phase = .ready) :
    d.edge ps false btnN = ⟨.ready, d.cnt, false, false⟩ := by
  simp [Debouncer.edge, h, Debouncer.clearPulses]

theorem debouncerEdge_pressed (h : d.phase = .ready) :
    d.edge ps true false = ⟨.block, ps.debounceCycles, true, false⟩ := by
  simp [Debouncer.edge, h, Debouncer.clearPulses, Debouncer.sample, pressed]

theorem debouncerEdge_unpressed (h : d.phase = .ready) :
    d.edge ps true true = ⟨.ready, d.cnt, false, true⟩ := by
  simp [Debouncer.edge, h, Debouncer.clearPulses, Debouncer.sample, pressed]

theorem clearPulses_wait_counts (h : d.phase = .block) (hc : 1 < d.cnt) :
    d.clearPulses.wait = ⟨.block, d.cnt - 1, false, false⟩ := by
  simp [Debouncer.clearPulses, Debouncer.wait, h, hc]

theorem clearPulses_wait_passes (hc : d.cnt ≤ 1) :
    d.clearPulses.wait = ⟨.ready, d.cnt, false, true⟩ := by
  simp [Debouncer.clearPulses, Debouncer.wait, Nat.not_lt.2 hc]

/-- In DB_BLOCK every edge is a DBWAIT, whatever `sample_en` and the button are (R94). -/
theorem debouncerEdge_blocked (h : d.phase = .block) : d.edge ps en btnN = d.clearPulses.wait := by
  simp only [Debouncer.edge, h]

end

/-- What another host drives at `sample_en` is its port (R107). -/
theorem drive_sampleEn_off {s : State} (h : s.host = .off) : s.drive.sampleEn = s.inp.sampleEn := by
  simp only [State.drive, h]

/-- Settles O42: the arms of the debouncer's own edge, with the sample request the host's, and for another host
the port's. -/
theorem debouncerArms : Obligations.DebouncerArms := by
  intro s hr
  have hedge := clockEdge_deb hr
  dsimp only
  refine ⟨fun hp he => ?_, fun hp he hb => ?_, fun hp he hb => ?_, fun hp hc => ?_, fun hp hc => ?_,
    fun hoff hp => ⟨fun he => ?_, fun he hb => ?_, fun he hb => ?_⟩⟩
  · rw [hedge, he, debouncerEdge_unsampled hp]
  · rw [hedge, he, hb, debouncerEdge_pressed hp]
  · rw [hedge, he, hb, debouncerEdge_unpressed hp]
  · rw [hedge, debouncerEdge_blocked hp, clearPulses_wait_counts hp hc]
  · rw [hedge, debouncerEdge_blocked hp, clearPulses_wait_passes hc]
  · rw [hedge, drive_sampleEn_off hoff, he, debouncerEdge_unsampled hp]
  · rw [hedge, drive_sampleEn_off hoff, he, hb, debouncerEdge_pressed hp]
  · rw [hedge, drive_sampleEn_off hoff, he, hb, debouncerEdge_unpressed hp]

/-! ### DBSAMPLE and DBWAIT -/

/-- An edge with a requested sample is, beside the debouncer, the edge without it (log 20). -/
theorem clockEdgeWith_sample {s : State} (h : s.inp.rst = false) :
    s.clockEdgeWith ⟨true, none⟩ =
      { s.clockEdge with deb := s.deb.edge s.params true s.inp.btnN } := by
  rw [State.clockEdge, clockEdgeWith_running h, clockEdgeWith_running h]
  rfl

/-- Settles O39: the edge with the sample request, with the button at either level. -/
theorem dbsampleCompletes : Obligations.DbsampleCompletes := by
  intro s hp hr
  have hexec : exec .dbsample s = .next
      { s.clockEdge with deb := s.deb.edge s.params true s.inp.btnN }.advanceInputs := by
    rw [← clockEdgeWith_sample hr]
    rfl
  refine ⟨fun hb => ?_, fun hb => ?_⟩
  · rw [hexec, hb, debouncerEdge_pressed hp]
  · rw [hexec, hb, debouncerEdge_unpressed hp]

/-- With no TICK due, an edge that sees `clk_reset` leaves the clock at 0 (R101, R112; log 22). -/
theorem clockEdge_clock_of_clkReset {s : State} (h : s.deb.clkReset = true) (ht : 1 < s.tickIn) :
    s.clockEdge.clock = ⟨0, 0⟩ := by
  obtain ⟨-, -, -, -, -, hclock, -⟩ := clockEdge_frame s
  have hquiet : s.tickFires = false := decide_eq_false (Nat.not_le.2 ht)
  rw [hclock]
  simp [State.clockAfterReset, State.readTick, h, hquiet, tickPoint, Clock.clear, Clock.afterRead]

/-- Settles O40: a DBWAIT is a clock edge, the debouncer's arm in DB_BLOCK on either side of the last count. -/
theorem dbwaitCompletes : Obligations.DbwaitCompletes := by
  intro s hp hr
  refine ⟨rfl, ?_, clockEdge_clock_of_clkReset⟩
  rw [clockEdge_deb hr, debouncerEdge_blocked hp]
  split
  · next hc => exact clearPulses_wait_counts hp hc
  · next hc => exact clearPulses_wait_passes (Nat.not_lt.1 hc)

/-! ### A whole block (R90, R92, R95) -/

/-- `n` edges of DBWAIT from a count of `n`, by induction on `n`: each before the last leaves one less. -/
theorem waits_from_count : ∀ (n : Nat) {d : Debouncer}, d.phase = .block → d.cnt = n + 1 →
    (fun e : Debouncer => e.clearPulses.wait)^[n + 1] d = d.waitOut ∧
      ∀ j, j < n + 1 → ((fun e : Debouncer => e.clearPulses.wait)^[j] d).phase = .block := by
  intro n
  induction n with
  | zero =>
    intro d hp hc
    refine ⟨?_, fun j hj => ?_⟩
    · show d.clearPulses.wait = d.waitOut
      rw [clearPulses_wait_passes (by omega), Debouncer.waitOut, hc]
      rfl
    · obtain rfl : j = 0 := by omega
      exact hp
  | succ n ih =>
    intro d hp hc
    have hstep : d.clearPulses.wait = ⟨.block, n + 1, false, false⟩ := by
      rw [clearPulses_wait_counts hp (by omega), hc]
      rfl
    obtain ⟨hlast, hblocks⟩ := ih (d := ⟨.block, n + 1, false, false⟩) rfl rfl
    refine ⟨?_, fun j hj => ?_⟩
    · rw [Function.iterate_succ_apply, hstep, hlast, Debouncer.waitOut, Debouncer.waitOut, hc]
      simp
    · cases j with
      | zero => exact hp
      | succ j =>
        rw [Function.iterate_succ_apply, hstep]
        exact hblocks j (Nat.lt_of_succ_lt_succ hj)

/-- Settles O43, by induction on the count. -/
theorem waitOutIsEveryDbwait : Obligations.WaitOutIsEveryDbwait := by
  intro d hp hc
  obtain ⟨n, hn⟩ : ∃ n, d.cnt = n + 1 := ⟨d.cnt - 1, by omega⟩
  rw [hn]
  exact waits_from_count n hp hn

/-- The edges that no request disturbs are edges from a state in the sense of `EdgesFrom`. -/
theorem edgesFrom_edges (s : State) : ∀ n, EdgesFrom s n (s.edges n)
  | 0 => .rfl
  | n + 1 => .edge ⟨false, none⟩ (edgesFrom_edges s n)

/-- Settles O41: the sampling edge starts the block with the full count, and the edges after it run it down. -/
theorem blockLastsDebounceCycles : Obligations.BlockLastsDebounceCycles := by
  intro s hs hM hp he hb
  have hfirst : (s.edges 1).deb = ⟨.block, s.params.debounceCycles, true, false⟩ := by
    rw [edges_succ, State.advanceInputs_deb, edges_zero, clockEdge_deb hs.1, he, hb,
      debouncerEdge_pressed hp]
  have hblock (n : Nat) := (edgesFrom_edges (s.edges 1) n).block
    (fun j _ => (NoReset_edges (NoReset_edges hs 1) j).1) (by rw [hfirst])
  rw [hfirst] at hblock
  refine ⟨hfirst, fun j hj hj' => ?_, ?_⟩
  · obtain ⟨-, hcounts, -⟩ := hblock j
    rw [edges_add]
    exact hcounts hj hj'
  · obtain ⟨-, -, hpasses⟩ := hblock s.params.debounceCycles
    rw [edges_add]
    exact hpasses hM rfl

end Sys2Proof.Machine
end

section
/-! The clock edges a requested operation takes (spec/60_exceptions.md R123, R130,
spec/70_reset_and_hazards.md R140, R148, R156): what `n` edges leave beside the display unit, what a reset
edge among them leaves, and each operation as such a run. -/

namespace Sys2Proof.Machine

/-! ### Edges without a reset -/

/-- No reset edge is among the next `n`. -/
def State.NoResetFor (s : State) (n : Nat) : Prop := ∀ j, j < n → (s.edges j).inp.rst = false

/-- Edge `k`, counted from 0, is the first reset edge to come. -/
def State.FirstReset (s : State) (k : Nat) : Prop := s.NoResetFor k ∧ (s.edges k).inp.rst = true

theorem noResetFor_zero (s : State) : s.NoResetFor 0 := fun _ hj => absurd hj (Nat.not_lt_zero _)

theorem noResetFor_one {s : State} (h : s.inp.rst = false) : s.NoResetFor 1 := by
  intro j hj
  obtain rfl : j = 0 := by omega
  exact h

/-- The first reset edge is not among edges without a reset. -/
theorem State.FirstReset.le_of_noResetFor {s : State} {n k : Nat} (h : s.FirstReset k)
    (hn : s.NoResetFor n) : n ≤ k := by
  by_contra hk
  exact Bool.false_ne_true ((hn k (Nat.lt_of_not_le hk)).symm.trans h.2)

/-- A run without a reset edge is all its edges. -/
theorem run_noResetFor {s : State} {n : Nat} (h : s.NoResetFor n) : s.run n = s.edges n := by
  rcases run_cases s n with ⟨hrun, -⟩ | ⟨k, hk, -, hreset, hbefore⟩
  · exact hrun
  · exact absurd (State.FirstReset.le_of_noResetFor ⟨hbefore, hreset⟩ h) (Nat.not_le.2 hk)

theorem noResetFor_or_firstReset (s : State) (n : Nat) :
    s.NoResetFor n ∨ ∃ k, k < n ∧ s.FirstReset k := by
  rcases run_cases s n with ⟨-, h⟩ | ⟨k, hk, -, hreset, hbefore⟩
  · exact .inl h
  · exact .inr ⟨k, hk, hbefore, hreset⟩

theorem SameTiming.edges {s t : State} (h : SameTiming s t) : ∀ n, SameTiming (s.edges n) (t.edges n)
  | 0 => h
  | n + 1 => (SameTiming.edges h n).edge ⟨false, none⟩ ⟨false, none⟩

/-- Neither the display unit nor the requests are part of the time. -/
theorem SameTiming.frame {s t : State} (h : SameTiming s t) (d : Display) (p : List OpWord) :
    SameTiming s { t with disp := d, pending := p } :=
  ⟨h.params, h.inp, h.script, h.tickIn, h.result⟩

/-- Resets come alike to states at the same time. -/
theorem SameTiming.noResetFor {s t : State} (h : SameTiming s t) {n : Nat} (hn : s.NoResetFor n) :
    t.NoResetFor n := by
  intro j hj
  rw [← (h.edges j).inp]
  exact hn j hj

theorem noResetFor_edges {s : State} {m n : Nat} (h : s.NoResetFor (m + n)) :
    (s.edges m).NoResetFor n := by
  intro j hj
  rw [← edges_add]
  exact h (m + j) (by omega)

/-! ### What another host does not look at -/

/-- Two states at the same time, another host at the ports of both, that agree beside the display unit. -/
structure OffAlike (s t : State) : Prop where
  timing : SameTiming s t
  off : s.host = .off
  host : t.host = .off
  volt : s.volt = t.volt
  deb : s.deb = t.deb
  clock : s.clock = t.clock

theorem hostAfter_off {s : State} (h : s.host = .off) (mine : Bool) : s.hostAfter mine = .off := by
  simp only [State.hostAfter, h]

theorem voltAfter_off {s : State} (h : s.host = .off) : s.voltAfter = s.volt := by
  simp [State.voltAfter, State.hostForms, h]

/-- They do so after an edge at which a request presents a command or nothing (R123.4). -/
theorem OffAlike.edge {s t : State} (h : OffAlike s t) {r : Drive} (hr : r.sampleEn = false) :
    OffAlike s.nextEdge (t.clockEdgeWith r).advanceInputs := by
  obtain ⟨htiming, hs, ht, hvolt, hdeb, hclock⟩ := h
  obtain ⟨-, -, -, -, -, hsc, hsv, hsh, -⟩ := clockEdge_frame s
  obtain ⟨-, -, -, -, -, htc, htv, hth, -⟩ := clockEdgeWith_frame t r
  have hdebs : s.clockEdge.deb = (t.clockEdgeWith r).deb := by
    cases hrst : s.inp.rst with
    | true =>
      exact (clockEdgeWith_reset_deb hrst _).trans
        (clockEdgeWith_reset_deb (by rw [← htiming.inp]; exact hrst) r).symm
    | false =>
      rw [clockEdge_deb hrst, clockEdgeWith_deb (by rw [← htiming.inp]; exact hrst), hr,
        drive_sampleEn_off hs, drive_sampleEn_off ht, hdeb, htiming.params, htiming.inp, Bool.false_or]
  have hclocks : s.clockAfterReset.afterRead s.readTick = t.clockAfterReset.afterRead t.readTick := by
    simp only [State.clockAfterReset, State.readTick, State.tickFires, hdeb, hclock, htiming.params,
      htiming.inp, htiming.tickIn]
  refine ⟨htiming.edge ⟨false, none⟩ r, ?_, ?_, ?_, ?_, ?_⟩
  · rw [State.nextEdge, State.advanceInputs_host, hsh, hostAfter_off hs]
  · rw [State.advanceInputs_host, hth, hostAfter_off ht]
  · rw [State.nextEdge, State.advanceInputs_volt, State.advanceInputs_volt, hsv, htv, voltAfter_off hs,
      voltAfter_off ht, hvolt]
  · rw [State.nextEdge, State.advanceInputs_deb, State.advanceInputs_deb, hdebs]
  · rw [State.nextEdge, State.advanceInputs_clock, State.advanceInputs_clock, hsc, htc, hclocks]

/-- Another host never has the tracker updated (R107). -/
theorem edges_off {s : State} (h : s.host = .off) (n : Nat) :
    (s.edges n).host = .off ∧ (s.edges n).volt = s.volt := by
  induction n with
  | zero => exact ⟨h, rfl⟩
  | succ n ih =>
    obtain ⟨hoff, hvolt⟩ := ih
    obtain ⟨-, -, -, -, -, -, hv, hh, -⟩ := clockEdge_frame (s.edges n)
    rw [edges_succ, State.advanceInputs_host, State.advanceInputs_volt, hh, hv, hostAfter_off hoff,
      voltAfter_off hoff]
    exact ⟨rfl, hvolt⟩

/-! ### States reached in clock edges of a request -/

/-- `x` is reached from `s` in `n` clock edges of a request, which, if it is `plain`, drives no `sample_en` and
does not set up the main loop. -/
structure Reached (plain : Prop) (s : State) (n : Nat) (x : State) : Prop where
  edges : EdgesFrom s n x
  beside : plain → s.host = .off → OffAlike (s.edges n) x

section
variable {plain : Prop} {s x : State} {n : Nat}

theorem Reached.here : Reached plain s 0 s :=
  ⟨.rfl, fun _ hoff => ⟨.rfl, hoff, hoff, rfl, rfl, rfl⟩⟩

/-- A request may set up the display unit before its first edge, and ask to be requested again. -/
theorem Reached.start (d : Display) (p : List OpWord) :
    Reached plain s 0 { s with disp := d, pending := p } :=
  ⟨.start (.frame .rfl d p) rfl, fun _ hoff => ⟨.frame .rfl d p, hoff, hoff, rfl, rfl, rfl⟩⟩

theorem Reached.edge (h : Reached plain s n x) {r : Drive} (hr : plain → r.sampleEn = false) :
    Reached plain s (n + 1) (x.clockEdgeWith r).advanceInputs :=
  ⟨.edge r h.edges, fun hq hoff => (h.beside hq hoff).edge (hr hq)⟩

theorem Reached.nextEdge (h : Reached plain s n x) : Reached plain s (n + 1) x.nextEdge :=
  h.edge (r := ⟨false, none⟩) fun _ => rfl

theorem Reached.run (h : Reached plain s n x) {m : Nat} (hr : s.NoResetFor (n + m)) :
    Reached plain s (n + m) (x.run m) := by
  rw [run_noResetFor (h.edges.timing.noResetFor (noResetFor_edges hr))]
  clear hr
  induction m with
  | zero => exact h
  | succ m ih => exact ih.nextEdge

end

/-! ### What an operation that takes edges leaves -/

/-- `t` is left by an operation whose `n` edges no reset cut short (R92, R94, R95, R123.4, R148). -/
structure Completed (plain : Prop) (s : State) (n : Nat) (t : State) : Prop where
  timing : SameTiming (s.edges n) t
  counts : s.deb.phase = .block → n < s.deb.cnt → t.deb = ⟨.block, s.deb.cnt - n, false, false⟩
  passes : s.deb.phase = .block → n = s.deb.cnt → t.deb = ⟨.ready, 1, false, true⟩
  beside : plain → s.host = .off → OffAlike (s.edges n) t

/-- `t` is left by an operation that a reset at edge `k` cut short (R123.1, R140; log 10). -/
structure CutShort (s : State) (k : Nat) (t : State) : Prop where
  timing : SameTiming (s.edges (k + 1)) t
  disp : t.disp = Display.reset
  deb : t.deb = Debouncer.reset

/-- `t` is left by an operation that takes `n` edges, the first reset edge among them being the last. -/
structure Lasts (plain : Prop) (s : State) (n : Nat) (t : State) : Prop where
  whole : s.NoResetFor n → Completed plain s n t
  cut : ∀ k, k < n → s.FirstReset k → CutShort s k t

section
variable {plain : Prop} {s x t : State} {m n : Nat}

theorem Reached.completed (h : Reached plain s n x) (hn : 1 ≤ n) (hr : s.NoResetFor n) :
    Completed plain s n x :=
  ⟨h.edges.timing, fun hb => (h.edges.block hr hb).2.1 hn, fun hb => (h.edges.block hr hb).2.2 hn, h.beside⟩

/-- One more edge ends the operation. -/
theorem Reached.lasts_edge (h : Reached plain s n x) (hno : s.NoResetFor n) {r : Drive}
    (hr : plain → r.sampleEn = false) : Lasts plain s (n + 1) (x.clockEdgeWith r).advanceInputs := by
  refine ⟨(h.edge hr).completed (Nat.succ_pos n), fun k hk hreset => ?_⟩
  obtain rfl : k = n := Nat.le_antisymm (Nat.le_of_lt_succ hk) (hreset.le_of_noResetFor hno)
  obtain ⟨hedges, hdisp, hdeb⟩ := h.edges.reset hreset.2 r
  exact ⟨hedges.timing, hdisp, hdeb⟩

/-- A run of edges ends the operation. -/
theorem Reached.lasts_run (h : Reached plain s n x) (hno : s.NoResetFor n) (hn : 1 ≤ n + m) :
    Lasts plain s (n + m) (x.run m) := by
  refine ⟨fun hr => (h.run hr).completed hn hr, fun k hk hreset => ?_⟩
  obtain ⟨hedges, hdisp, hdeb⟩ := h.edges.run_reset m (hreset.le_of_noResetFor hno) hk
    (fun j _ hj => hreset.1 j hj) hreset.2
  exact ⟨hedges.timing, hdisp, hdeb⟩

/-- A run from the first edge on. -/
theorem Reached.lasts_run_start (h : Reached plain s 0 x) (hn : 1 ≤ n) : Lasts plain s n (x.run n) := by
  have := h.lasts_run (m := n) (noResetFor_zero _) (by omega)
  rwa [Nat.zero_add] at this

/-- A run cut short in its first `n` edges is over, however long it was to be. -/
theorem Lasts.extend (h : Lasts plain s n t) {k : Nat} (hk : k < n) (hreset : s.FirstReset k) :
    Lasts plain s (n + m) t := by
  refine ⟨fun hno => absurd (hreset.le_of_noResetFor hno) (by omega), fun j _ hj => ?_⟩
  obtain rfl : j = k := Nat.le_antisymm (hreset.le_of_noResetFor hj.1) (hj.le_of_noResetFor hreset.1)
  exact h.cut j hk hj

theorem Completed.frame (h : Completed plain s n t) (d : Display) (p : List OpWord) :
    Completed plain s n { t with disp := d, pending := p } :=
  ⟨h.timing.frame d p, h.counts, h.passes, fun hq hoff =>
    have b := h.beside hq hoff
    ⟨b.timing.frame d p, b.off, b.host, b.volt, b.deb, b.clock⟩⟩

/-- The display's going back to IDLE is no edge. -/
theorem Lasts.setIdle (h : Lasts plain s n t) :
    Lasts plain s n { t with disp := { t.disp with phase := .idle } } :=
  ⟨fun hno => (h.whole hno).frame _ _, fun k hk hreset =>
    have c := h.cut k hk hreset
    ⟨c.timing.frame _ _, by rw [c.disp]; rfl, c.deb⟩⟩

/-- Nor is being requested again. -/
theorem Lasts.setPending (h : Lasts plain s n t) (p : List OpWord) :
    Lasts plain s n { t with pending := p } :=
  ⟨fun hno => (h.whole hno).frame _ _, fun k hk hreset =>
    have c := h.cut k hk hreset
    ⟨c.timing.frame _ _, c.disp, c.deb⟩⟩

end

/-! ### Each operation lasts its edges -/

section
variable {plain : Prop} {s : State} {n : Nat}

/-- At a reset edge, or when one edge is all it takes, an operation lasts as long as an ordinary clock edge. -/
theorem Reached.lasts_nextEdge {x : State} (h : Reached plain s 0 x) (hn : 1 ≤ n)
    (hr : s.inp.rst = true ∨ n = 1) : Lasts plain s n x.nextEdge := by
  rcases hr with hreset | rfl
  · rw [← run_reset (by rw [← h.edges.timing.inp]; exact hreset) hn]
    exact h.lasts_run_start hn
  · exact h.lasts_edge (r := ⟨false, none⟩) (noResetFor_zero _) fun _ => rfl

/-- An operation that its unit takes when it is `free`, and that is an ordinary clock edge else. -/
theorem lasts_of_free {free : Bool} {t x : State} (hx : Reached plain s 0 x) (hn : 1 ≤ n)
    (htaken : free = true → Lasts plain s n t) (helse : free = false → s.inp.rst = true ∨ n = 1) :
    ∃ u, (if free then .next t else .next x.nextEdge : Host.Outcome State Fault Refusal) = .next u ∧
      Lasts plain s n u := by
  cases free with
  | true => exact ⟨t, rfl, htaken rfl⟩
  | false => exact ⟨x.nextEdge, rfl, hx.lasts_nextEdge hn (helse rfl)⟩

/-- An operation of the display unit (log 6). -/
theorem ifDisplayFree_lasts {f : State → State} (hn : 1 ≤ if s.disp.phase = .idle then n else 1)
    (h : s.inp.rst = false → 1 ≤ n → Lasts plain s n (f s)) :
    ∃ t, ifDisplayFree s f = .next t ∧ Lasts plain s (if s.disp.phase = .idle then n else 1) t := by
  refine lasts_of_free .here hn (fun hfree => ?_) fun hbusy => ?_
  · obtain ⟨hidle, hrst⟩ := displayFree_iff.1 hfree
    rw [if_pos hidle] at hn ⊢
    exact h hrst hn
  · by_cases hidle : s.disp.phase = .idle
    · refine .inl (by_contra fun hrst => ?_)
      rw [displayFree_iff.2 ⟨hidle, Bool.eq_false_of_not_eq_true hrst⟩] at hbusy
      exact Bool.noConfusion hbusy
    · exact .inr (if_neg hidle)

theorem hostMayProceed_iff :
    s.hostMayProceed = true ↔ s.disp.phase = .idle ∧ s.deb.phase = .ready ∧ s.inp.rst = false := by
  rw [State.hostMayProceed, Bool.and_eq_true, displayFree_iff, samplerFree_iff]
  tauto

/-- A blocking operation of the main loop (R107; log 19). -/
theorem hostMayProceed_lasts {i : Instr} {u : State}
    (hn : 1 ≤ if s.deb.phase = .ready then if s.disp.phase = .idle then n else 1 else 1)
    (h : s.inp.rst = false → s.deb.phase = .ready → Lasts plain s n u) :
    ∃ t, (if s.hostMayProceed then .next u else stalled i s) = .next t ∧
      Lasts plain s (if s.deb.phase = .ready then if s.disp.phase = .idle then n else 1 else 1) t := by
  refine lasts_of_free (.start s.disp (encode s.params.valueWidth i :: s.pending)) hn (fun hfree => ?_)
    fun hwait => ?_
  · obtain ⟨hidle, hready, hrst⟩ := hostMayProceed_iff.1 hfree
    rw [if_pos hready, if_pos hidle]
    exact h hrst hready
  · by_cases hboth : s.disp.phase = .idle ∧ s.deb.phase = .ready
    · refine .inl (by_contra fun hrst => ?_)
      rw [hostMayProceed_iff.2 ⟨hboth.1, hboth.2, Bool.eq_false_of_not_eq_true hrst⟩] at hwait
      exact Bool.noConfusion hwait
    · refine .inr ?_
      split
      · next hready => exact if_neg fun hidle => hboth ⟨hidle, hready⟩
      · rfl

/-- RENDER (R75, R84): the accepting edge and the edges of the render. -/
theorem runRender_lasts (hr : s.inp.rst = false) (c : Cmd) :
    Lasts plain s (1 + renderCycles s.params) (s.runRender c) :=
  (Reached.here.edge fun _ => rfl).lasts_run (noResetFor_one hr) (Nat.le_add_right _ _)

/-- A driver operation, or a DWELL of its own (R70, R79). -/
theorem runDisplay_lasts (d : Display) (hn : 1 ≤ n) : Lasts plain s n (s.runDisplay d n) :=
  ((Reached.start d s.pending).lasts_run_start hn).setIdle

theorem execDwell_lasts (hn : 1 ≤ edgesTaken .dwell s) :
    ∃ t, execDwell s = .next t ∧ Lasts plain s (edgesTaken .dwell s) t := by
  unfold execDwell edgesTaken at *
  by_cases hp : s.disp.phase = .dwell
  · simp only [if_pos hp] at hn ⊢
    refine ⟨_, rfl, ?_⟩
    rw [Nat.max_eq_left hn]
    exact Reached.here.lasts_run_start hn
  · simp only [if_neg hp] at hn ⊢
    exact ifDisplayFree_lasts hn fun _ => runDisplay_lasts _

end

/-! ### LOOP (R106) -/

/-- The edges of the debounce interval that an iteration of LOOP in `s` waits out. -/
def loopBlock (s : State) : Nat := if pressed s.inp.btnN then s.params.debounceCycles else 0

/-- The state after the sampling edge of LOOP, the main loop having been set up for step 1. -/
def State.loopSample (s : State) : State := { s with host := .step1 }.nextEdge

theorem loopStep1_eq (s : State) : s.loopStep1 = s.loopSample.run (loopBlock s) := rfl

section
variable {plain : Prop} {s : State}

theorem loopSample_reached (hq : ¬plain) : Reached plain s 1 s.loopSample :=
  ⟨.edge ⟨false, none⟩ (.start ⟨rfl, rfl, rfl, rfl, rfl⟩ rfl), fun h => absurd h hq⟩

/-- The main loop's own `sample_en` is up at the sampling edge (R107). -/
theorem loopSample_deb (hr : s.inp.rst = false) :
    s.loopSample.deb = s.deb.edge s.params true s.inp.btnN := by
  rw [State.loopSample, State.nextEdge, State.advanceInputs_deb]
  exact clockEdge_deb (s := { s with host := .step1 }) hr

/-- Step 1 that no reset cuts short ends with `db_pass = 1` (R91, R92, R106). -/
theorem loopStep1_dbPass (hp : s.deb.phase = .ready) (hM : 1 ≤ s.params.debounceCycles)
    (hno : s.NoResetFor (1 + loopBlock s)) : s.loopStep1.deb.dbPass = true := by
  have hsample := loopSample_deb (hno 0 (by omega))
  have hno' : s.loopSample.NoResetFor (loopBlock s) :=
    (loopSample_reached (plain := False) not_false).edges.timing.noResetFor (noResetFor_edges hno)
  rw [loopStep1_eq, run_noResetFor hno']
  cases hb : s.inp.btnN with
  | true =>
    have hnone : loopBlock s = 0 := by simp [loopBlock, pressed, hb]
    rw [edges_zero, hb, debouncerEdge_unpressed hp] at hsample
    rw [hnone, edges_zero, hsample]
  | false =>
    have hall : loopBlock s = s.params.debounceCycles := by simp [loopBlock, pressed, hb]
    rw [edges_zero, hb, debouncerEdge_pressed hp] at hsample
    obtain ⟨-, -, hpasses⟩ := (edgesFrom_edges s.loopSample (loopBlock s)).block hno' (by rw [hsample])
    rw [hpasses (by omega) (by rw [hall, hsample])]

/-- One iteration of LOOP (R106; log 18): a reset in step 1 ends it, and else steps 2 and 3 follow. -/
theorem loopIteration_lasts (hq : ¬plain) (hr : s.inp.rst = false) (hp : s.deb.phase = .ready)
    (hM : 1 ≤ s.params.debounceCycles) :
    Lasts plain s (loopPresents s + (1 + renderCycles s.params)) s.loopIteration := by
  have hsample : Reached plain s 1 s.loopSample := loopSample_reached hq
  have hlen : loopPresents s + (1 + renderCycles s.params) = 1 + loopBlock s +
      ((s.edges (1 + loopBlock s)).inp.overhead + 1 + renderCycles s.params) := by
    unfold loopPresents loopBlock
    dsimp only
    omega
  rw [hlen, State.loopIteration]
  rcases noResetFor_or_firstReset s (1 + loopBlock s) with hno | ⟨k, hk, hreset⟩
  · have hstep1 : Reached plain s (1 + loopBlock s) s.loopStep1 := hsample.run hno
    have htiming := hstep1.edges.timing
    rw [if_pos (loopStep1_dbPass hp hM hno), State.loopSteps23, ← htiming.inp, ← htiming.params, edges_params]
    exact hstep1.lasts_run hno (by omega)
  · have hstep1 : Lasts plain s (1 + loopBlock s) s.loopStep1 :=
      hsample.lasts_run (noResetFor_one hr) (by omega)
    have hcut := hstep1.cut k hk hreset
    rw [if_neg (by rw [hcut.deb]; exact Bool.false_ne_true)]
    exact hstep1.extend hk hreset

end

/-! ### Every operation -/

/-- An operation that takes edges answers a state it has left after those edges, the first reset edge among
them being the last. All but DBSAMPLE and LOOP are plain. -/
theorem exec_lasts {i : Instr} {s : State} (hi : takesEdges i = true) (hM : 1 ≤ s.params.debounceCycles)
    (hn : 1 ≤ edgesTaken i s) :
    ∃ t, exec i s = .next t ∧ Lasts (i ≠ .dbsample ∧ i ≠ .loop) s (edgesTaken i s) t := by
  cases i
  case render | showclock | showvolts =>
    exact ifDisplayFree_lasts (f := fun u => u.runRender _) hn fun hr _ => runRender_lasts hr _
  case writeframe | shiftbyte | shiftbit =>
    exact ifDisplayFree_lasts (f := fun u => u.drivePins _ _ _) hn fun _ => runDisplay_lasts _
  case dwell => exact execDwell_lasts hn
  case dbsample =>
    exact ⟨_, rfl, Reached.here.lasts_edge (noResetFor_zero _) fun h => absurd rfl h.1⟩
  case dbwait => exact ⟨_, rfl, Reached.here.lasts_nextEdge hn (.inr rfl)⟩
  case modesel => exact hostMayProceed_lasts hn fun hr _ => runRender_lasts hr _
  case loop =>
    exact hostMayProceed_lasts hn fun hr hp =>
      (loopIteration_lasts (fun h => h.2 rfl) hr hp hM).setPending _
  all_goals cases hi

/-- A count that is 1 for a request turned away or waiting. -/
theorem one_le_ite_one {p : Prop} [Decidable p] {n : Nat} (h : p → 1 ≤ n) : 1 ≤ if p then n else 1 := by
  split
  · next hp => exact h hp
  · exact Nat.le_refl 1

/-- An operation that takes edges takes at least one. -/
theorem one_le_edgesTaken {i : Instr} {s : State} (hi : takesEdges i = true)
    (hN : 1 ≤ s.params.dwellCycles) (hc : s.disp.phase = .dwell → 1 ≤ s.disp.dwellCnt) :
    1 ≤ edgesTaken i s := by
  have hrender : 1 ≤ 1 + renderCycles s.params := Nat.le_add_right _ _
  cases i
  case render | showclock | showvolts => exact one_le_ite_one fun _ => hrender
  case writeframe | shiftbyte | shiftbit => exact one_le_ite_one fun _ => by decide
  case dwell =>
    by_cases hp : s.disp.phase = .dwell
    · simp only [edgesTaken, if_pos hp]
      exact hc hp
    · simp only [edgesTaken, if_neg hp]
      exact one_le_ite_one fun _ => hN
  case dbsample | dbwait => exact Nat.le_refl 1
  case modesel => exact one_le_ite_one fun _ => one_le_ite_one fun _ => hrender
  case loop => exact one_le_ite_one fun _ => one_le_ite_one fun _ => Nat.le_add_left_of_le hrender
  all_goals cases hi

/-- Settles O30: what an operation leaves that lasts its edges, with no reset among them and with one. -/
theorem requestsTakeTheirEdges : Obligations.RequestsTakeTheirEdges := by
  refine ⟨fun i s hi hps hc hno => ?_, fun i s k hi hps hk hbefore hreset => ?_⟩
  · obtain ⟨hN, hM, -⟩ := wellFormed_bounds hps
    have hn := one_le_edgesTaken hi hN hc
    obtain ⟨t, ht, hlasts⟩ := exec_lasts hi hM hn
    obtain ⟨htiming, hcounts, hpasses, hbeside⟩ := hlasts.whole hno
    refine ⟨hn, t, ht, ?_, ?_, htiming.inp.symm, htiming.script.symm, htiming.tickIn.symm, hcounts, hpasses,
      fun hoff hsample hloop => ?_⟩
    · rw [← htiming.params, edges_params]
    · rw [← htiming.result, edges_result]
    · obtain ⟨-, -, hhost, hvolt, hdeb, hclock⟩ := hbeside ⟨hsample, hloop⟩ hoff
      exact ⟨hhost, hvolt.symm.trans (edges_off hoff _).2, hdeb.symm, hclock.symm⟩
  · obtain ⟨-, hM, -⟩ := wellFormed_bounds hps
    obtain ⟨t, ht, hlasts⟩ := exec_lasts hi hM (by omega)
    obtain ⟨htiming, hdisp, hdeb⟩ := hlasts.cut k hk ⟨hbefore, hreset⟩
    exact ⟨t, ht, hdisp, hdeb, htiming.inp.symm, htiming.script.symm, htiming.tickIn.symm⟩

end Sys2Proof.Machine
end

section
/-! The clock counter and the periodic source (spec/44_environment.md R100 to R102, R112,
spec/60_exceptions.md R123, R128): TICK, CLKRESET, and what a clock edge makes of the two. -/

namespace Sys2Proof.Machine

/-! ### TICK (R100, R102) -/

theorem tick_below {c : Clock} (h : c.seconds.val + 1 < 60) :
    c.tick.seconds.val = c.seconds.val + 1 ∧ c.tick.minutes = c.minutes := by
  have hne : c.seconds ≠ 59 := fun h59 => by rw [h59] at h; exact absurd h (by decide)
  rw [Clock.tick, if_neg hne]
  exact ⟨by rw [Fin.val_add]; exact Nat.mod_eq_of_lt h, rfl⟩

theorem tick_wraps {c : Clock} (h : c.seconds.val + 1 = 60) :
    c.tick.seconds.val = 0 ∧ c.tick.minutes.val = (c.minutes.val + 1) % 100 := by
  have h59 : c.seconds = 59 := Fin.ext (Nat.succ.inj h)
  rw [Clock.tick, if_pos h59]
  exact ⟨rfl, Fin.val_add _ _⟩

/-- Settles O44: the two arms of TICK. -/
theorem tickAdvancesClock : Obligations.TickAdvancesClock :=
  fun s => ⟨s.clock.tick, rfl, tick_below, tick_wraps⟩

/-- R102, by induction on the number of TICKs. -/
theorem ticks_from_zero (n : Nat) :
    (Clock.tick^[n] ⟨0, 0⟩).seconds.val = n % 60 ∧
    (Clock.tick^[n] ⟨0, 0⟩).minutes.val = n / 60 % 100 := by
  induction n with
  | zero => exact ⟨rfl, rfl⟩
  | succ n ih =>
    obtain ⟨hsec, hmin⟩ := ih
    rw [Function.iterate_succ_apply']
    rcases Nat.lt_or_eq_of_le (Nat.succ_le_of_lt (Clock.tick^[n] ⟨0, 0⟩).seconds.isLt) with hlt | heq
    · obtain ⟨hsec', hmin'⟩ := tick_below hlt
      rw [hsec', hmin', hsec, hmin]
      omega
    · obtain ⟨hsec', hmin'⟩ := tick_wraps heq
      rw [hsec', hmin', hmin]
      omega

theorem ticks_eq {n : Nat} {c : Clock} (hsec : n % 60 = c.seconds.val) (hmin : n / 60 % 100 = c.minutes.val) :
    Clock.tick^[n] ⟨0, 0⟩ = c := by
  obtain ⟨hs, hm⟩ := ticks_from_zero n
  obtain ⟨sec, min⟩ := c
  exact congrArg₂ Clock.mk (Fin.ext (hs.trans hsec)) (Fin.ext (hm.trans hmin))

/-- Settles O45: the general formula, and what it gives after one minute and after a hundred. -/
theorem ticksCountSecondsAndMinutes : Obligations.TicksCountSecondsAndMinutes := by
  refine ⟨ticks_from_zero, ticks_eq rfl rfl, ticks_eq rfl rfl, fun m sec => ⟨rfl, ?_⟩⟩
  show m.val * 100 + sec.val ≤ 9959
  omega

/-! ### CLKRESET (R101) -/

/-- CLKRESET against a TICK, wherever it falls (R101, log 14). -/
theorem clear_at (c : Clock) (ps : Params) (point : TickPoint) :
    (point = .never ∨ point = .before → c.clear ps point = ⟨0, 0⟩) ∧
    (point = .after → c.clear ps point = ⟨1, 0⟩) ∧
    (point = .between →
      (ps.resetAtomic = true → c.clear ps point = ⟨0, 0⟩) ∧
      (ps.resetAtomic = false → ps.resetMinutesFirst = true →
        c.clear ps point = if c.seconds = 59 then ⟨0, 1⟩ else ⟨0, 0⟩) ∧
      (ps.resetAtomic = false → ps.resetMinutesFirst = false → c.clear ps point = ⟨1, 0⟩)) := by
  refine ⟨?_, ?_, ?_⟩
  · rintro (rfl | rfl) <;> rfl
  · rintro rfl
    rfl
  · rintro rfl
    refine ⟨fun hatomic => ?_, fun hsplit hmin => ?_, fun hsplit hsec => ?_⟩
    · simp [Clock.clear, hatomic]
    · by_cases h59 : c.seconds = 59 <;>
        simp [Clock.clear, hsplit, hmin, Clock.clearFirst, Clock.clearSecond, Clock.tick, h59]
    · simp [Clock.clear, hsplit, hsec, Clock.clearFirst, Clock.clearSecond, Clock.tick]

/-- Settles O46: the clock as CLKRESET leaves it, and nothing else written. -/
theorem clkresetZeroesClock : Obligations.ClkresetZeroesClock :=
  fun s => ⟨s.clock.clear s.params s.inp.tickReset, rfl, clear_at _ _ _⟩

/-! ### TICK and CLKRESET at a clock edge (R112, R123) -/

theorem tickFires_of_due {s : State} (h : s.tickIn ≤ 1) : s.tickFires = true := decide_eq_true h

theorem tickFires_of_not_due {s : State} (h : 1 < s.tickIn) : s.tickFires = false :=
  decide_eq_false (Nat.not_le.2 h)

/-- A TICK with no wish as to its place comes first, and CLKRESET wipes it out (log 13). -/
theorem clear_tickPoint (c : Clock) (ps : Params) (wanted : TickPoint) :
    c.clear ps (tickPoint true wanted) = c.clear ps wanted := by
  cases wanted <;> rfl

/-- The main loop's reads leave the clock as a TICK does, wherever it falls against them (R109). -/
theorem afterRead_tickPoint (c : Clock) (fires : Bool) (wanted : TickPoint) :
    c.afterRead (tickPoint fires wanted) = if fires then c.tick else c := by
  cases fires <;> cases wanted <;> rfl

theorem clockEdge_clock_of_clkReset_false {s : State} (h : s.deb.clkReset = false) :
    s.clockEdge.clock = if s.tickFires then s.clock.tick else s.clock := by
  obtain ⟨-, -, -, -, -, hclock, -⟩ := clockEdge_frame s
  rw [hclock, State.readTick, afterRead_tickPoint, State.clockAfterReset, h]
  simp

/-- CLKRESET takes the TICK of its edge before the reads do (log 14). -/
theorem clockEdge_clock_of_clkReset_of_due {s : State} (h : s.deb.clkReset = true) (ht : s.tickIn ≤ 1) :
    s.clockEdge.clock = s.clock.clear s.params s.inp.tickReset := by
  obtain ⟨-, -, -, -, -, hclock, -⟩ := clockEdge_frame s
  rw [hclock, State.readTick, afterRead_tickPoint, State.clockAfterReset, h, tickFires_of_due ht,
    ← clear_tickPoint _ _ s.inp.tickReset]
  rfl

/-- Settles O52: the four combinations of a pulse and a TICK that is due. -/
theorem clockMovesOnlyByTickOrReset : Obligations.ClockMovesOnlyByTickOrReset := by
  intro s
  refine ⟨fun hno ht => ?_, fun hno ht => ?_, clockEdge_clock_of_clkReset, fun hreset ht => ?_⟩
  · rw [clockEdge_clock_of_clkReset_false hno, tickFires_of_not_due ht]
    rfl
  · rw [clockEdge_clock_of_clkReset_false hno, tickFires_of_due ht]
    rfl
  · rw [clockEdge_clock_of_clkReset_of_due hreset ht]
    exact clear_at _ _ _

/-! ### The periodic source (R112, R128) -/

theorem edges_succ_tickIn (s : State) (k : Nat) :
    (s.edges (k + 1)).tickIn = if (s.edges k).tickIn ≤ 1 then s.params.fClkHz else (s.edges k).tickIn - 1 := by
  obtain ⟨-, -, -, -, -, -, -, -, htick⟩ := clockEdge_frame (s.edges k)
  rw [edges_succ, State.advanceInputs_tickIn, htick, edges_params, State.tickFires]
  simp

/-- Until it fires the source counts down. -/
theorem edges_tickIn_counts (s : State) {k : Nat} (hk : k < s.tickIn) :
    (s.edges k).tickIn = s.tickIn - k := by
  induction k with
  | zero => rfl
  | succ k ih =>
    have ih := ih (Nat.lt_of_succ_lt hk)
    rw [edges_succ_tickIn, if_neg (by omega), ih]
    omega

/-- The edge at which it fires reloads it. -/
theorem edges_tickIn_reloads {s : State} (h : 1 ≤ s.tickIn) : (s.edges s.tickIn).tickIn = s.params.fClkHz := by
  obtain ⟨k, hk⟩ : ∃ k, s.tickIn = k + 1 := ⟨s.tickIn - 1, by omega⟩
  have hlast := edges_tickIn_counts s (k := k) (by omega)
  rw [hk, edges_succ_tickIn, if_pos (by omega)]

/-- From one reload to the next it takes F_CLK_HZ edges, by induction on the reloads. -/
theorem edges_tickIn_periodic {s : State} (hF : 1 ≤ s.params.fClkHz) (h : 1 ≤ s.tickIn) (n : Nat) :
    (s.edges (s.tickIn + n * s.params.fClkHz)).tickIn = s.params.fClkHz := by
  induction n with
  | zero => rw [Nat.zero_mul]; exact edges_tickIn_reloads h
  | succ n ih =>
    have hagain := edges_tickIn_reloads (ih ▸ hF)
    rw [ih, edges_params, ← edges_add] at hagain
    rw [Nat.succ_mul, ← Nat.add_assoc]
    exact hagain

/-- Settles O53: the first countdown, and every one after it from its reload. -/
theorem tickEveryClockRate : Obligations.TickEveryClockRate := by
  intro s n hF h
  refine ⟨fun k hk => edges_tickIn_counts s hk, fun k hk => ?_⟩
  have hreload := edges_tickIn_periodic hF h n
  rw [edges_add, edges_tickIn_counts _ (by rw [hreload]; exact hk), hreload]

end Sys2Proof.Machine
end

section
/-! The voltage tracker and the operand of SHOWVOLTS (spec/44_environment.md R103 to R105). -/

namespace Sys2Proof.Machine

/-- Settles O47: each extreme is the old one or the new voltage, whichever is further out. -/
theorem vupdateTracksExtremes : Obligations.VupdateTracksExtremes :=
  fun s => ⟨s.volt.update s.params s.inp.sample, rfl, rfl, min_le_right _ _, le_max_right _ _, min_le_left _ _,
    le_max_left _ _, min_choice _ _, max_choice _ _⟩

/-- Whatever it does with a tie, `round` answers a nearest integer (R105, ENV_ROUND). -/
theorem roundNearest_near (x : Rat) :
    x - 1 / 2 ≤ (roundNearest x : Rat) ∧ (roundNearest x : Rat) ≤ x + 1 / 2 := by
  have hle : (x.floor : Rat) ≤ x := Rat.floor_le x
  have hlt : x < (x.floor : Rat) + 1 := by exact_mod_cast Rat.lt_floor_add_one x
  unfold roundNearest
  split
  case isTrue hbelow => constructor <;> linarith
  case isFalse hbelow =>
    split
    case isTrue habove => push_cast; constructor <;> linarith
    case isFalse habove =>
      split
      · push_cast
        constructor <;> linarith
      · constructor <;> linarith

/-- Hundredths of a voltage of at most 3.3 V round to 0..330. -/
theorem roundNearest_hundredths {v : Rat} (h0 : 0 ≤ v) (h1 : v ≤ 33 / 10) :
    0 ≤ roundNearest (v * 100) ∧ roundNearest (v * 100) ≤ 330 := by
  obtain ⟨hlow, hhigh⟩ := roundNearest_near (v * 100)
  have hlow' : ((-1 : Int) : Rat) < roundNearest (v * 100) := by push_cast; linarith
  have hhigh' : (roundNearest (v * 100) : Rat) < ((331 : Int) : Rat) := by push_cast; linarith
  have := Int.cast_lt.1 hlow'
  have := Int.cast_lt.1 hhigh'
  omega

/-- An integer that VALUE_WIDTH bits hold is its own operand. -/
theorem valueOperand_of_fits {vw : Nat} {n : Int} (h0 : 0 ≤ n) (h1 : n < 2 ^ vw) :
    (valueOperand vw n : Int) = n := by
  rw [valueOperand, if_pos ⟨h0, h1⟩, Int.toNat_of_nonneg h0]

/-- Settles O48: a rounded voltage of 0 to 3.3 V is in 0..330, which every legal VALUE_WIDTH holds. -/
theorem voltsValueIsNearestInteger : Obligations.VoltsValueIsNearestInteger := by
  refine ⟨roundNearest_near, fun vw v hvw h0 h1 => ?_, fun vw v => valueOperand_lt _ _⟩
  obtain ⟨hlow, hhigh⟩ := roundNearest_hundredths h0 h1
  have hwidth : (10000 : Int) < 2 ^ vw := by exact_mod_cast hvw
  have hvalue : ((voltsCmd vw v).value : Int) = roundNearest (v * 100) :=
    valueOperand_of_fits hlow (by omega)
  exact ⟨hvalue, by omega⟩

end Sys2Proof.Machine
end

section
/-! The command the mode button asks for, and MODESEL (spec/44_environment.md R105, R107, R109). -/

namespace Sys2Proof.Machine

/-- `value` is `minutes * 100 + seconds` of the clock as the two reads of R109 find it against the TICK of this
edge. -/
def State.ReadsClock (s : State) (value : Nat) : Prop :=
  ∃ m sec, value = m * 100 + sec ∧
    (1 < s.tickIn ∨ s.inp.tickRead = .after →
      m = s.clock.minutes.val ∧ sec = s.clock.seconds.val) ∧
    (s.tickIn ≤ 1 → s.inp.tickRead = .never ∨ s.inp.tickRead = .before →
      m = s.clock.tick.minutes.val ∧ sec = s.clock.tick.seconds.val) ∧
    (s.tickIn ≤ 1 → s.inp.tickRead = .between → s.params.readMinutesFirst = true →
      m = s.clock.minutes.val ∧ sec = s.clock.tick.seconds.val) ∧
    (s.tickIn ≤ 1 → s.inp.tickRead = .between → s.params.readMinutesFirst = false →
      m = s.clock.tick.minutes.val ∧ sec = s.clock.seconds.val)

/-- `c` is what R105 asks for at this edge: `volts` with the point at 1 while the mode button is pressed, else
the clock without a point, which is 0 when CLKRESET is answered at the edge and no TICK is due. -/
def State.AsksFor (s : State) (volts : Rat) (c : Cmd) : Prop :=
  (s.inp.modeN = false →
    c = ⟨true, 1, valueOperand s.params.valueWidth (roundNearest (volts * 100))⟩) ∧
  (s.inp.modeN = true →
    c.dpEn = false ∧
    (s.deb.clkReset = true → 1 < s.tickIn → c.value = 0) ∧
    (s.deb.clkReset = false → s.ReadsClock c.value))

/-- The two reads, place by place of the TICK (R109). -/
theorem readsClock_read (s : State) :
    s.ReadsClock
      ((s.clock.read s.params (tickPoint s.tickFires s.inp.tickRead)).1.val * 100 +
        (s.clock.read s.params (tickPoint s.tickFires s.inp.tickRead)).2.val) := by
  refine ⟨_, _, rfl, ?_, fun hdue hplace => ?_, fun hdue hplace horder => ?_, fun hdue hplace horder => ?_⟩
  · rintro (hnot | hplace)
    · rw [tickFires_of_not_due hnot]
      exact ⟨rfl, rfl⟩
    · rw [hplace]
      cases s.tickFires <;> exact ⟨rfl, rfl⟩
  · rw [tickFires_of_due hdue]
    rcases hplace with hplace | hplace <;> rw [hplace] <;> exact ⟨rfl, rfl⟩
  · rw [tickFires_of_due hdue, hplace]
    simp [tickPoint, Clock.read, horder]
  · rw [tickFires_of_due hdue, hplace]
    simp [tickPoint, Clock.read, horder]

/-- What MODESEL and the main loop form is what R105 asks for. -/
theorem modeCmd_asksFor (s : State) (volts : Rat) :
    s.AsksFor volts (modeCmd s.params s.inp.modeN volts s.clockAfterReset s.readTick) := by
  refine ⟨fun hpressed => ?_, fun hidle => ?_⟩
  · rw [hpressed]
    rfl
  · rw [hidle]
    refine ⟨rfl, fun hreset ht => ?_, fun hno => ?_⟩
    · simp [modeCmd, pressed, clockCmd, State.clockAfterReset, State.readTick, hreset, tickFires_of_not_due ht,
        tickPoint, Clock.clear, Clock.read]
    · have hread := readsClock_read s
      have hclock : s.clockAfterReset = s.clock := by simp [State.clockAfterReset, hno]
      have htick : s.readTick = tickPoint s.tickFires s.inp.tickRead := by simp [State.readTick, hno]
      rw [← hclock, ← htick] at hread
      exact hread

/-- Once its blocks are ready MODESEL is one RENDER of the command of R105 (R107). -/
theorem exec_modesel_ready {s : State} (hi : s.disp.phase = .idle) (hp : s.deb.phase = .ready)
    (hs : s.NoReset) : exec .modesel s = .next (s.afterRender s.modeCmdNow) := by
  show execModesel s = _
  rw [execModesel, if_pos (hostMayProceed_iff.2 ⟨hi, hp, hs.1⟩), runRender_spec hs]
  rfl

/-- Settles O49: the RENDER of R75, of the command that R105 asks for. -/
theorem modeselCompletes : Obligations.ModeselCompletes := by
  intro s hi hp hs hpins hN
  obtain ⟨-, hdisp, hrecv, hwire⟩ := afterRender_sameDisplay hi hs hpins hN s.modeCmdNow
  rw [render_spec hpins hN] at hdisp hrecv hwire
  exact ⟨s.modeCmdNow, exec_modesel_ready hi hp hs, hdisp, hrecv, hwire, modeCmd_asksFor s _⟩

theorem hostMayProceed_eq_false {s : State}
    (h : s.disp.phase ≠ .idle ∨ s.deb.phase = .block ∨ s.inp.rst = true) : s.hostMayProceed = false := by
  refine Bool.eq_false_iff.2 fun hproceed => ?_
  obtain ⟨hidle, hready, hrst⟩ := hostMayProceed_iff.1 hproceed
  rcases h with hbusy | hblock | hreset
  · exact hbusy hidle
  · exact DbPhase.noConfusion (hready.symm.trans hblock)
  · exact Bool.false_ne_true (hrst.symm.trans hreset)

/-- Settles O51: neither operation may proceed, so both stall: an ordinary clock edge passes and they stay
requested (log 19). -/
theorem loopOperationsWaitForBlocks : Obligations.LoopOperationsWaitForBlocks := by
  intro s h
  have hstay : ¬ s.hostMayProceed = true := Bool.eq_false_iff.1 (hostMayProceed_eq_false h)
  exact ⟨if_neg hstay, if_neg hstay⟩

end Sys2Proof.Machine
end

section
/-! The main loop at a clock edge (spec/44_environment.md R107): what it drives and where it goes from each place,
when it updates the tracker, and how it keeps its handshake with the two blocks. -/

namespace Sys2Proof.Machine

/-! ### Where the main loop forms its command -/

theorem hostForms_iff {s : State} :
    s.hostForms = true ↔
      (s.host = .waitPass ∧ s.deb.dbPass = true ∧ s.inp.overhead = 0) ∨ ∃ k, s.host = .work k ∧ k ≤ 1 := by
  unfold State.hostForms
  cases s.host <;> simp

theorem voltAfter_of_forms {s : State} (h : s.hostForms = true) :
    s.voltAfter = s.volt.update s.params s.inp.sample := if_pos h

theorem voltAfter_of_not_forms {s : State} (h : s.hostForms = false) : s.voltAfter = s.volt :=
  if_neg (Bool.eq_false_iff.1 h)

/-- A command on a port that no request has taken is accepted or held, as the display is ready or not (R107). -/
theorem presented_mine (s : State) (c : Cmd) :
    s.presented true c = if s.disp.phase = .idle then .waitDone else .present c := by
  simp [State.presented, State.cmdReady]

/-! ### From each place: what is driven, and the next place (R107) -/

section
variable {s : State}

theorem drive_of_forms (h : s.hostForms = true) : s.drive = ⟨false, some s.formedCmd⟩ := by
  rcases hostForms_iff.1 h with ⟨hh, -⟩ | ⟨k, hh, -⟩ <;> simp only [State.drive, hh, h, if_true]

theorem hostAfter_of_forms (h : s.hostForms = true) (mine : Bool) :
    s.hostAfter mine = s.presented mine s.formedCmd := by
  rcases hostForms_iff.1 h with ⟨hh, -⟩ | ⟨k, hh, -⟩ <;> simp only [State.hostAfter, hh, h, if_true]

theorem drive_step1 (h : s.host = .step1) : s.drive = ⟨true, none⟩ := by
  simp only [State.drive, h]

theorem hostAfter_step1 (h : s.host = .step1) (mine : Bool) : s.hostAfter mine = .waitPass := by
  simp only [State.hostAfter, h]

theorem hostForms_waitPass (h : s.host = .waitPass) :
    s.hostForms = (s.deb.dbPass && s.inp.overhead == 0) := by
  simp only [State.hostForms, h]

theorem drive_waitPass (h : s.host = .waitPass) (hf : s.hostForms = false) : s.drive = ⟨false, none⟩ := by
  simp [State.drive, h, hf]

theorem hostAfter_waitPass (h : s.host = .waitPass) (hf : s.hostForms = false) (mine : Bool) :
    s.hostAfter mine = if s.deb.dbPass then .work s.inp.overhead else .waitPass := by
  simp [State.hostAfter, h, hf]

theorem hostForms_work {k : Nat} (h : s.host = .work k) : s.hostForms = decide (k ≤ 1) := by
  simp only [State.hostForms, h]

theorem drive_work {k : Nat} (h : s.host = .work k) (hf : s.hostForms = false) : s.drive = ⟨false, none⟩ := by
  simp [State.drive, h, hf]

theorem hostAfter_work {k : Nat} (h : s.host = .work k) (hf : s.hostForms = false) (mine : Bool) :
    s.hostAfter mine = .work (k - 1) := by
  simp [State.hostAfter, h, hf]

theorem drive_present {c : Cmd} (h : s.host = .present c) : s.drive = ⟨false, some c⟩ := by
  simp only [State.drive, h]

theorem hostAfter_present {c : Cmd} (h : s.host = .present c) (mine : Bool) :
    s.hostAfter mine = s.presented mine c := by
  simp only [State.hostAfter, h]

theorem drive_waitDone (h : s.host = .waitDone) : s.drive = ⟨s.disp.done, none⟩ := by
  simp only [State.drive, h]

theorem hostAfter_waitDone (h : s.host = .waitDone) (mine : Bool) :
    s.hostAfter mine = if s.disp.done then .waitPass else .waitDone := by
  simp only [State.hostAfter, h]

theorem drive_off (h : s.host = .off) :
    s.drive = ⟨s.inp.sampleEn,
      if s.inp.cmdValid then some (s.inp.cmd.onPort s.params.valueWidth) else none⟩ := by
  simp only [State.drive, h]

end

theorem clockEdge_host (s : State) : s.clockEdge.host = s.hostAfter true := by
  obtain ⟨-, -, -, -, -, -, -, hhost, -⟩ := clockEdge_frame s
  exact hhost

theorem clockEdge_volt (s : State) : s.clockEdge.volt = s.voltAfter := by
  obtain ⟨-, -, -, -, -, -, hvolt, -⟩ := clockEdge_frame s
  exact hvolt

/-- A main loop whose command a request keeps off the port goes on holding it (log 5). -/
theorem clockEdgeWith_holds {s : State} {c : Cmd} (h : ∀ mine, s.hostAfter mine = s.presented mine c) (b : Bool)
    (d : Cmd) : (s.clockEdgeWith ⟨b, some d⟩).host = .present c := by
  obtain ⟨-, -, -, -, -, -, -, hhost, -⟩ := clockEdgeWith_frame s ⟨b, some d⟩
  exact hhost.trans (h false)

/-- Settles O55: the edge at which the command is formed, and the arms of R107 place by place. -/
theorem mainLoopUpdatesAndPresents : Obligations.MainLoopUpdatesAndPresents := by
  intro s
  dsimp only
  rw [← hostForms_iff, clockEdge_volt, clockEdge_host]
  refine ⟨fun hf => ?_, fun hf => voltAfter_of_not_forms (Bool.eq_false_iff.2 hf), fun hh => ?_,
    fun hh hno => ?_, fun hh hpass hover => ?_, fun k hh hk => ?_, fun c hh => ?_, fun hh hno => ?_, fun hh hdone => ?_,
    fun hh => ?_⟩
  · have hvolt := voltAfter_of_forms hf
    have hasks := modeCmd_asksFor s s.voltAfter.currentVoltage
    refine ⟨hvolt, s.formedCmd, drive_of_forms hf, ?_, clockEdgeWith_holds (hostAfter_of_forms hf), ?_⟩
    · rw [hostAfter_of_forms hf, presented_mine]
    · rw [hvolt] at hasks
      rw [State.formedCmd, hvolt]
      exact hasks
  · exact ⟨drive_step1 hh, hostAfter_step1 hh true⟩
  · have hf : s.hostForms = false := by simp [hostForms_waitPass hh, hno]
    rw [hostAfter_waitPass hh hf, hno]
    exact ⟨drive_waitPass hh hf, rfl⟩
  · have hf : s.hostForms = false := by simp [hostForms_waitPass hh, hover]
    rw [hostAfter_waitPass hh hf, hpass]
    exact ⟨drive_waitPass hh hf, rfl⟩
  · have hf : s.hostForms = false := by simp [hostForms_work hh, hk]
    exact ⟨drive_work hh hf, hostAfter_work hh hf true⟩
  · refine ⟨drive_present hh, ?_, clockEdgeWith_holds (hostAfter_present hh)⟩
    rw [hostAfter_present hh, presented_mine]
  · rw [drive_waitDone hh, hostAfter_waitDone hh, hno]
    exact ⟨rfl, rfl⟩
  · rw [drive_waitDone hh, hostAfter_waitDone hh, hdone]
    exact ⟨rfl, rfl⟩
  · exact ⟨hostAfter_off hh true, drive_off hh⟩

/-! ### The handshake (R107) -/

section
variable {s : State} (hr : s.inp.rst = false)
include hr

/-- An edge with no command and no sample leaves an idle display and a ready debouncer so. -/
theorem clockEdge_quiet (hd : s.drive = ⟨false, none⟩) (hi : s.disp.phase = .idle) :
    s.clockEdge.disp.phase = .idle ∧ (s.deb.phase = .ready → s.clockEdge.deb.phase = .ready) := by
  refine ⟨?_, fun hready => ?_⟩
  · rw [(clockEdge_idle_none hr hi (by rw [hd])).disp]
    exact hi
  · rw [clockEdge_deb hr, hd, debouncerEdge_unsampled hready]

/-- The sample of step 1, at an edge at which both blocks are idle: the debouncer then owes a `db_pass`, or has
raised it (R91). -/
theorem sampling_keeps_inStep (hd : s.drive = ⟨true, none⟩) (hh : s.hostAfter true = .waitPass)
    (hi : s.disp.phase = .idle) (hready : s.deb.phase = .ready) : s.clockEdge.HostInStep := by
  have hidle : s.clockEdge.disp.phase = .idle := by
    rw [(clockEdge_idle_none hr hi (by rw [hd])).disp]
    exact hi
  have hsampled : s.clockEdge.deb.phase = .block ∨ s.clockEdge.deb.dbPass = true := by
    rw [clockEdge_deb hr, hd]
    cases s.inp.btnN with
    | false => rw [debouncerEdge_pressed hready]; exact .inl rfl
    | true => rw [debouncerEdge_unpressed hready]; exact .inr rfl
  rw [State.HostInStep, clockEdge_host, hh]
  exact ⟨hidle, hsampled⟩

/-- A command presented while the debouncer is ready: it is accepted and the display is then busy, or it is held
on (R82). -/
theorem presenting_keeps_inStep {c : Cmd} (hd : s.drive = ⟨false, some c⟩)
    (hh : s.hostAfter true = s.presented true c) (hready : s.deb.phase = .ready) : s.clockEdge.HostInStep := by
  have hready' : s.clockEdge.deb.phase = .ready := by
    rw [clockEdge_deb hr, hd, debouncerEdge_unsampled hready]
  rw [State.HostInStep, clockEdge_host, hh, presented_mine]
  by_cases hi : s.disp.phase = .idle
  · rw [if_pos hi]
    refine ⟨hready', .inl ?_⟩
    rw [(clockEdge_idle_some hr hi (by rw [hd])).disp]
    exact Phase.noConfusion
  · rw [if_neg hi]
    exact hready'

end

/-- A busy sequencer stays busy or ends its render with `done` (R83, R85). -/
theorem seqEdge_busy_or_done {s : State} (h : s.disp.phase ≠ .idle) (cmd : Option Cmd) :
    (s.seqEdge cmd).disp.phase ≠ .idle ∨ (s.seqEdge cmd).disp.done = true := by
  cases hp : s.disp.phase
  case idle => exact absurd hp h
  case latchLo => rw [seqEdge_latchLo hp]; exact .inl Phase.noConfusion
  case bitData => rw [seqEdge_bitData hp]; exact .inl Phase.noConfusion
  case bitClkHi => rw [seqEdge_bitClkHi hp]; exact .inl Phase.noConfusion
  case bitClkLo =>
    by_cases hb : s.disp.bitcnt = 15
    · rw [seqEdge_bitClkLo_last hp hb]; exact .inl Phase.noConfusion
    · rw [seqEdge_bitClkLo_next hp hb]; exact .inl Phase.noConfusion
  case latchHi => rw [seqEdge_latchHi hp]; exact .inl Phase.noConfusion
  case dwell =>
    by_cases hc : 1 < s.disp.dwellCnt
    · rw [seqEdge_dwell_wait hp hc]; exact .inl h
    · by_cases hpos : s.disp.pos = 3
      · rw [seqEdge_dwell_end hp (Nat.not_lt.1 hc) hpos]; exact .inr rfl
      · rw [seqEdge_dwell_next hp (Nat.not_lt.1 hc) hpos]; exact .inl Phase.noConfusion

/-- A debouncer that blocks goes on blocking or raises `db_pass` (R92, R94). -/
theorem debouncerEdge_blocks_or_passes {d : Debouncer} (h : d.phase = .block) (ps : Params) (en btnN : Bool) :
    (d.edge ps en btnN).phase = .block ∨ (d.edge ps en btnN).dbPass = true := by
  rw [debouncerEdge_blocked h]
  by_cases hc : 1 < d.cnt
  · rw [clearPulses_wait_counts h hc]; exact .inl rfl
  · rw [clearPulses_wait_passes (Nat.not_lt.1 hc)]; exact .inr rfl

/-- While it waits for `db_pass` the main loop is in step. -/
theorem waitPass_keeps_inStep {s : State} (h : s.HostInStep) (hpulses : s.PulsesApart) (hr : s.inp.rst = false)
    (hh : s.host = .waitPass) : s.clockEdge.HostInStep := by
  rw [State.HostInStep, hh] at h
  obtain ⟨hi, howed⟩ := h
  obtain ⟨-, -, hpassed⟩ := hpulses
  cases hf : s.hostForms with
  | true =>
    obtain ⟨hpass, -⟩ : s.deb.dbPass = true ∧ _ := by simpa [hostForms_waitPass hh] using hf
    exact presenting_keeps_inStep hr (drive_of_forms hf) (hostAfter_of_forms hf true) (hpassed hpass)
  | false =>
    obtain ⟨hidle, hready⟩ := clockEdge_quiet hr (drive_waitPass hh hf) hi
    rw [State.HostInStep, clockEdge_host, hostAfter_waitPass hh hf]
    cases hpass : s.deb.dbPass with
    | true => exact ⟨hidle, hready (hpassed hpass)⟩
    | false =>
      have hblock := howed.resolve_right (Bool.eq_false_iff.1 hpass)
      refine ⟨hidle, ?_⟩
      rw [clockEdge_deb hr]
      exact debouncerEdge_blocks_or_passes hblock _ _ _

theorem work_keeps_inStep {s : State} (h : s.HostInStep) (hr : s.inp.rst = false) {k : Nat}
    (hh : s.host = .work k) : s.clockEdge.HostInStep := by
  rw [State.HostInStep, hh] at h
  obtain ⟨hi, hp⟩ := h
  cases hf : s.hostForms with
  | true => exact presenting_keeps_inStep hr (drive_of_forms hf) (hostAfter_of_forms hf true) hp
  | false =>
    obtain ⟨hidle, hready⟩ := clockEdge_quiet hr (drive_work hh hf) hi
    rw [State.HostInStep, clockEdge_host, hostAfter_work hh hf]
    exact ⟨hidle, hready hp⟩

/-- `done` is the end of the wait, and the sample of the next iteration comes with it. -/
theorem waitDone_keeps_inStep {s : State} (h : s.HostInStep) (hpulses : s.PulsesApart) (hr : s.inp.rst = false)
    (hh : s.host = .waitDone) : s.clockEdge.HostInStep := by
  rw [State.HostInStep, hh] at h
  obtain ⟨hready, howed⟩ := h
  obtain ⟨hdoneIdle, -⟩ := hpulses
  have hdrive := drive_waitDone hh
  have hnext := hostAfter_waitDone hh true
  cases hdone : s.disp.done with
  | true =>
    rw [hdone] at hdrive hnext
    exact sampling_keeps_inStep hr hdrive hnext (hdoneIdle hdone) hready
  | false =>
    rw [hdone] at hdrive hnext
    have hbusy := howed.resolve_right (Bool.eq_false_iff.1 hdone)
    rw [State.HostInStep, clockEdge_host, hnext]
    refine ⟨?_, ?_⟩
    · rw [clockEdge_deb hr, hdrive, debouncerEdge_unsampled hready]
    · rw [(clockEdge_sameDisplay hr).disp]
      exact seqEdge_busy_or_done hbusy _

/-- A clock edge without reset keeps a main loop in step, from each of its places. -/
theorem clockEdge_keeps_inStep {s : State} (h : s.HostInStep) (hpulses : s.PulsesApart)
    (hr : s.inp.rst = false) : s.clockEdge.HostInStep := by
  cases hh : s.host with
  | off =>
    rw [State.HostInStep, clockEdge_host, hostAfter_off hh]
    trivial
  | step1 =>
    rw [State.HostInStep, hh] at h
    exact sampling_keeps_inStep hr (drive_step1 hh) (hostAfter_step1 hh true) h.1 h.2
  | waitPass => exact waitPass_keeps_inStep h hpulses hr hh
  | work k => exact work_keeps_inStep h hr hh
  | present c =>
    rw [State.HostInStep, hh] at h
    exact presenting_keeps_inStep hr (drive_present hh) (hostAfter_present hh true) h
  | waitDone => exact waitDone_keeps_inStep h hpulses hr hh

/-- A main loop in step raises `sample_en` only when neither block is busy. -/
theorem inStep_samples {s : State} (h : s.HostInStep) (hpulses : s.PulsesApart) (hon : s.host ≠ .off)
    (hd : s.drive.sampleEn = true) : s.disp.phase = .idle ∧ s.deb.phase = .ready := by
  unfold State.drive at hd
  unfold State.HostInStep at h
  cases hh : s.host <;> simp only [hh] at hd h
  case off => exact absurd hh hon
  case step1 => exact h
  case waitPass | work | present => cases hd
  case waitDone => exact ⟨hpulses.1 hd, h.1⟩

/-- It presents a command only when the debouncer is ready. -/
theorem inStep_presents {s : State} (h : s.HostInStep) (hpulses : s.PulsesApart) (hon : s.host ≠ .off)
    (hd : s.drive.cmd ≠ none) : s.deb.phase = .ready := by
  obtain ⟨-, -, hpassed⟩ := hpulses
  unfold State.HostInStep at h
  cases hh : s.host <;> simp only [hh] at h
  case off => exact absurd hh hon
  case step1 => exact absurd (congrArg Drive.cmd (drive_step1 hh)) hd
  case waitPass =>
    cases hf : s.hostForms with
    | true => exact hpassed (by simpa [hostForms_waitPass hh] using hf : s.deb.dbPass = true ∧ _).1
    | false => exact absurd (congrArg Drive.cmd (drive_waitPass hh hf)) hd
  case work => exact h.2
  case present => exact h
  case waitDone => exact h.1

/-- Settles O54: the step, its use, and the start. -/
theorem hostKeepsHandshake : Obligations.HostKeepsHandshake := by
  refine ⟨fun s h hpulses hr => clockEdge_keeps_inStep h hpulses hr,
    fun s h hpulses hon => ⟨fun hd => ?_, fun hd => ?_⟩, rfl, rfl⟩
  · obtain ⟨hidle, hready⟩ := inStep_samples h hpulses hon hd
    simp [State.busy, State.dbBusy, hidle, hready]
  · simp [State.dbBusy, inStep_presents h hpulses hon hd]

end Sys2Proof.Machine
end

section
/-! One iteration of LOOP (spec/44_environment.md R106, R107, spec/43_button_debouncer.md R90 to R92,
spec/70_reset_and_hazards.md R148, R156): the edges from the sample to `db_pass`, the loop overhead, and the render
of the main loop's command. -/

namespace Sys2Proof.Machine

/-! ### While no command is presented -/

/-- Since `s` the tracker, the receiver and the wire are as they were, and so is the display but for `done`. -/
structure Untouched (s t : State) : Prop where
  params : t.params = s.params
  volt : t.volt = s.volt
  disp : t.disp = { s.disp with done := t.disp.done }
  recv : t.recv = s.recv
  wire : t.wire = s.wire

theorem Untouched.refl (s : State) : Untouched s s := ⟨rfl, rfl, rfl, rfl, rfl⟩

section
variable {s t u : State}

theorem Untouched.trans (h : Untouched s t) (k : Untouched t u) : Untouched s u :=
  ⟨k.params.trans h.params, k.volt.trans h.volt,
    k.disp.trans (congrArg (fun d : Display => { d with done := u.disp.done }) h.disp),
    k.recv.trans h.recv, k.wire.trans h.wire⟩

theorem Untouched.phase (h : Untouched s t) : t.disp.phase = s.disp.phase := by
  rw [h.disp]

theorem Untouched.pinsAtRest (h : Untouched s t) (hp : s.PinsAtRest) : t.PinsAtRest :=
  ⟨by rw [h.disp]; exact hp.1, by rw [h.disp]; exact hp.2⟩

/-- What a whole render leaves does not depend on where `done` was (R75). -/
theorem Untouched.rendered (h : Untouched s t) (c : Cmd) : SameDisplay (t.rendered c) (s.rendered c) :=
  ⟨h.params, rfl, by simp only [State.rendered, h.params], by simp only [State.rendered, h.params, h.wire]⟩

end

theorem nextEdge_host (s : State) : s.nextEdge.host = s.hostAfter true := by
  rw [State.nextEdge, State.advanceInputs_host, clockEdge_host]

theorem nextEdge_volt (s : State) : s.nextEdge.volt = s.voltAfter := by
  rw [State.nextEdge, State.advanceInputs_volt, clockEdge_volt]

theorem nextEdge_deb {s : State} (hr : s.inp.rst = false) :
    s.nextEdge.deb = s.deb.edge s.params s.drive.sampleEn s.inp.btnN := by
  rw [State.nextEdge, State.advanceInputs_deb, clockEdge_deb hr]

/-- An edge of an idle display at which the main loop forms and presents no command. -/
theorem nextEdge_untouched {s : State} (hr : s.inp.rst = false) (hi : s.disp.phase = .idle)
    (hf : s.hostForms = false) (hd : s.drive.cmd = none) : Untouched s s.nextEdge := by
  have hedge := sameDisplay_trans (advanceInputs_sameDisplay _) (clockEdge_idle_none hr hi hd)
  exact ⟨nextEdge_params s, (nextEdge_volt s).trans (voltAfter_of_not_forms hf),
    by rw [State.nextEdge, hedge.disp], hedge.recv, hedge.wire⟩

/-! ### Step 1: the sample and the wait for `db_pass` -/

/-- Until `db_pass` comes the main loop waits for it, and touches nothing. -/
theorem edges_waitPass {s : State} (hs : s.NoReset) (hi : s.disp.phase = .idle) (hh : s.host = .waitPass)
    {n : Nat} (hno : ∀ j, j < n → (s.edges j).deb.dbPass = false) :
    (s.edges n).host = .waitPass ∧ Untouched s (s.edges n) := by
  induction n with
  | zero => exact ⟨hh, .refl s⟩
  | succ n ih =>
    obtain ⟨hwait, hsame⟩ := ih fun j hj => hno j (Nat.lt_succ_of_lt hj)
    have hpass := hno n (Nat.lt_succ_self n)
    have hf : (s.edges n).hostForms = false := by simp [hostForms_waitPass hwait, hpass]
    refine ⟨(nextEdge_host _).trans ?_,
      hsame.trans (nextEdge_untouched (NoReset_edges hs n).1 (hsame.phase.trans hi) hf ?_)⟩
    · rw [hostAfter_waitPass hwait hf, hpass]
      rfl
    · rw [drive_waitPass hwait hf]

/-- The debouncer while the main loop waits: no `db_pass` until the debounce interval, if any, is over, and then
one (R91, R92). -/
theorem edges_loopStep1_deb {s : State} (hs : s.NoReset) (hp : s.deb.phase = .ready)
    (hM : 1 ≤ s.params.debounceCycles) (hh : s.host = .step1) :
    (∀ j, j < loopBlock s → (s.edges (1 + j)).deb.dbPass = false) ∧
    (s.edges (1 + loopBlock s)).deb =
      ⟨.ready, if s.inp.btnN = false then 1 else s.deb.cnt, false, true⟩ := by
  have hd := drive_step1 hh
  cases hb : s.inp.btnN with
  | true =>
    rw [show loopBlock s = 0 by simp [loopBlock, pressed, hb]]
    refine ⟨fun j hj => absurd hj (Nat.not_lt_zero j), (nextEdge_deb hs.1).trans ?_⟩
    rw [hd, hb, debouncerEdge_unpressed hp]
    rfl
  | false =>
    obtain ⟨hfirst, hcounts, hpasses⟩ := blockLastsDebounceCycles s hs hM hp (by rw [hd]) hb
    rw [show loopBlock s = s.params.debounceCycles by simp [loopBlock, pressed, hb]]
    refine ⟨fun j hj => ?_, hpasses⟩
    rcases Nat.eq_zero_or_pos j with rfl | hpos
    · rw [hfirst]
    · rw [hcounts j hpos hj]

/-- Step 1 as a whole, from the sampling edge to the state in which `db_pass` has come: nothing is touched (R106,
R107). -/
theorem edges_loopStep1 {s : State} (hs : s.NoReset) (hi : s.disp.phase = .idle) (hp : s.deb.phase = .ready)
    (hM : 1 ≤ s.params.debounceCycles) (hh : s.host = .step1) :
    (s.edges (1 + loopBlock s)).host = .waitPass ∧
    (s.edges (1 + loopBlock s)).deb = ⟨.ready, if s.inp.btnN = false then 1 else s.deb.cnt, false, true⟩ ∧
    ∀ j, j ≤ 1 + loopBlock s → Untouched s (s.edges j) := by
  obtain ⟨hno, hpass⟩ := edges_loopStep1_deb hs hp hM hh
  have hsame : Untouched s (s.edges 1) :=
    nextEdge_untouched hs.1 hi (by simp only [State.hostForms, hh]) (by rw [drive_step1 hh])
  have hwait : (s.edges 1).host = .waitPass := (nextEdge_host s).trans (hostAfter_step1 hh true)
  have hwaits : ∀ n, n ≤ loopBlock s →
      (s.edges (1 + n)).host = .waitPass ∧ Untouched (s.edges 1) (s.edges (1 + n)) := by
    intro n hn
    rw [edges_add]
    refine edges_waitPass (NoReset_edges hs 1) (hsame.phase.trans hi) hwait fun j hj => ?_
    rw [← edges_add]
    exact hno j (by omega)
  refine ⟨(hwaits _ (Nat.le_refl _)).1, hpass, fun j hj => ?_⟩
  cases j with
  | zero => exact .refl s
  | succ j =>
    rw [Nat.add_comm j]
    exact hsame.trans (hwaits j (by omega)).2

/-! ### The loop overhead -/

/-- `db_pass` has come, and `n` edges of loop overhead are left before the main loop forms its command (R106). -/
def State.FormsIn (s : State) (n : Nat) : Prop :=
  (s.host = .waitPass ∧ s.deb.dbPass = true ∧ s.inp.overhead = n) ∨ ∃ k, s.host = .work k ∧ k - 1 = n

theorem formsIn_zero {s : State} (h : s.FormsIn 0) : s.hostForms = true :=
  hostForms_iff.2 (h.imp_right fun ⟨k, hh, hk⟩ => ⟨k, hh, by omega⟩)

/-- An edge of the overhead: nothing is driven, and one edge less is left. -/
theorem formsIn_succ {s : State} {n : Nat} (h : s.FormsIn (n + 1)) :
    s.hostForms = false ∧ s.drive = ⟨false, none⟩ ∧ s.nextEdge.FormsIn n := by
  rcases h with ⟨hh, hpass, hover⟩ | ⟨k, hh, hk⟩
  · have hf : s.hostForms = false := by simp [hostForms_waitPass hh, hover]
    refine ⟨hf, drive_waitPass hh hf, .inr ⟨n + 1, ?_, rfl⟩⟩
    rw [nextEdge_host, hostAfter_waitPass hh hf, hpass, hover]
    rfl
  · have hf : s.hostForms = false := by simp [hostForms_work hh]; omega
    refine ⟨hf, drive_work hh hf, .inr ⟨k - 1, ?_, by omega⟩⟩
    rw [nextEdge_host, hostAfter_work hh hf]

/-- The overhead touches nothing, and the debouncer stays ready at its count. -/
theorem edges_overhead {n : Nat} : ∀ {s : State}, s.NoReset → s.disp.phase = .idle → s.deb.phase = .ready →
    s.FormsIn n →
    (s.edges n).hostForms = true ∧ (s.edges n).deb.phase = .ready ∧ (s.edges n).deb.cnt = s.deb.cnt ∧
    ∀ j, j ≤ n → Untouched s (s.edges j) := by
  induction n with
  | zero =>
    intro s _ _ hp h
    refine ⟨formsIn_zero h, hp, rfl, fun j hj => ?_⟩
    obtain rfl : j = 0 := by omega
    exact .refl s
  | succ n ih =>
    intro s hs hi hp h
    obtain ⟨hf, hd, hnext⟩ := formsIn_succ h
    have hsame := nextEdge_untouched hs.1 hi hf (by rw [hd])
    have hdeb : s.nextEdge.deb = ⟨.ready, s.deb.cnt, false, false⟩ := by
      rw [nextEdge_deb hs.1, hd, debouncerEdge_unsampled hp]
    obtain ⟨hforms, hready, hcnt, huntil⟩ :=
      ih (s := s.nextEdge) (NoReset_edges hs 1) (hsame.phase.trans hi) (by rw [hdeb]) hnext
    rw [edges_succ_next]
    refine ⟨hforms, hready, hcnt.trans (by rw [hdeb]), fun j hj => ?_⟩
    cases j with
    | zero => exact .refl s
    | succ j =>
      rw [edges_succ_next]
      exact hsame.trans (huntil j (by omega))

/-! ### The command and its render -/

section
variable {s : State} (hs : s.NoReset) (hi : s.disp.phase = .idle) (hpins : s.PinsAtRest)
  (hN : 1 ≤ s.params.dwellCycles) (hf : s.hostForms = true)
include hs hi hpins hN hf

/-- On the display unit steps 2 to 4 are a RENDER of the command formed (R75, R105). -/
theorem edges_forms_rendered :
    SameDisplay (s.edges (1 + 4 * (50 + s.params.dwellCycles))) (s.rendered s.formedCmd) := by
  have h := edges_sameDisplay_render hi hs hpins hN (c := s.formedCmd) (by rw [drive_of_forms hf])
  rwa [render_spec hpins hN] at h

/-- From the edge at which it presents its command to an idle display the main loop waits for `done`, which does
not come before the render is over (R85, R107). -/
theorem edges_waitDone (hp : s.deb.phase = .ready) {n : Nat} (hn : n ≤ 4 * (50 + s.params.dwellCycles)) :
    (s.edges (1 + n)).host = .waitDone ∧ (s.edges (1 + n)).volt = s.volt.update s.params s.inp.sample ∧
    (s.edges (1 + n)).deb = ⟨.ready, s.deb.cnt, false, false⟩ := by
  have hd := drive_of_forms hf
  induction n with
  | zero =>
    refine ⟨(nextEdge_host s).trans ?_, (nextEdge_volt s).trans (voltAfter_of_forms hf),
      (nextEdge_deb hs.1).trans ?_⟩
    · rw [hostAfter_of_forms hf, presented_mine, if_pos hi]
    · rw [hd, debouncerEdge_unsampled hp]
  | succ n ih =>
    obtain ⟨hwait, hvolt, hdeb⟩ := ih (by omega)
    obtain ⟨-, hrender, -⟩ := renderCycleTimes s s.formedCmd hs hi hpins hN (by rw [hd])
    have hdone : (s.edges (1 + n)).disp.done = false := by
      rw [Nat.add_comm]
      exact (hrender n (by omega)).2
    have hquiet : (s.edges (1 + n)).hostForms = false := by simp only [State.hostForms, hwait]
    rw [show s.edges (1 + (n + 1)) = (s.edges (1 + n)).nextEdge from rfl, nextEdge_host, nextEdge_volt,
      nextEdge_deb (NoReset_edges hs _).1, hostAfter_waitDone hwait, drive_waitDone hwait, hdone, hdeb,
      debouncerEdge_unsampled rfl]
    exact ⟨rfl, (voltAfter_of_not_forms hquiet).trans hvolt, rfl⟩

end

/-! ### The iteration -/

/-- From step 1 to the edge at which the main loop forms its command: `loopPresents` edges, which touch nothing
(R106, R107). -/
theorem edges_loopPresents {s : State} (hs : s.NoReset) (hi : s.disp.phase = .idle) (hp : s.deb.phase = .ready)
    (hM : 1 ≤ s.params.debounceCycles) (hh : s.host = .step1) :
    let p := 1 + loopBlock s + (s.edges (1 + loopBlock s)).inp.overhead
    (s.edges p).hostForms = true ∧ (s.edges p).deb.phase = .ready ∧
    (s.edges p).deb.cnt = (if s.inp.btnN = false then 1 else s.deb.cnt) ∧
    ∀ j, j ≤ p → Untouched s (s.edges j) := by
  obtain ⟨hwait, hpass, hbefore⟩ := edges_loopStep1 hs hi hp hM hh
  generalize 1 + loopBlock s = k at hwait hpass hbefore ⊢
  have hsame := hbefore k (Nat.le_refl _)
  obtain ⟨hforms, hready, hcnt, hover⟩ := edges_overhead (NoReset_edges hs k) (hsame.phase.trans hi)
    (by rw [hpass]) (.inl ⟨hwait, by rw [hpass], rfl⟩)
  intro p
  rw [← edges_add] at hforms hready hcnt
  refine ⟨hforms, hready, hcnt.trans (by rw [hpass]), fun j hj => ?_⟩
  rcases Nat.le_total j k with hle | hle
  · exact hbefore j hle
  · obtain ⟨i, rfl⟩ := Nat.exists_eq_add_of_le hle
    rw [edges_add]
    exact hsame.trans (hover i (Nat.le_of_add_le_add_left hj))

/-- An iteration of LOOP that no reset cuts short is the edges of the main loop from step 1 (R106; log 18). -/
theorem exec_loop_ready {s : State} (hi : s.disp.phase = .idle) (hp : s.deb.phase = .ready) (hs : s.NoReset)
    (hM : 1 ≤ s.params.debounceCycles) :
    let s1 : State := { s with host := .step1 }
    let k := 1 + loopBlock s
    exec .loop s = .next
      { s1.edges (k + (s1.edges k).inp.overhead + 1 + 4 * (50 + s.params.dwellCycles)) with
        pending := encode s.params.valueWidth .loop :: s.pending } := by
  intro s1 k
  have hs1 : s1.NoReset := hs
  have hstep1 : s.loopStep1 = s1.edges k := by
    rw [edges_add]
    exact run_noReset _ (NoReset_edges hs1 1)
  obtain ⟨-, hpass, -⟩ := edges_loopStep1 hs1 hi hp hM rfl
  have hpassed : (s1.edges k).deb.dbPass = true := congrArg Debouncer.dbPass hpass
  have hiteration : s.loopIteration =
      s1.edges (k + (s1.edges k).inp.overhead + 1 + 4 * (50 + s.params.dwellCycles)) := by
    rw [State.loopIteration, hstep1, if_pos hpassed, State.loopSteps23, run_noReset _ (NoReset_edges hs1 k),
      ← edges_add, edges_params, renderCycles, ← Nat.add_assoc, ← Nat.add_assoc]
  show execLoop s = _
  rw [execLoop, if_pos (hostMayProceed_iff.2 ⟨hi, hp, hs.1⟩), hiteration]

/-- Settles O50: step 1, the overhead, the edge that presents, and the render, one after the other. -/
theorem loopCompletesOneIteration : Obligations.LoopCompletesOneIteration := by
  intro s hi hp hs hpins hwf s1 k p w t v c
  obtain ⟨hN, hM, -⟩ := wellFormed_bounds hwf
  have hs1 : s1.NoReset := hs
  have hk : 1 + loopBlock s1 = k := by
    show 1 + (if pressed s.inp.btnN then _ else _) = 1 + if s.inp.btnN = false then _ else _
    cases s.inp.btnN <;> rfl
  obtain ⟨-, hpass, -⟩ := edges_loopStep1 hs1 hi hp hM rfl
  obtain ⟨hforms, hready, hcnt, huntil⟩ := edges_loopPresents hs1 hi hp hM rfl
  have hexec : exec .loop s = _ := exec_loop_ready hi hp hs hM
  rw [show 1 + loopBlock s = k from hk] at hexec
  rw [hk] at hpass hforms hready hcnt huntil
  have hw : Untouched s1 w := huntil p (Nat.le_refl _)
  have hwi : w.disp.phase = .idle := hw.phase.trans hi
  have hwN : 1 ≤ w.params.dwellCycles := by rw [hw.params]; exact hN
  have hwpins := hw.pinsAtRest hpins
  have hws : w.NoReset := NoReset_edges hs1 p
  have hc : w.formedCmd = c := by
    rw [State.formedCmd, voltAfter_of_forms hforms, hw.volt, hw.params]
  have ht : t = w.edges (1 + 4 * (50 + w.params.dwellCycles)) := by
    rw [← edges_add, hw.params, ← Nat.add_assoc]
  obtain ⟨hhost, hvolt, hdeb⟩ := edges_waitDone hws hwi hwpins hwN hforms hready (Nat.le_refl _)
  obtain ⟨-, hdisp, hrecv, hwire⟩ :=
    sameDisplay_trans (edges_forms_rendered hws hwi hwpins hwN hforms) (hw.rendered _)
  rw [← ht] at hhost hvolt hdeb hdisp hrecv hwire
  rw [hc] at hdisp hrecv hwire
  refine ⟨hexec, fun hb => ?_, hpass, fun j hj => ⟨(huntil j hj).volt, (huntil j hj).phase.trans hi⟩,
    hvolt.trans ?_, hhost, hdeb.trans ?_, hdisp, hrecv, hwire, edges_params s1 _, edges_result s1 _⟩
  · obtain ⟨hblock, -⟩ := blockLastsDebounceCycles s1 hs1 hM hp rfl hb
    exact hblock
  · rw [hw.volt, hw.params]
  · rw [hcnt]

end Sys2Proof.Machine
end

section
/-! No operation faults or is refused (spec/60_exceptions.md R120): whatever the state, each answers a next
state. -/

namespace Sys2Proof.Machine

/-! ### Operations that wait or are turned away answer next -/

/-- A request of the display unit answers next, taken or turned away. -/
theorem exists_ifDisplayFree_next (s : State) (f : State → State) : ∃ t, ifDisplayFree s f = .next t := by
  cases hfree : s.displayFree with
  | true => exact ⟨_, ifDisplayFree_free hfree f⟩
  | false => exact ⟨_, ifDisplayFree_not_free hfree f⟩

/-- A blocking operation of the main loop answers next, run or still requested (R107). -/
theorem exists_hostMayProceed_next (i : Instr) (s u : State) :
    ∃ t, (if s.hostMayProceed then .next u else stalled i s) = Host.Outcome.next t := by
  split
  · exact ⟨u, rfl⟩
  · exact ⟨_, rfl⟩

theorem exists_execDwell_next (s : State) : ∃ t, execDwell s = .next t := by
  unfold execDwell
  split
  · exact ⟨_, rfl⟩
  · exact exists_ifDisplayFree_next s State.dwellAlone

/-! ### Every operation and every step -/

/-- Every operation has a next state in every state (R120). The operations not named in the case split have
one case only. -/
theorem exists_exec_next (i : Instr) (s : State) : ∃ t, exec i s = .next t := by
  cases i
  case render | showclock | showvolts => exact exists_ifDisplayFree_next s fun u => u.runRender _
  case shiftbit | shiftbyte | writeframe => exact exists_ifDisplayFree_next s fun u => u.drivePins _ _ _
  case dwell => exact exists_execDwell_next s
  case modesel => exact exists_hostMayProceed_next .modesel s _
  case loop => exact exists_hostMayProceed_next .loop s _
  all_goals exact ⟨_, rfl⟩

/-- Settles O56: a well-formed word decodes (O5), so its step is an operation's (O1), and every operation
answers next. -/
theorem nothingFaults : Obligations.NothingFaults := by
  refine ⟨exists_exec_next, fun s hwell => ?_⟩
  cases hs : s.pending with
  | nil => exact ⟨_, stepWithoutRequestIsClockEdge s hs⟩
  | cons w rest =>
    obtain ⟨i, hi⟩ := (decodeAcceptsExactlyWellFormed _ w).2 (hwell w (by rw [hs]; rfl))
    obtain ⟨hrun, -⟩ := stepRunsDecodedOperation s w rest hs
    rw [hrun i hi]
    exact exists_exec_next i _

end Sys2Proof.Machine
end

section
/-! Reset (spec/70_reset_and_hazards.md R140 to R142): what a reset edge loads, what the display
controller makes of the jump of the pins, and the state reset leaves. -/

namespace Sys2Proof.Machine

/-- At a reset edge the display controller sees the pins jump to their reset levels and nothing else
(R36, R142). -/
theorem clockEdgeWith_reset_recv {s : State} (h : s.inp.rst = true) (r : Drive) :
    (s.clockEdgeWith r).recv = s.recv.observe s.disp Display.reset := by
  rw [clockEdgeWith_reset h, State.resetBlocks_recv, State.edgeSurroundings_recv,
    State.edgeSurroundings_disp]

/-- The reset levels have `sclk` low and `latch` high, so the jump shifts nothing and is a commit exactly
from a low `latch` (R33). -/
theorem observe_displayReset (r : Receiver) (d : Display) :
    r.observe d Display.reset = ⟨r.sr, if d.latch = false then r.sr else r.out⟩ := by
  simp [Receiver.observe, Display.reset]

/-- Settles O36: `rst = 1` overrides both blocks. -/
theorem resetEdgeLoadsResetValues : Obligations.ResetEdgeLoadsResetValues := fun _ hr =>
  ⟨clockEdgeWith_reset_disp hr _, clockEdgeWith_reset_deb hr _⟩

/-- Settles O37: the receiver sees the pins jump, which raises `latch` where it was low. -/
theorem resetMidFrameCommitsShiftChain : Obligations.ResetMidFrameCommitsShiftChain := by
  intro s hr
  have hrecv : s.clockEdge.recv = ⟨s.recv.sr, if s.disp.latch = false then s.recv.sr else s.recv.out⟩ :=
    (clockEdgeWith_reset_recv hr _).trans (observe_displayReset s.recv s.disp)
  rw [hrecv]
  exact ⟨rfl, rfl⟩

/-- Settles O38: each value is read off `State.reset`; `cmd_ready`, `busy` and `db_busy` follow from the two
phases. -/
theorem resetStateValues : Obligations.ResetStateValues :=
  ⟨rfl, rfl, rfl, rfl, rfl, rfl, rfl, rfl, rfl, rfl, rfl, rfl⟩

end Sys2Proof.Machine
end
